-- ==== Sys2Proof/Word.lean ====
section
/-! DEFINITION. The bit-vector widths of the tac08 graphics block (00_scope.md R9): a word is 16 bits, a byte 8,
a nibble 4; a response is 32 bits (30_encoding.md R106). -/

namespace Sys2Proof

/-- A 4-bit value: a colour index, an element of a packed store (00_scope.md R9, R14). -/
abbrev Nibble := BitVec 4

/-- An 8-bit value: the unit of every store (00_scope.md R9). -/
abbrev Byte := BitVec 8

/-- A 16-bit value: a header or operand word of a packet, an address (00_scope.md R9, 30_encoding.md R100). -/
abbrev Word := BitVec 16

/-- A 32-bit value: the response of a command (30_encoding.md R106). -/
abbrev Word32 := BitVec 32

end Sys2Proof
end

