-- ==== Sys2Proof/Machine/Operands.lean ====
section
/-! DEFINITION. How a command reads an operand word (30_encoding.md R101), and the bit-field helpers of 00_scope.md
R9, R10 that every rule uses. The bits a helper does not read are ignored, never required to be zero. -/

namespace Sys2Proof.Machine

/-- `s16(w)`, a coordinate, size, radius, cell count or camera offset: two's complement, -32768..32767 (R9). -/
def s16 (w : Word) : Int := w.toInt

/-- `u16(w)`, an address or a guard index: 0..65535 (R9). -/
def u16 (w : Word) : Nat := w.toNat

/-- `w[7:0]`, a data byte, colour byte, sprite number, flag value or layer mask. -/
def lo8 (w : Word) : Byte := w.extractLsb' 0 8

/-- `w[3:0]`, a colour index. -/
def lo4 (w : Word) : Nibble := w.extractLsb' 0 4

/-- `w[2:0]`, a bit number, 0..7. -/
def lo3 (w : Word) : Nat := (w.extractLsb' 0 3).toNat

/-- `b[3:0]`. -/
def loNibble (b : Byte) : Nibble := b.extractLsb' 0 4

/-- `b[7:4]`. -/
def hiNibble (b : Byte) : Nibble := b.extractLsb' 4 4

/-- Element `e` of a packed store within its byte `b`: the low nibble for an even `e`, the high one for an odd `e`
(10_state.md R40). -/
def nibOfByte (b : Byte) (e : Nat) : Nibble := if e % 2 = 0 then loNibble b else hiNibble b

/-- Byte `b` with element `e`'s nibble replaced by `v`, the other untouched (10_state.md R41). -/
def setNibOfByte (b : Byte) (e : Nat) (v : Nibble) : Byte :=
  if e % 2 = 0 then hiNibble b ++ v else v ++ loNibble b

/-- `clamp(v, lo, hi)` (00_scope.md R10). -/
def clamp (v lo hi : Int) : Int := max lo (min hi v)

/-- `w + k` modulo 65536: the address `k` bytes on (20_memory.md R79). -/
def addrPlus (w : Word) (k : Nat) : Word := w + BitVec.ofNat 16 k

/-- Bits `8i+7 : 8i` of a 32-bit value (20_memory.md R75). -/
def byteOf (v : Word32) (i : Nat) : Byte := v.extractLsb' (8 * i) 8

/-- `b3 ++ b2 ++ b1 ++ b0`: four bytes, the first the least significant (20_memory.md R74). -/
def word32Of (b0 b1 b2 b3 : Byte) : Word32 := b3 ++ b2 ++ b1 ++ b0

end Sys2Proof.Machine
end

