-- ==== Sys2Proof/Config.lean ====
section
/-! DEFINITION. What the implementation fixes (the stores and their sizes, 00_scope.md R7, R8, 10_state.md R34) and
the values the spec leaves open (70_reset_and_hazards.md R282), each a constant with no body. -/

namespace Sys2Proof

/-- The ten byte stores of 10_state.md R34. -/
inductive Store where
  /-- `GFXLO`: sprite sheet rows 0..63. -/
  | gfxLo
  /-- `SHARED`: sprite sheet rows 64..127 and map rows 32..63, the same bytes. -/
  | shared
  /-- `MAPLO`: map rows 0..31. -/
  | mapLo
  /-- `FLAGS`: one flag byte per sprite id. -/
  | flags
  /-- `FONT`: the font sheet. -/
  | font
  /-- `FB`: the framebuffer. -/
  | fb
  /-- `G1`: the guard array before the framebuffer. -/
  | g1
  /-- `G2`: the guard array after the framebuffer. -/
  | g2
  /-- `CART`: cartridge persistent data. -/
  | cart
  /-- `SCRATCH`: scratch data. -/
  | scratch
  deriving DecidableEq, Repr

/-- Size in bytes of each store: the table of 10_state.md R34. -/
def Store.size : Store → Nat
  | .gfxLo => 4096
  | .shared => 4096
  | .mapLo => 4096
  | .flags => 256
  | .font => 8192
  | .fb => 8192
  | .g1 => 8192
  | .g2 => 8192
  | .cart => 256
  | .scratch => 4096

/-- `RESET_FG`: the foreground colour after reset and after RESTORE, an open parameter
(00_scope.md R8, 70_reset_and_hazards.md R282). DESIGN CHOICE: a free value, safe; log entry 5. -/
opaque Config.resetFg : Nibble

/-- `RESET_BG`: the background colour after reset and after RESTORE, an open parameter
(00_scope.md R8, 70_reset_and_hazards.md R282). DESIGN CHOICE: a free value, safe; log entry 5. -/
opaque Config.resetBg : Nibble

/-- What byte `i` of a bulk store holds after the `epoch`-th reset until a command writes it: "arbitrary: the model
treats every byte as an unknown value until a command writes it" (70_reset_and_hazards.md R282). DESIGN CHOICE: a
free value for each reset, store and index, safe; log entry 4. -/
opaque Config.unspecifiedByte : (epoch : Nat) → Store → (i : Nat) → Byte

end Sys2Proof
end

