-- ==== Sys2Proof/Machine/State.lean ====
section
/-! DEFINITION. The state of the block as plain data (10_state.md), its value after reset (R51), and the reasons a
step can stop. -/

namespace Sys2Proof.Machine

/-- One store's written bytes: (index, byte) pairs, indices strictly rising, no entry equal to what the store's
unlisted bytes hold (`Memory.wf`). -/
abbrev Memory := List Host.Cell

/-- The graphics state `G` (10_state.md R23 to R30). -/
structure Gfx where
  /-- Foreground colour (R24). -/
  fg : Nibble
  /-- Background colour (R24). -/
  bg : Nibble
  /-- Dither mask (R25). -/
  pattern : Word
  /-- Clip rectangle, half open, each field in 0..128 (R26). -/
  clipX1 : Int
  clipY1 : Int
  clipX2 : Int
  clipY2 : Int
  /-- Camera offset, signed (R27). -/
  cameraX : Word
  cameraY : Word
  /-- Colour to colour (R28). -/
  paletteMap : Vector Nibble 16
  /-- Colour to "skipped by the blitter" (R29). -/
  transparent : Vector Bool 16
  /-- The active sprite-shaped store: false the sprite sheet, true the font (R30). -/
  sheetSel : Bool
  deriving DecidableEq, Repr

/-- The ten byte stores (10_state.md R34). -/
structure Stores where
  gfxLo : Memory
  shared : Memory
  mapLo : Memory
  flags : Memory
  font : Memory
  fb : Memory
  g1 : Memory
  g2 : Memory
  cart : Memory
  scratch : Memory
  deriving DecidableEq, Repr

/-- What the host presents to the block: a word of a packet (30_encoding.md R100), or reset (70_reset_and_hazards.md
R280). The model's own type; log entries 1 and 8. -/
inductive HostEvent where
  | word (w : Word)
  | reset
  deriving DecidableEq, Repr

/-- The machine: the block's state (10_state.md), and four fields of the model's own (`input`, `resp`, `ci`,
`epoch`). -/
structure State where
  /-- The graphics state (R23). -/
  g : Gfx
  /-- The byte stores (R34). -/
  stores : Stores
  /-- The fault latch (R32). -/
  fault : Bool
  /-- What the host has presented and the block has not yet taken (R100, R280); log entries 1 and 8. -/
  input : List HostEvent
  /-- The response port: the response of the last step that executed a command, none after a step that returned no
  response (R20, R106); log entry 2. -/
  resp : Option Word32
  /-- The presenter's sequencing index: packets executed (R21, R110); log entry 3. -/
  ci : Nat
  /-- How many resets the host has applied: it selects fresh free values for the unspecified stores; log entry 8. -/
  epoch : Nat
  deriving DecidableEq, Repr

/-- Why a step faults: no step of this block does. Its one exception, IntegrityFault, has an entry the spec describes
(60_exceptions.md R260, R264), so it is a next state with the latch set; log entry 6. -/
inductive Fault where
  deriving DecidableEq, Repr

/-- Why a step has no meaning. -/
inductive Refusal where
  /-- Raised by a dispatch arm without a meaning (none is left). Safe. -/
  | notModelled (mnemonic : String)
  /-- Raised by the step on a header whose opcode is not in R107: a reserved packet (30_encoding.md R108 (a)). Safe. -/
  | unknownOpcode (header : Word)
  /-- Raised by the step on a header with a modifier bit its opcode does not allow (R108 (b)). Safe. -/
  | reservedModifier (header : Word)
  /-- Raised by the step on a packet whose stream ends before its length (R108 (c)). Safe. -/
  | shortPacket (header : Word)
  deriving DecidableEq, Repr

/-- The reset value of the graphics state (10_state.md R51), which RESTORE also gives it (41_graphics_state.md R163).
`fg` and `bg` are the open parameters; log entry 5. -/
def Gfx.reset : Gfx where
  fg := Config.resetFg
  bg := Config.resetBg
  pattern := 0
  clipX1 := 0
  clipY1 := 0
  clipX2 := 128
  clipY2 := 128
  cameraX := 0
  cameraY := 0
  paletteMap := #v[0, 1, 2, 3, 4, 5, 6, 7, 8, 9, 10, 11, 12, 13, 14, 15]
  transparent := #v[true, false, false, false, false, false, false, false, false, false, false, false, false, false,
    false, false]
  sheetSel := false

/-- No byte of any store is written. -/
def Stores.empty : Stores := ⟨[], [], [], [], [], [], [], [], [], []⟩

/-- The machine right after reset (10_state.md R51, 70_reset_and_hazards.md R280): the graphics state and the latch
at their reset values, the guards at their pattern and the bulk stores unspecified (nothing listed), nothing
presented. -/
def State.reset : State where
  g := Gfx.reset
  stores := Stores.empty
  fault := false
  input := []
  resp := none
  ci := 0
  epoch := 0

end Sys2Proof.Machine
end

