-- ==== Sys2Proof/Machine/Ops.lean ====
section
/-! DEFINITION. The shared operations over stores and the graphics state: bytes and elements of stores (10_state.md
R34, R40, R41), the grids (R42 to R45), the helpers of 41_graphics_state.md (R150, R151, R165), how a command ends,
taking the exception (60_exceptions.md R260, R264), applying reset (70_reset_and_hazards.md R280), and the counted
loop of 00_scope.md R12. -/

namespace Sys2Proof.Machine

/-! ### Memory: sparse bytes in one canonical form -/

/-- What reset puts into byte `i` of a store, where the spec gives it: `i mod 256` in the guards (10_state.md R46,
R51); nothing in the bulk stores, which are unspecified. It is what an unlisted index holds. -/
def resetByte : Store → Nat → Option Byte
  | .g1, i => some (BitVec.ofNat 8 i)
  | .g2, i => some (BitVec.ofNat 8 i)
  | _, _ => none

/-- The byte listed at index `i`. -/
def Memory.lookup : Memory → Nat → Option Byte
  | [], _ => none
  | c :: m, i => if c.1 = i then some c.2 else Memory.lookup m i

/-- List byte `v` at index `i`, keeping indices rising. -/
def Memory.put : Memory → Nat → Byte → Memory
  | [], i, v => [(i, v)]
  | c :: m, i, v =>
    if i < c.1 then (i, v) :: c :: m
    else if i = c.1 then (i, v) :: m
    else c :: Memory.put m i v

/-- Drop what is listed at index `i`. -/
def Memory.erase : Memory → Nat → Memory
  | [], _ => []
  | c :: m, i => if c.1 = i then Memory.erase m i else c :: Memory.erase m i

/-- Write byte `v` at index `i` of a store whose unlisted byte there is `d`: writing `d` itself drops the entry, so
that equal contents are equal lists. -/
def Memory.write (m : Memory) (d : Option Byte) (i : Nat) (v : Byte) : Memory :=
  if d = some v then m.erase i else m.put i v

/-- Indices are above `lo` and strictly rising. -/
def Memory.risingFrom : Nat → Memory → Bool
  | _, [] => true
  | lo, c :: m => decide (lo ≤ c.1) && Memory.risingFrom (c.1 + 1) m

/-- The canonical form of store `S`'s list: indices strictly rising and inside the store (10_state.md R34), no entry
equal to what an unlisted index holds. -/
def Memory.wf (S : Store) (m : Memory) : Bool :=
  Memory.risingFrom 0 m && m.all (fun c => decide (c.1 < S.size) && decide (resetByte S c.1 ≠ some c.2))

/-! ### Stores -/

/-- The list of one store. -/
def Stores.get (ss : Stores) : Store → Memory
  | .gfxLo => ss.gfxLo
  | .shared => ss.shared
  | .mapLo => ss.mapLo
  | .flags => ss.flags
  | .font => ss.font
  | .fb => ss.fb
  | .g1 => ss.g1
  | .g2 => ss.g2
  | .cart => ss.cart
  | .scratch => ss.scratch

/-- Replace the list of one store. -/
def Stores.set (ss : Stores) (S : Store) (m : Memory) : Stores :=
  match S with
  | .gfxLo => { ss with gfxLo := m }
  | .shared => { ss with shared := m }
  | .mapLo => { ss with mapLo := m }
  | .flags => { ss with flags := m }
  | .font => { ss with font := m }
  | .fb => { ss with fb := m }
  | .g1 => { ss with g1 := m }
  | .g2 => { ss with g2 := m }
  | .cart => { ss with cart := m }
  | .scratch => { ss with scratch := m }

/-- What byte `i` of store `S` holds when nothing is listed there: the reset pattern, or the free value of a byte that
reset leaves unspecified (10_state.md R51; log entry 4). -/
def State.unlisted (s : State) (S : Store) (i : Nat) : Byte :=
  (resetByte S i).getD (Config.unspecifiedByte s.epoch S i)

/-- `S[i]`, byte `i` of store `S` (00_scope.md R11). -/
def State.byte (s : State) (S : Store) (i : Nat) : Byte :=
  ((s.stores.get S).lookup i).getD (s.unlisted S i)

/-- `S[i] <- v` (00_scope.md R11). -/
def State.setByte (s : State) (S : Store) (i : Nat) (v : Byte) : State :=
  { s with stores := s.stores.set S ((s.stores.get S).write (resetByte S i) i v) }

/-- `nib(S, e)`, element `e` of packed store `S` (10_state.md R40). -/
def State.nib (s : State) (S : Store) (e : Nat) : Nibble := nibOfByte (s.byte S (e / 2)) e

/-- `setnib(S, e, v)`: one element written, the other nibble of its byte untouched (10_state.md R41). -/
def State.setNib (s : State) (S : Store) (e : Nat) (v : Nibble) : State :=
  s.setByte S (e / 2) (setNibOfByte (s.byte S (e / 2)) e v)

/-! ### Grids -/

/-- The store and element of cell `(x, y)` of the active sprite-shaped store, both coordinates wrapped modulo 128
(10_state.md R42, R43): the font when `sel`, else `GFXLO` for rows 0..63 and `SHARED` for rows 64..127. -/
def srcElem (sel : Bool) (x y : Int) : Store × Nat :=
  let e := ((y % 128) * 128 + x % 128).toNat
  if sel then (.font, e) else if e < 8192 then (.gfxLo, e) else (.shared, e - 8192)

/-- `SRC(x, y)` (10_state.md R43). -/
def State.src (s : State) (x y : Int) : Nibble :=
  s.nib (srcElem s.g.sheetSel x y).1 (srcElem s.g.sheetSel x y).2

/-- `SRC(x, y) <- c` (10_state.md R43). -/
def State.setSrc (s : State) (x y : Int) (c : Nibble) : State :=
  s.setNib (srcElem s.g.sheetSel x y).1 (srcElem s.g.sheetSel x y).2 c

/-- The map index of cell `(x, y)`, an exact integer (44_sprite_map_flags.md R232). -/
def mapIndex (x y : Int) : Int := y * 128 + x

/-- The store and byte of map index `i`: `MAPLO` for 0..4095, `SHARED` for 4096..8191, none outside the map
(10_state.md R44). -/
def mapElem (i : Int) : Option (Store × Nat) :=
  if 0 ≤ i ∧ i ≤ 8191 then
    some (if i < 4096 then (.mapLo, i.toNat) else (.shared, (i - 4096).toNat))
  else none

/-- `MAPcell(i)`, 0 outside the map (44_sprite_map_flags.md R232; log entry 9). -/
def State.mapCell (s : State) (i : Int) : Byte :=
  match mapElem i with
  | some (S, k) => s.byte S k
  | none => 0

/-- `MAPcell(i) <- v`, discarded outside the map (44_sprite_map_flags.md R232; log entry 9). -/
def State.setMapCell (s : State) (i : Int) (v : Byte) : State :=
  match mapElem i with
  | some (S, k) => s.setByte S k v
  | none => s

/-- The element of framebuffer pixel `(x, y)` (10_state.md R45); log entry 13 for coordinates off the screen, which
no reachable state asks for. -/
def fbElem (x y : Int) : Nat := (y * 128 + x).toNat

/-- `FBpix(x, y)` (10_state.md R45). -/
def State.fbPix (s : State) (x y : Int) : Nibble := s.nib .fb (fbElem x y)

/-- `FBpix(x, y) <- c` (10_state.md R45). -/
def State.setFbPix (s : State) (x y : Int) (c : Nibble) : State := s.setNib .fb (fbElem x y) c

/-! ### The graphics state -/

/-- `G.palette_map[c]` (10_state.md R28). -/
def Gfx.palette (g : Gfx) (c : Nibble) : Nibble := g.paletteMap[c.toNat]'c.isLt

/-- `G.transparent[c]` (10_state.md R29). -/
def Gfx.isTransparent (g : Gfx) (c : Nibble) : Bool := g.transparent[c.toNat]'c.isLt

/-- The state with graphics state `g`. -/
def State.withG (s : State) (g : Gfx) : State := { s with g := g }

/-- `apply_camera` on the x axis (41_graphics_state.md R150). -/
def State.camX (s : State) (x : Int) : Int := x - s16 s.g.cameraX

/-- `apply_camera` on the y axis (41_graphics_state.md R150). -/
def State.camY (s : State) (y : Int) : Int := y - s16 s.g.cameraY

/-- `color(c)`: both `fg` and `bg` are overwritten (41_graphics_state.md R151). -/
def State.color (s : State) (c : Byte) : State :=
  s.withG { s.g with fg := loNibble c, bg := hiNibble c }

/-- `if mod.C: color(cw[7:0])` (30_encoding.md R104): the optional colour word comes before the drawing. -/
def State.colorWord (s : State) (cw : Option Word) : State :=
  match cw with
  | some w => s.color (lo8 w)
  | none => s

/-- The bit of the pattern for a pixel phase: `(3 - (x mod 4)) + (3 - (y mod 4)) * 4` (41_graphics_state.md R165). -/
def patternBit (x y : Int) : Nat := ((3 - x % 4) + (3 - y % 4) * 4).toNat

/-- `sel(x, y)`, the dither selection (41_graphics_state.md R165), its two end cases first as the rule has them. -/
def Gfx.sel (g : Gfx) (x y : Int) : Nibble :=
  if g.pattern = 0x0000 then g.fg
  else if g.pattern = 0xFFFF then g.bg
  else if g.pattern.getLsbD (patternBit x y) then g.bg else g.fg

/-- The pixel lies inside the clip rectangle `[clip_x1, clip_x2) x [clip_y1, clip_y2)` (10_state.md R26). -/
abbrev Gfx.inClip (g : Gfx) (x y : Int) : Prop :=
  (g.clipX1 ≤ x ∧ x < g.clipX2) ∧ (g.clipY1 ≤ y ∧ y < g.clipY2)

/-! ### How a command ends -/

/-- A command completes: its response is returned and the sequencing index goes up by 1 (30_encoding.md R106,
R110). -/
def State.complete (s : State) (r : Word32) : State := { s with resp := some r, ci := s.ci + 1 }

/-- A packet is consumed and ignored while the latch is set: no state changes, no response, `ci` stops
(60_exceptions.md R264). -/
def State.ignored (s : State) : State := { s with resp := none }

/-- `raise IntegrityFault`: the latch is set, nothing else is written, no response is returned, `ci` stops
(60_exceptions.md R260, R264). There is no return from it (R265). -/
def State.raiseIntegrityFault (s : State) : State := { s with fault := true, resp := none }

/-- Every command's entry test: while the latch is set the block executes no command (10_state.md R32, 60_exceptions.md
R264). -/
def State.unlessFaulted (s t : State) : Host.Outcome State Fault Refusal :=
  if s.fault = true then .next s.ignored else .next t

/-- Reset applied by the host (70_reset_and_hazards.md R280): graphics state, latch and guards at their reset values,
the bulk stores unspecified anew (a new `epoch`), `ci` at 0, `rest` still to be presented; log entry 8. -/
def State.applyReset (s : State) (rest : List HostEvent) : State :=
  { State.reset with input := rest, epoch := s.epoch + 1 }

/-! ### Loops (00_scope.md R12) -/

/-- Run `f` on `a`, `a + 1`, ... for `n` values, in that order. -/
def forCount : Nat → Int → (Int → State → State) → State → State
  | 0, _, _, s => s
  | n + 1, a, f, s => forCount n (a + 1) f (f a s)

/-- `for i = a .. b`: not at all when `a > b`. -/
def forRange (a b : Int) (f : Int → State → State) (s : State) : State :=
  forCount (b - a + 1).toNat a f s

end Sys2Proof.Machine
end

