-- ==== Sys2Proof/Machine/Router.lean ====
section
/-! DEFINITION. The `framebuffer_router`: the routing table and the byte and 32-bit accesses (20_memory.md R60 to
R79). -/

namespace Sys2Proof.Machine

/-- How a region shows its store (20_memory.md R64, R65). -/
inductive Packing where
  /-- One address is one 4-bit element. -/
  | nibble
  /-- One address is one byte. -/
  | linear
  deriving DecidableEq, Repr

/-- A Memory Area: a row of the routing table (20_memory.md R62). -/
structure Region where
  base : Nat
  size : Nat
  packing : Packing
  store : Store
  deriving DecidableEq, Repr

/-- DUAL as the half `v` of the table shows it: the pixel half false, the cell half true (20_memory.md R62, R63). -/
def dualRegion (v : Bool) : Region :=
  if v then ⟨0x2000, 0x1000, .linear, .shared⟩ else ⟨0x2000, 0x2000, .nibble, .shared⟩

/-- The half `v` of the routing table (20_memory.md R62, R63). -/
def routingTable (v : Bool) : List Region :=
  [⟨0x0000, 0x2000, .nibble, .gfxLo⟩, dualRegion v, ⟨0x4000, 0x1000, .linear, .mapLo⟩,
   ⟨0x5000, 0x0100, .linear, .flags⟩, ⟨0x6000, 0x4000, .nibble, .fb⟩, ⟨0xA000, 0x4000, .nibble, .font⟩,
   ⟨0xE000, 0x0100, .linear, .cart⟩, ⟨0xF000, 0x1000, .linear, .scratch⟩]

/-- A row contains an address (20_memory.md R62, range containment). -/
def Region.holds (r : Region) (a : Nat) : Bool := decide (r.base ≤ a) && decide (a < r.base + r.size)

/-- The row of half `v` that contains an address, none when it is unmapped (20_memory.md R66). -/
def route (v : Bool) (a : Word) : Option Region := (routingTable v).find? (fun r => r.holds (u16 a))

/-- `MemRead(V, address, 1)` (20_memory.md R66, R68). -/
def State.memRead8 (s : State) (v : Bool) (a : Word) : Byte :=
  match route v a with
  | none => 0
  | some r =>
    match r.packing with
    | .nibble => (s.nib r.store (u16 a - r.base)).setWidth 8
    | .linear => s.byte r.store (u16 a - r.base)

/-- `MemWrite(V, address, 1, d)` (20_memory.md R67, R68). -/
def State.memWrite8 (s : State) (v : Bool) (a : Word) (d : Byte) : State :=
  match route v a with
  | none => s
  | some r =>
    match r.packing with
    | .nibble => s.setNib r.store (u16 a - r.base) (loNibble d)
    | .linear => s.setByte r.store (u16 a - r.base) d

/-- `MemRead(V, address, 4)`: four byte reads at ascending addresses modulo 65536, little-endian (20_memory.md
R74). -/
def State.memRead32 (s : State) (v : Bool) (a : Word) : Word32 :=
  word32Of (s.memRead8 v a) (s.memRead8 v (addrPlus a 1)) (s.memRead8 v (addrPlus a 2)) (s.memRead8 v (addrPlus a 3))

/-- `MemWrite(V, address, 4, d)`: four byte writes in ascending address order (20_memory.md R75). -/
def State.memWrite32 (s : State) (v : Bool) (a : Word) (d : Word32) : State :=
  (((s.memWrite8 v a (byteOf d 0)).memWrite8 v (addrPlus a 1) (byteOf d 1)).memWrite8 v (addrPlus a 2)
    (byteOf d 2)).memWrite8 v (addrPlus a 3) (byteOf d 3)

/-- The row that contains an address is nibble-packed: LOADB's test (40_address_space.md R138). -/
def nibbleRouted (v : Bool) (a : Word) : Bool :=
  match route v a with
  | some r => decide (r.packing = .nibble)
  | none => false

end Sys2Proof.Machine
end

