-- ==== Sys2Proof/Machine/AddressSpace.lean ====
section
/-! DEFINITION. The address-space commands RD8, WR8, RD32, WR32, LOADB (40_address_space.md). -/

namespace Sys2Proof.Machine

/-- RD8 (R130). -/
def execRd8 (v : Bool) (addr : Word) (s : State) : Host.Outcome State Fault Refusal :=
  s.unlessFaulted (s.complete ((s.memRead8 v addr).setWidth 32))

/-- WR8 (R131). -/
def execWr8 (v : Bool) (addr data : Word) (s : State) : Host.Outcome State Fault Refusal :=
  s.unlessFaulted ((s.memWrite8 v addr (lo8 data)).complete 0)

/-- RD32 (R132). -/
def execRd32 (v : Bool) (addr : Word) (s : State) : Host.Outcome State Fault Refusal :=
  s.unlessFaulted (s.complete (s.memRead32 v addr))

/-- WR32 (R133). -/
def execWr32 (v : Bool) (addr dataLo dataHi : Word) (s : State) : Host.Outcome State Fault Refusal :=
  s.unlessFaulted ((s.memWrite32 v addr (dataHi ++ dataLo)).complete 0)

/-- What LOADB writes: two elements, low nibble first, in a nibble-packed row; one byte elsewhere (R138). -/
def State.loadByte (s : State) (v : Bool) (a : Word) (b : Byte) : State :=
  if nibbleRouted v a then
    (s.memWrite8 v a ((loNibble b).setWidth 8)).memWrite8 v (addrPlus a 1) ((hiNibble b).setWidth 8)
  else s.memWrite8 v a b

/-- The address LOADB returns, where the next byte of the payload belongs (R138). -/
def loadNext (v : Bool) (a : Word) : Word := if nibbleRouted v a then addrPlus a 2 else addrPlus a 1

/-- LOADB (R138). -/
def execLoadb (v : Bool) (addr data : Word) (s : State) : Host.Outcome State Fault Refusal :=
  s.unlessFaulted ((s.loadByte v addr (lo8 data)).complete ((loadNext v addr).setWidth 32))

end Sys2Proof.Machine
end

