-- ==== Sys2Proof/Machine/GraphicsState.lean ====
section
/-! DEFINITION. The graphics-state commands (41_graphics_state.md R152 to R164). Each returns 0 and touches no
store. -/

namespace Sys2Proof.Machine

/-- The identity palette (R154). -/
def identityPalette : Vector Nibble 16 := #v[0, 1, 2, 3, 4, 5, 6, 7, 8, 9, 10, 11, 12, 13, 14, 15]

/-- Only colour 0 transparent (R156). -/
def defaultTransparent : Vector Bool 16 :=
  #v[true, false, false, false, false, false, false, false, false, false, false, false, false, false, false, false]

/-- COLOR (R152). -/
def execColor (c : Word) (s : State) : Host.Outcome State Fault Refusal :=
  s.unlessFaulted ((s.color (lo8 c)).complete 0)

/-- PAL (R153). -/
def execPal (c0 c1 : Word) (s : State) : Host.Outcome State Fault Refusal :=
  s.unlessFaulted
    ((s.withG { s.g with paletteMap := s.g.paletteMap.set (lo4 c0).toNat (lo4 c1) (lo4 c0).isLt }).complete 0)

/-- PALRST: the palette and, with it, the transparency (R154). -/
def execPalrst (s : State) : Host.Outcome State Fault Refusal :=
  s.unlessFaulted
    ((s.withG { s.g with paletteMap := identityPalette, transparent := defaultTransparent }).complete 0)

/-- PALT (R155). -/
def execPalt (t : Bool) (c : Word) (s : State) : Host.Outcome State Fault Refusal :=
  s.unlessFaulted
    ((s.withG { s.g with transparent := s.g.transparent.set (lo4 c).toNat t (lo4 c).isLt }).complete 0)

/-- PALTRST (R156). -/
def execPaltrst (s : State) : Host.Outcome State Fault Refusal :=
  s.unlessFaulted ((s.withG { s.g with transparent := defaultTransparent }).complete 0)

/-- CLIP: each field clamped into 0..128 (R157). -/
def execClip (x1 y1 x2 y2 : Word) (s : State) : Host.Outcome State Fault Refusal :=
  s.unlessFaulted
    ((s.withG { s.g with
      clipX1 := clamp (s16 x1) 0 128, clipY1 := clamp (s16 y1) 0 128,
      clipX2 := clamp (s16 x2) 0 128, clipY2 := clamp (s16 y2) 0 128 }).complete 0)

/-- CLIPRST (R158). -/
def execCliprst (s : State) : Host.Outcome State Fault Refusal :=
  s.unlessFaulted
    ((s.withG { s.g with clipX1 := 0, clipY1 := 0, clipX2 := 128, clipY2 := 128 }).complete 0)

/-- CAMERA (R159). -/
def execCamera (x y : Word) (s : State) : Host.Outcome State Fault Refusal :=
  s.unlessFaulted ((s.withG { s.g with cameraX := x, cameraY := y }).complete 0)

/-- CAMRST (R160). -/
def execCamrst (s : State) : Host.Outcome State Fault Refusal :=
  s.unlessFaulted ((s.withG { s.g with cameraX := 0, cameraY := 0 }).complete 0)

/-- FILLP (R161). -/
def execFillp (p : Word) (s : State) : Host.Outcome State Fault Refusal :=
  s.unlessFaulted ((s.withG { s.g with pattern := p }).complete 0)

/-- FILLPRST (R162). -/
def execFillprst (s : State) : Host.Outcome State Fault Refusal :=
  s.unlessFaulted ((s.withG { s.g with pattern := 0 }).complete 0)

/-- RESTORE: every field of `G` takes its reset value, nothing else changes (R163, 70_reset_and_hazards.md R281). -/
def execRestore (s : State) : Host.Outcome State Fault Refusal :=
  s.unlessFaulted
    ((s.withG { fg := Config.resetFg, bg := Config.resetBg, pattern := 0,
                clipX1 := 0, clipY1 := 0, clipX2 := 128, clipY2 := 128,
                cameraX := 0, cameraY := 0, paletteMap := identityPalette, transparent := defaultTransparent,
                sheetSel := false }).complete 0)

/-- SELSHEET (R164). -/
def execSelsheet (t : Bool) (s : State) : Host.Outcome State Fault Refusal :=
  s.unlessFaulted ((s.withG { s.g with sheetSel := t }).complete 0)

end Sys2Proof.Machine
end

