-- ==== Sys2Proof/Machine/Flags.lean ====
section
/-! DEFINITION. What the block has in the place of flags. It has no condition codes (10_state.md R22); its one sticky
status is the fault latch, set from the guard check computed here (45_integrity.md R253). Beside it: the bits of a
sprite's flag byte (44_sprite_map_flags.md R237, R238) and MAP's layer test (R240). -/

namespace Sys2Proof.Machine

/-- One guard array holds its pattern: no byte that is listed inside the array differs from `i mod 256`. An unlisted
byte holds the pattern, so this is the comparison of all 8192 bytes (`guardArrayIntact_iff`). -/
def State.guardArrayIntact (s : State) (S : Store) : Bool :=
  (s.stores.get S).all (fun c => decide (8192 ≤ c.1) || decide (s.byte S c.1 = BitVec.ofNat 8 c.1))

/-- `guard_check()` finds no differing byte (45_integrity.md R253). -/
def State.guardsIntact (s : State) : Bool := s.guardArrayIntact .g1 && s.guardArrayIntact .g2

/-- Bit `b` of a flag byte (44_sprite_map_flags.md R237). -/
def flagBit (f : Byte) (b : Nat) : Bool := f.getLsbD b

/-- A flag byte with bit `b` set to `t`, the other seven unchanged (44_sprite_map_flags.md R238). -/
def setFlagBit (f : Byte) (b : Nat) (t : Bool) : Byte :=
  if t then f ||| (1#8 <<< b) else f &&& ~~~(1#8 <<< b)

/-- MAP's test of a cell: it is not 0, and its flags satisfy the layer mask (44_sprite_map_flags.md R240). -/
def cellDrawn (cell flags layer : Byte) : Bool :=
  decide (cell ≠ 0) && (decide (layer = 0) || decide (flags &&& layer = layer))

end Sys2Proof.Machine
end

