-- ==== Sys2Proof/Machine/Integrity.lean ====
section
/-! DEFINITION. Framebuffer integrity: GETBUF, CHECK, GPOKE (45_integrity.md). -/

namespace Sys2Proof.Machine

/-- GETBUF: the check, then width and height (R250); IntegrityFault on a mismatch (R253). -/
def execGetbuf (s : State) : Host.Outcome State Fault Refusal :=
  s.unlessFaulted (if s.guardsIntact then s.complete 0x00800080 else s.raiseIntegrityFault)

/-- CHECK: the check, then 1 (R251); IntegrityFault on a mismatch (R253). -/
def execCheck (s : State) : Host.Outcome State Fault Refusal :=
  s.unlessFaulted (if s.guardsIntact then s.complete 1 else s.raiseIntegrityFault)

/-- The guard array and index that GPOKE's index names; none from 16384 on (R252). -/
def guardElem (i : Nat) : Option (Store × Nat) :=
  if i ≤ 8191 then some (.g1, i) else if i ≤ 16383 then some (.g2, i - 8192) else none

/-- The write of one guard byte (R252). -/
def State.pokeGuard (s : State) (i : Nat) (v : Byte) : State :=
  match guardElem i with
  | some (S, k) => s.setByte S k v
  | none => s

/-- GPOKE (R252). -/
def execGpoke (idx v : Word) (s : State) : Host.Outcome State Fault Refusal :=
  s.unlessFaulted ((s.pokeGuard (u16 idx) (lo8 v)).complete 0)

end Sys2Proof.Machine
end

