-- ==== Sys2Proof/Machine/Primitives.lean ====
section
/-! DEFINITION. The primitive rasterizer (43_primitives.md). -/

namespace Sys2Proof.Machine

/-! ### Internal primitives: coordinates are already camera-adjusted -/

/-- `FBpix(x, y) <- sel(x, y)`: a pixel written through the dither selection, unclipped (R204, R206, R210). -/
def State.plot (s : State) (x y : Int) : State := s.setFbPix x y (s.g.sel x y)

/-- `pset_i(x, y)` (R202). -/
def State.psetI (s : State) (x y : Int) : State := if s.g.inClip x y then s.plot x y else s

/-- `hline_i(xa, xb, y)`: both ends inclusive (R204). -/
def State.hlineI (s : State) (xa xb y : Int) : State :=
  if y < s.g.clipY1 ∨ s.g.clipY2 ≤ y then s
  else forRange (max (min xa xb) s.g.clipX1) (min (max xa xb) (s.g.clipX2 - 1)) (fun x t => t.plot x y) s

/-- `vline_i(x, ya, yb)`: both ends inclusive (R206). -/
def State.vlineI (s : State) (x ya yb : Int) : State :=
  if x < s.g.clipX1 ∨ s.g.clipX2 ≤ x then s
  else forRange (max (min ya yb) s.g.clipY1) (min (max ya yb) (s.g.clipY2 - 1)) (fun y t => t.plot x y) s

/-- The filled rectangle between two corners, both inclusive, in any order (R210). -/
def State.rectfillI (s : State) (x0 y0 x1 y1 : Int) : State :=
  forRange (max (min y0 y1) s.g.clipY1) (min (max y0 y1) (s.g.clipY2 - 1))
    (fun y t => forRange (max (min x0 x1) s.g.clipX1) (min (max x0 x1) (s.g.clipX2 - 1)) (fun x u => u.plot x y) t) s

/-- The outline between two corners: four runs (R209). -/
def State.rectI (s : State) (x0 y0 x1 y1 : Int) : State :=
  (((s.hlineI x0 x1 y0).hlineI x0 x1 y1).vlineI x0 y0 y1).vlineI x1 y0 y1

/-! ### The line walk (R208; PRESUMED by the spec itself, 93_implementation_defined.md G2; log entry 10) -/

/-- What stays fixed along a line: its end point, `dx >= 0`, `dy <= 0`, and the two step signs. -/
structure LineCtx where
  x1 : Int
  y1 : Int
  dx : Int
  dy : Int
  sx : Int
  sy : Int
  deriving DecidableEq, Repr

/-- The set-up of R208 for a line from `(x0, y0)` to `(x1, y1)`. -/
def lineCtx (x0 y0 x1 y1 : Int) : LineCtx where
  x1 := x1
  y1 := y1
  dx := |x1 - x0|
  dy := -|y1 - y0|
  sx := if x0 < x1 then 1 else -1
  sy := if y0 < y1 then 1 else -1

/-- The points of the walk from `(x, y)` with error term `err`, in order; `n` bounds their number. Both tests use the
same `e2 = 2 * err` (R208). -/
def lineWalk (c : LineCtx) : Nat → Int → Int → Int → List (Int × Int)
  | 0, _, _, _ => []
  | n + 1, x, y, err =>
    if x = c.x1 ∧ y = c.y1 then [(x, y)]
    else
      let stepX := c.dy ≤ 2 * err
      let stepY := 2 * err ≤ c.dx
      (x, y) :: lineWalk c n (if stepX then x + c.sx else x) (if stepY then y + c.sy else y)
        (err + (if stepX then c.dy else 0) + (if stepY then c.dx else 0))

/-- The points of LINE in order. Every iteration advances x or y, so `dx - dy + 1` iterations are enough (log entry
11). -/
def linePoints (x0 y0 x1 y1 : Int) : List (Int × Int) :=
  let c := lineCtx x0 y0 x1 y1
  lineWalk c (c.dx - c.dy + 1).toNat x0 y0 (c.dx + c.dy)

/-! ### The circle walk (R211; PRESUMED by the spec itself, 93_implementation_defined.md G1; log entry 10) -/

/-- The points visited from `(x, y)` with error term `err`, in order; `n` bounds their number. Both tests use the old
`err`; the new `x` and `y` enter the increments (R211). -/
def circleWalk : Nat → Int → Int → Int → List (Int × Int)
  | 0, _, _, _ => []
  | n + 1, x, y, err =>
    let x' := if x < err then x + 1 else x
    let y' := if err ≤ y then y + 1 else y
    (x, y) ::
      (if 0 ≤ x' then []
       else circleWalk n x' y' (err + (if x < err then 2 * x' + 1 else 0) + (if err ≤ y then 2 * y' + 1 else 0)))

/-- `circle_walk(r, ...)`: at most `2r` points (R211; log entry 11). -/
def circlePoints (r : Int) : List (Int × Int) := circleWalk (2 * r).toNat (-r) 0 (2 - 2 * r)

/-- The four point reflections of a step of CIRC (R212). -/
def State.circVisit (xm ym : Int) (s : State) (p : Int × Int) : State :=
  (((s.psetI (xm - p.1) (ym + p.2)).psetI (xm - p.2) (ym - p.1)).psetI (xm + p.1) (ym - p.2)).psetI (xm + p.2) (ym + p.1)

/-- The pair of spans of a step of CIRCFILL (R213). -/
def State.circfillVisit (xm ym : Int) (s : State) (p : Int × Int) : State :=
  (s.hlineI (xm + p.1) (xm - p.1) (ym + p.2)).hlineI (xm + p.1) (xm - p.1) (ym - p.2)

/-- The circle outline (R212): nothing below radius 0, one pixel at 0, the four outer pixels at 1. -/
def State.circI (s : State) (xm ym r : Int) : State :=
  if r < 0 then s
  else if r = 0 then s.psetI xm ym
  else if r = 1 then (((s.psetI xm (ym - 1)).psetI (xm - 1) ym).psetI (xm + 1) ym).psetI xm (ym + 1)
  else (circlePoints r).foldl (State.circVisit xm ym) s

/-- The filled circle (R213): nothing below radius 0, one pixel at 0, the five-pixel diamond at 1. -/
def State.circfillI (s : State) (xm ym r : Int) : State :=
  if r < 0 then s
  else if r = 0 then s.psetI xm ym
  else if r = 1 then ((s.psetI xm (ym - 1)).hlineI (xm - 1) (xm + 1) ym).psetI xm (ym + 1)
  else (circlePoints r).foldl (State.circfillVisit xm ym) s

/-- The whole framebuffer in one colour (R200). -/
def State.fillScreen (s : State) (c : Nibble) : State :=
  forRange 0 127 (fun y t => forRange 0 127 (fun x u => u.setFbPix x y c) t) s

/-! ### Commands -/

/-- CLS: the palette-mapped colour everywhere, whatever the clip, the camera and the pattern (R200). -/
def execCls (c : Word) (s : State) : Host.Outcome State Fault Refusal :=
  s.unlessFaulted ((s.fillScreen (s.g.palette (lo4 c))).complete 0)

/-- The value PGET returns for an adjusted point: 0 off the screen (R201). -/
def State.pixelAt (s : State) (px py : Int) : Nibble :=
  if (0 ≤ px ∧ px ≤ 127) ∧ (0 ≤ py ∧ py ≤ 127) then s.fbPix px py else 0

/-- PGET (R201). -/
def execPget (x y : Word) (s : State) : Host.Outcome State Fault Refusal :=
  s.unlessFaulted (s.complete ((s.pixelAt (s.camX (s16 x)) (s.camY (s16 y))).setWidth 32))

/-- PSET (R203). -/
def execPset (x y : Word) (cw : Option Word) (s : State) : Host.Outcome State Fault Refusal :=
  s.unlessFaulted (((s.colorWord cw).psetI (s.camX (s16 x)) (s.camY (s16 y))).complete 0)

/-- HLINE (R205). -/
def execHline (x0 x1 y : Word) (cw : Option Word) (s : State) : Host.Outcome State Fault Refusal :=
  s.unlessFaulted
    (((s.colorWord cw).hlineI (s.camX (s16 x0)) (s.camX (s16 x1)) (s.camY (s16 y))).complete 0)

/-- VLINE (R207). -/
def execVline (x y0 y1 : Word) (cw : Option Word) (s : State) : Host.Outcome State Fault Refusal :=
  s.unlessFaulted
    (((s.colorWord cw).vlineI (s.camX (s16 x)) (s.camY (s16 y0)) (s.camY (s16 y1))).complete 0)

/-- LINE (R208). -/
def execLine (x0 y0 x1 y1 : Word) (cw : Option Word) (s : State) : Host.Outcome State Fault Refusal :=
  s.unlessFaulted
    (((linePoints (s.camX (s16 x0)) (s.camY (s16 y0)) (s.camX (s16 x1)) (s.camY (s16 y1))).foldl
      (fun t p => t.psetI p.1 p.2) (s.colorWord cw)).complete 0)

/-- RECT (R209). -/
def execRect (x0 y0 x1 y1 : Word) (cw : Option Word) (s : State) : Host.Outcome State Fault Refusal :=
  s.unlessFaulted
    (((s.colorWord cw).rectI (s.camX (s16 x0)) (s.camY (s16 y0)) (s.camX (s16 x1)) (s.camY (s16 y1))).complete 0)

/-- RECTFILL (R210). -/
def execRectfill (x0 y0 x1 y1 : Word) (cw : Option Word) (s : State) : Host.Outcome State Fault Refusal :=
  s.unlessFaulted
    (((s.colorWord cw).rectfillI (s.camX (s16 x0)) (s.camY (s16 y0)) (s.camX (s16 x1)) (s.camY (s16 y1))).complete 0)

/-- CIRC (R212). -/
def execCirc (x y r : Word) (cw : Option Word) (s : State) : Host.Outcome State Fault Refusal :=
  s.unlessFaulted (((s.colorWord cw).circI (s.camX (s16 x)) (s.camY (s16 y)) (s16 r)).complete 0)

/-- CIRCFILL (R213). -/
def execCircfill (x y r : Word) (cw : Option Word) (s : State) : Host.Outcome State Fault Refusal :=
  s.unlessFaulted (((s.colorWord cw).circfillI (s.camX (s16 x)) (s.camY (s16 y)) (s16 r)).complete 0)

end Sys2Proof.Machine
end

