-- ==== Sys2Proof/Machine/Blit.lean ====
section
/-! DEFINITION. The blitting engine (42_blit.md). -/

namespace Sys2Proof.Machine

/-- One axis of a blit: destination start, source start, length. -/
structure Span where
  dest : Int
  src : Int
  len : Int
  deriving DecidableEq, Repr

/-- The first half of `clip_axis`: a span that starts before the clip minimum loses the deficit at its start
(R181). -/
def Span.cutLow (a : Span) (lo : Int) : Span :=
  if a.dest < lo then ⟨lo, a.src + (lo - a.dest), a.len - (lo - a.dest)⟩ else a

/-- The second half: a span that ends after the clip maximum loses its end (R181). -/
def Span.cutHigh (a : Span) (hi : Int) : Span :=
  if hi < a.dest + a.len then ⟨a.dest, a.src, hi - a.dest⟩ else a

/-- `clip_axis(dest, src, len, lo, hi)` (R181). -/
def clipAxis (dest src len lo hi : Int) : Span :=
  let a := (Span.cutLow ⟨dest, src, len⟩ lo).cutHigh hi
  if a.len < 0 then ⟨a.dest, a.src, 0⟩ else a

/-- `put(X, Y, c)`: transparency keyed by the source colour, then the palette (R182, 41_graphics_state.md R166). -/
def State.put (s : State) (x y : Int) (c : Nibble) : State :=
  if s.g.isTransparent c then s else s.setFbPix x y (s.g.palette c)

/-- Offset `k` of a window of `len`, from the other end when flipped. -/
def flipped (flip : Bool) (len k : Int) : Int := if flip then len - 1 - k else k

/-- The destination rectangle intersects the clip rectangle: step 1 of R183. -/
abbrev Gfx.blitVisible (g : Gfx) (x y w h : Int) : Prop :=
  x < g.clipX2 ∧ g.clipX1 < x + w ∧ y < g.clipY2 ∧ g.clipY1 < y + h

/-- The copy of a clipped window, the flips acting on it: step 3 of R183. -/
def State.copyWindow (s : State) (ax ay : Span) (flipX flipY : Bool) : State :=
  forRange 0 (ay.len - 1)
    (fun j t => forRange 0 (ax.len - 1)
      (fun i u => u.put (ax.dest + i) (ay.dest + j)
        (u.src (ax.src + flipped flipX ax.len i) (ay.src + flipped flipY ay.len j))) t) s

/-- `blitter(scr_x, scr_y, spr_x, spr_y, w, h, flip_x, flip_y)`, the fixed blit (R183). -/
def State.blitter (s : State) (scrX scrY sprX sprY w h : Int) (flipX flipY : Bool) : State :=
  if s.g.blitVisible scrX scrY w h then
    s.copyWindow (clipAxis scrX sprX w s.g.clipX1 s.g.clipX2) (clipAxis scrY sprY h s.g.clipY1 s.g.clipY2) flipX flipY
  else s

/-- The source coordinate of offset `k` of a scaled axis: 16.16 fixed point, nearest neighbour by truncation (steps 2
and 3 of R186). -/
def scaledSrc (src srcLen dstLen k : Int) : Int := (src * 65536 + k * (srcLen * 65536 / dstLen)) / 65536

/-- `stretch(spr_x, spr_y, spr_w, spr_h, scr_x, scr_y, scr_w, scr_h, flip_x, flip_y)`, the scaled blit (R186). -/
def State.stretch (s : State) (sprX sprY sprW sprH scrX scrY scrW scrH : Int) (flipX flipY : Bool) : State :=
  if sprW ≤ 0 ∨ sprH ≤ 0 ∨ scrW ≤ 0 ∨ scrH ≤ 0 then s
  else
    forRange (max scrY s.g.clipY1) (min (scrY + scrH) s.g.clipY2 - 1)
      (fun y t => forRange (max scrX s.g.clipX1) (min (scrX + scrW) s.g.clipX2 - 1)
        (fun x u => u.put x y
          (u.src (scaledSrc sprX sprW scrW (flipped flipX scrW (x - scrX)))
            (scaledSrc sprY sprH scrH (flipped flipY scrH (y - scrY))))) t) s

/-- The sheet column of sprite `n`'s top-left cell, `8 * (n & 15)` (10_state.md R42). -/
def spriteX (n : Byte) : Int := 8 * (n.toNat % 16 : Nat)

/-- The sheet row of sprite `n`'s top-left cell, `8 * (n >> 4)` (10_state.md R42). -/
def spriteY (n : Byte) : Int := 8 * (n.toNat / 16 : Nat)

/-- BLIT (R184). -/
def execBlit (flipX flipY : Bool) (sx sy w h dx dy : Word) (s : State) : Host.Outcome State Fault Refusal :=
  s.unlessFaulted
    ((s.blitter (s.camX (s16 dx)) (s.camY (s16 dy)) (s16 sx) (s16 sy) (s16 w) (s16 h) flipX flipY).complete 0)

/-- SPR (R185). -/
def execSpr (flipX flipY : Bool) (n x y w h : Word) (s : State) : Host.Outcome State Fault Refusal :=
  s.unlessFaulted
    ((s.blitter (s.camX (s16 x)) (s.camY (s16 y)) (spriteX (lo8 n)) (spriteY (lo8 n)) (8 * s16 w) (8 * s16 h) flipX
      flipY).complete 0)

/-- SSPR (R187). -/
def execSspr (flipX flipY : Bool) (sx sy sw sh dx dy dw dh : Word) (s : State) : Host.Outcome State Fault Refusal :=
  s.unlessFaulted
    ((s.stretch (s16 sx) (s16 sy) (s16 sw) (s16 sh) (s.camX (s16 dx)) (s.camY (s16 dy)) (s16 dw) (s16 dh) flipX
      flipY).complete 0)

end Sys2Proof.Machine
end

