-- ==== Sys2Proof/Machine/SpriteMapFlags.lean ====
section
/-! DEFINITION. The sprite, map and flag store commands (44_sprite_map_flags.md). -/

namespace Sys2Proof.Machine

/-- SGET (R230). -/
def execSget (x y : Word) (s : State) : Host.Outcome State Fault Refusal :=
  s.unlessFaulted (s.complete ((s.src (s16 x) (s16 y)).setWidth 32))

/-- SSET: the colour word first, then `fg` whatever the pattern, palette and clip (R231). -/
def execSset (x y : Word) (cw : Option Word) (s : State) : Host.Outcome State Fault Refusal :=
  s.unlessFaulted (((s.colorWord cw).setSrc (s16 x) (s16 y) (s.colorWord cw).g.fg).complete 0)

/-- MGET (R233). -/
def execMget (x y : Word) (s : State) : Host.Outcome State Fault Refusal :=
  s.unlessFaulted (s.complete ((s.mapCell (mapIndex (s16 x) (s16 y))).setWidth 32))

/-- MSET (R234). -/
def execMset (x y v : Word) (s : State) : Host.Outcome State Fault Refusal :=
  s.unlessFaulted ((s.setMapCell (mapIndex (s16 x) (s16 y)) (lo8 v)).complete 0)

/-- FGET (R235). -/
def execFget (n : Word) (s : State) : Host.Outcome State Fault Refusal :=
  s.unlessFaulted (s.complete ((s.byte .flags (lo8 n).toNat).setWidth 32))

/-- FSET (R236). -/
def execFset (n v : Word) (s : State) : Host.Outcome State Fault Refusal :=
  s.unlessFaulted ((s.setByte .flags (lo8 n).toNat (lo8 v)).complete 0)

/-- FGETB (R237). -/
def execFgetb (n b : Word) (s : State) : Host.Outcome State Fault Refusal :=
  s.unlessFaulted (s.complete (if flagBit (s.byte .flags (lo8 n).toNat) (lo3 b) then 1 else 0))

/-- FSETB (R238). -/
def execFsetb (t : Bool) (n b : Word) (s : State) : Host.Outcome State Fault Refusal :=
  s.unlessFaulted
    ((s.setByte .flags (lo8 n).toNat (setFlagBit (s.byte .flags (lo8 n).toNat) (lo3 b) t)).complete 0)

/-- One cell of MAP: an 8 x 8 fixed blit without flips when the cell passes the test (R240). -/
def State.mapDrawCell (s : State) (cell layer : Byte) (px py : Int) : State :=
  if cellDrawn cell (s.byte .flags cell.toNat) layer then
    s.blitter px py (spriteX cell) (spriteY cell) 8 8 false false
  else s

/-- The block of cells of MAP at an adjusted screen position, 8 pixels apart (R240). -/
def State.mapBlock (s : State) (celX celY px py celW celH : Int) (layer : Byte) : State :=
  forRange 0 (celH - 1)
    (fun j t => forRange 0 (celW - 1)
      (fun i u => u.mapDrawCell (u.mapCell (mapIndex (celX + i) (celY + j))) layer (px + 8 * i) (py + 8 * j)) t) s

/-- MAP (R240). -/
def execMap (celX celY sx sy celW celH layer : Word) (s : State) : Host.Outcome State Fault Refusal :=
  s.unlessFaulted
    ((s.mapBlock (s16 celX) (s16 celY) (s.camX (s16 sx)) (s.camY (s16 sy)) (s16 celW) (s16 celH)
      (lo8 layer)).complete 0)

end Sys2Proof.Machine
end

