-- ==== Sys2Proof/Syntax.lean ====
section
/-! DEFINITION. The commands of the block, one constructor per row of spec/opcode_table.json (30_encoding.md R107).
A field is an operand word of the packet under the table's name for it, kept whole (30_encoding.md R101: the rule of
each command says which bits it uses), a modifier bit of the header as a Bool (R102), or the optional colour word
`cw`, present exactly when the header's `C` bit is set (R104). -/

namespace Sys2Proof

/-- A command of the block (30_encoding.md R107). -/
inductive Instr where
  /-- RD8, R130. -/
  | rd8 (v : Bool) (addr : Word)
  /-- WR8, R131. -/
  | wr8 (v : Bool) (addr data : Word)
  /-- RD32, R132. -/
  | rd32 (v : Bool) (addr : Word)
  /-- WR32, R133. -/
  | wr32 (v : Bool) (addr dataLo dataHi : Word)
  /-- LOADB, R138. -/
  | loadb (v : Bool) (addr data : Word)
  /-- COLOR, R152. -/
  | color (c : Word)
  /-- PAL, R153. -/
  | pal (c0 c1 : Word)
  /-- PALRST, R154. -/
  | palrst
  /-- PALT, R155. -/
  | palt (t : Bool) (c : Word)
  /-- PALTRST, R156. -/
  | paltrst
  /-- CLIP, R157. -/
  | clip (x1 y1 x2 y2 : Word)
  /-- CLIPRST, R158. -/
  | cliprst
  /-- CAMERA, R159. -/
  | camera (x y : Word)
  /-- CAMRST, R160. -/
  | camrst
  /-- FILLP, R161. -/
  | fillp (p : Word)
  /-- FILLPRST, R162. -/
  | fillprst
  /-- RESTORE, R163. -/
  | restore
  /-- SELSHEET, R164. -/
  | selsheet (t : Bool)
  /-- CLS, R200. -/
  | cls (c : Word)
  /-- PGET, R201. -/
  | pget (x y : Word)
  /-- PSET, R203. -/
  | pset (x y : Word) (cw : Option Word)
  /-- HLINE, R205. -/
  | hline (x0 x1 y : Word) (cw : Option Word)
  /-- VLINE, R207. -/
  | vline (x y0 y1 : Word) (cw : Option Word)
  /-- LINE, R208. -/
  | line (x0 y0 x1 y1 : Word) (cw : Option Word)
  /-- RECT, R209. -/
  | rect (x0 y0 x1 y1 : Word) (cw : Option Word)
  /-- RECTFILL, R210. -/
  | rectfill (x0 y0 x1 y1 : Word) (cw : Option Word)
  /-- CIRC, R212. -/
  | circ (x y r : Word) (cw : Option Word)
  /-- CIRCFILL, R213. -/
  | circfill (x y r : Word) (cw : Option Word)
  /-- SGET, R230. -/
  | sget (x y : Word)
  /-- SSET, R231. -/
  | sset (x y : Word) (cw : Option Word)
  /-- MGET, R233. -/
  | mget (x y : Word)
  /-- MSET, R234. -/
  | mset (x y v : Word)
  /-- FGET, R235. -/
  | fget (n : Word)
  /-- FSET, R236. -/
  | fset (n v : Word)
  /-- FGETB, R237. -/
  | fgetb (n b : Word)
  /-- FSETB, R238. -/
  | fsetb (t : Bool) (n b : Word)
  /-- BLIT, R184. -/
  | blit (flipX flipY : Bool) (sx sy w h dx dy : Word)
  /-- SPR, R185. -/
  | spr (flipX flipY : Bool) (n x y w h : Word)
  /-- SSPR, R187. -/
  | sspr (flipX flipY : Bool) (sx sy sw sh dx dy dw dh : Word)
  /-- MAP, R240. -/
  | map (celX celY sx sy celW celH layer : Word)
  /-- GETBUF, R250. -/
  | getbuf
  /-- CHECK, R251. -/
  | check
  /-- GPOKE, R252. -/
  | gpoke (idx v : Word)
  deriving DecidableEq, Repr

end Sys2Proof
end

