-- ==== Sys2Proof/Machine/Dispatch.lean ====
section
/-! DEFINITION. One arm per command (30_encoding.md R107), each one direct call of the command's meaning. -/

namespace Sys2Proof.Machine

/-- The meaning of a command at a state. -/
def exec (i : Instr) (s : State) : Host.Outcome State Fault Refusal :=
  match i with
  | .rd8 v addr => Sys2Proof.Machine.execRd8 v addr s
  | .wr8 v addr data => Sys2Proof.Machine.execWr8 v addr data s
  | .rd32 v addr => Sys2Proof.Machine.execRd32 v addr s
  | .wr32 v addr dataLo dataHi => Sys2Proof.Machine.execWr32 v addr dataLo dataHi s
  | .loadb v addr data => Sys2Proof.Machine.execLoadb v addr data s
  | .color c => Sys2Proof.Machine.execColor c s
  | .pal c0 c1 => Sys2Proof.Machine.execPal c0 c1 s
  | .palrst => Sys2Proof.Machine.execPalrst s
  | .palt t c => Sys2Proof.Machine.execPalt t c s
  | .paltrst => Sys2Proof.Machine.execPaltrst s
  | .clip x1 y1 x2 y2 => Sys2Proof.Machine.execClip x1 y1 x2 y2 s
  | .cliprst => Sys2Proof.Machine.execCliprst s
  | .camera x y => Sys2Proof.Machine.execCamera x y s
  | .camrst => Sys2Proof.Machine.execCamrst s
  | .fillp p => Sys2Proof.Machine.execFillp p s
  | .fillprst => Sys2Proof.Machine.execFillprst s
  | .restore => Sys2Proof.Machine.execRestore s
  | .selsheet t => Sys2Proof.Machine.execSelsheet t s
  | .cls c => Sys2Proof.Machine.execCls c s
  | .pget x y => Sys2Proof.Machine.execPget x y s
  | .pset x y cw => Sys2Proof.Machine.execPset x y cw s
  | .hline x0 x1 y cw => Sys2Proof.Machine.execHline x0 x1 y cw s
  | .vline x y0 y1 cw => Sys2Proof.Machine.execVline x y0 y1 cw s
  | .line x0 y0 x1 y1 cw => Sys2Proof.Machine.execLine x0 y0 x1 y1 cw s
  | .rect x0 y0 x1 y1 cw => Sys2Proof.Machine.execRect x0 y0 x1 y1 cw s
  | .rectfill x0 y0 x1 y1 cw => Sys2Proof.Machine.execRectfill x0 y0 x1 y1 cw s
  | .circ x y r cw => Sys2Proof.Machine.execCirc x y r cw s
  | .circfill x y r cw => Sys2Proof.Machine.execCircfill x y r cw s
  | .sget x y => Sys2Proof.Machine.execSget x y s
  | .sset x y cw => Sys2Proof.Machine.execSset x y cw s
  | .mget x y => Sys2Proof.Machine.execMget x y s
  | .mset x y v => Sys2Proof.Machine.execMset x y v s
  | .fget n => Sys2Proof.Machine.execFget n s
  | .fset n v => Sys2Proof.Machine.execFset n v s
  | .fgetb n b => Sys2Proof.Machine.execFgetb n b s
  | .fsetb t n b => Sys2Proof.Machine.execFsetb t n b s
  | .blit flipX flipY sx sy w h dx dy => Sys2Proof.Machine.execBlit flipX flipY sx sy w h dx dy s
  | .spr flipX flipY n x y w h => Sys2Proof.Machine.execSpr flipX flipY n x y w h s
  | .sspr flipX flipY sx sy sw sh dx dy dw dh => Sys2Proof.Machine.execSspr flipX flipY sx sy sw sh dx dy dw dh s
  | .map celX celY sx sy celW celH layer => Sys2Proof.Machine.execMap celX celY sx sy celW celH layer s
  | .getbuf => Sys2Proof.Machine.execGetbuf s
  | .check => Sys2Proof.Machine.execCheck s
  | .gpoke idx v => Sys2Proof.Machine.execGpoke idx v s

end Sys2Proof.Machine
end

