-- ==== Sys2Proof/Decode.lean ====
section
/-! DEFINITION. The packet decoder and the encoder (30_encoding.md R100 to R108). The decoder is total on any list of
words and rejects a reserved packet by name; the encoder below it writes each command's packet out from the table of
R107 on its own, not through the decoder's table. -/

namespace Sys2Proof

/-- The 43 opcodes of 30_encoding.md R107 as names. -/
inductive Opcode where
  | rd8 | wr8 | rd32 | wr32 | loadb
  | color | pal | palrst | palt | paltrst | clip | cliprst | camera | camrst | fillp | fillprst | restore | selsheet
  | cls | pget | pset | hline | vline | line | rect | rectfill | circ | circfill
  | sget | sset | mget | mset | fget | fset | fgetb | fsetb
  | blit | spr | sspr | map
  | getbuf | check | gpoke
  deriving DecidableEq, Repr

/-- A row of the opcode map: the opcode number, its name, its operand count and the modifier bits it allows. -/
structure OpRow where
  code : BitVec 8
  opcode : Opcode
  operands : Nat
  mods : BitVec 8
  deriving DecidableEq, Repr

/-- Why a packet is reserved (30_encoding.md R108). -/
inductive DecodeError where
  /-- No word is presented, so there is no header to read. -/
  | noHeader
  /-- (a) the header's opcode is not in R107. -/
  | unknownOpcode (header : Word)
  /-- (b) the header sets a modifier bit its opcode does not allow, bits 7:5 included. -/
  | reservedModifier (header : Word)
  /-- (c) the packet ends before its length. -/
  | shortPacket (header : Word)
  deriving DecidableEq, Repr

/-- Rows 0x0_ of R107: the address space; the only modifier is `V` (bit 3). -/
def opRowsAddress : List OpRow :=
  [⟨0x01, .rd8, 1, 0x08⟩, ⟨0x02, .wr8, 2, 0x08⟩, ⟨0x03, .rd32, 1, 0x08⟩, ⟨0x04, .wr32, 3, 0x08⟩,
   ⟨0x05, .loadb, 2, 0x08⟩]

/-- Rows 0x1_ of R107: the graphics state; `T` (bit 4) on PALT and SELSHEET. -/
def opRowsState : List OpRow :=
  [⟨0x10, .color, 1, 0x00⟩, ⟨0x11, .pal, 2, 0x00⟩, ⟨0x12, .palrst, 0, 0x00⟩, ⟨0x13, .palt, 1, 0x10⟩,
   ⟨0x14, .paltrst, 0, 0x00⟩, ⟨0x15, .clip, 4, 0x00⟩, ⟨0x16, .cliprst, 0, 0x00⟩, ⟨0x17, .camera, 2, 0x00⟩,
   ⟨0x18, .camrst, 0, 0x00⟩, ⟨0x19, .fillp, 1, 0x00⟩, ⟨0x1A, .fillprst, 0, 0x00⟩, ⟨0x1B, .restore, 0, 0x00⟩,
   ⟨0x1C, .selsheet, 0, 0x10⟩]

/-- Rows 0x2_ of R107: the rasterizer; `C` (bit 0) on the eight drawing commands. -/
def opRowsPrimitive : List OpRow :=
  [⟨0x20, .cls, 1, 0x00⟩, ⟨0x21, .pget, 2, 0x00⟩, ⟨0x22, .pset, 2, 0x01⟩, ⟨0x23, .hline, 3, 0x01⟩,
   ⟨0x24, .vline, 3, 0x01⟩, ⟨0x25, .line, 4, 0x01⟩, ⟨0x26, .rect, 4, 0x01⟩, ⟨0x27, .rectfill, 4, 0x01⟩,
   ⟨0x28, .circ, 3, 0x01⟩, ⟨0x29, .circfill, 3, 0x01⟩]

/-- Rows 0x3_ of R107: sprite, map and flag stores; `C` on SSET, `T` on FSETB. -/
def opRowsStore : List OpRow :=
  [⟨0x30, .sget, 2, 0x00⟩, ⟨0x31, .sset, 2, 0x01⟩, ⟨0x32, .mget, 2, 0x00⟩, ⟨0x33, .mset, 3, 0x00⟩,
   ⟨0x34, .fget, 1, 0x00⟩, ⟨0x35, .fset, 2, 0x00⟩, ⟨0x36, .fgetb, 2, 0x00⟩, ⟨0x37, .fsetb, 2, 0x10⟩]

/-- Rows 0x4_ of R107: the blitting engine; `X` (bit 1) and `Y` (bit 2) on BLIT, SPR and SSPR. -/
def opRowsBlit : List OpRow :=
  [⟨0x40, .blit, 6, 0x06⟩, ⟨0x41, .spr, 5, 0x06⟩, ⟨0x42, .sspr, 8, 0x06⟩, ⟨0x43, .map, 7, 0x00⟩]

/-- Rows 0x7_ of R107: framebuffer integrity. -/
def opRowsIntegrity : List OpRow :=
  [⟨0x70, .getbuf, 0, 0x00⟩, ⟨0x71, .check, 0, 0x00⟩, ⟨0x7F, .gpoke, 2, 0x00⟩]

/-- The opcode map of 30_encoding.md R107. -/
def opTable : List OpRow :=
  opRowsAddress ++ opRowsState ++ opRowsPrimitive ++ opRowsStore ++ opRowsBlit ++ opRowsIntegrity

/-- `hdr[15:8]`, the opcode of a header word (30_encoding.md R102). -/
def opcodeField (h : Word) : BitVec 8 := h.extractLsb' 8 8

/-- `hdr[7:0]`, the modifier byte of a header word (30_encoding.md R102). -/
def modField (h : Word) : BitVec 8 := h.extractLsb' 0 8

/-- The row of R107 that a header's opcode selects. -/
def findRow (h : Word) : Option OpRow := opTable.find? (fun r => r.code == opcodeField h)

/-- Modifier `C`, header bit 0 (30_encoding.md R102). -/
def modC (m : BitVec 8) : Bool := m.getLsbD 0

/-- Modifier `X`, header bit 1. -/
def modX (m : BitVec 8) : Bool := m.getLsbD 1

/-- Modifier `Y`, header bit 2. -/
def modY (m : BitVec 8) : Bool := m.getLsbD 2

/-- Modifier `V`, header bit 3. -/
def modV (m : BitVec 8) : Bool := m.getLsbD 3

/-- Modifier `T`, header bit 4. -/
def modT (m : BitVec 8) : Bool := m.getLsbD 4

/-- The first `n` words of a stream and what follows them; none when the stream ends before. -/
def takeWords : Nat → List Word → Option (List Word × List Word)
  | 0, ws => some ([], ws)
  | _ + 1, [] => none
  | n + 1, w :: ws => (takeWords n ws).map (fun p => (w :: p.1, p.2))

/-- The command of an opcode with its modifier byte, operand words and colour word (30_encoding.md R105, R107); none
when the operand count is not the opcode's. -/
def buildInstr (op : Opcode) (m : BitVec 8) (ops : List Word) (cw : Option Word) : Option Instr :=
  match op with
  | .rd8 => match ops with | [a] => some (.rd8 (modV m) a) | _ => none
  | .wr8 => match ops with | [a, d] => some (.wr8 (modV m) a d) | _ => none
  | .rd32 => match ops with | [a] => some (.rd32 (modV m) a) | _ => none
  | .wr32 => match ops with | [a, lo, hi] => some (.wr32 (modV m) a lo hi) | _ => none
  | .loadb => match ops with | [a, d] => some (.loadb (modV m) a d) | _ => none
  | .color => match ops with | [c] => some (.color c) | _ => none
  | .pal => match ops with | [c0, c1] => some (.pal c0 c1) | _ => none
  | .palrst => match ops with | [] => some .palrst | _ => none
  | .palt => match ops with | [c] => some (.palt (modT m) c) | _ => none
  | .paltrst => match ops with | [] => some .paltrst | _ => none
  | .clip => match ops with | [x1, y1, x2, y2] => some (.clip x1 y1 x2 y2) | _ => none
  | .cliprst => match ops with | [] => some .cliprst | _ => none
  | .camera => match ops with | [x, y] => some (.camera x y) | _ => none
  | .camrst => match ops with | [] => some .camrst | _ => none
  | .fillp => match ops with | [p] => some (.fillp p) | _ => none
  | .fillprst => match ops with | [] => some .fillprst | _ => none
  | .restore => match ops with | [] => some .restore | _ => none
  | .selsheet => match ops with | [] => some (.selsheet (modT m)) | _ => none
  | .cls => match ops with | [c] => some (.cls c) | _ => none
  | .pget => match ops with | [x, y] => some (.pget x y) | _ => none
  | .pset => match ops with | [x, y] => some (.pset x y cw) | _ => none
  | .hline => match ops with | [x0, x1, y] => some (.hline x0 x1 y cw) | _ => none
  | .vline => match ops with | [x, y0, y1] => some (.vline x y0 y1 cw) | _ => none
  | .line => match ops with | [x0, y0, x1, y1] => some (.line x0 y0 x1 y1 cw) | _ => none
  | .rect => match ops with | [x0, y0, x1, y1] => some (.rect x0 y0 x1 y1 cw) | _ => none
  | .rectfill => match ops with | [x0, y0, x1, y1] => some (.rectfill x0 y0 x1 y1 cw) | _ => none
  | .circ => match ops with | [x, y, r] => some (.circ x y r cw) | _ => none
  | .circfill => match ops with | [x, y, r] => some (.circfill x y r cw) | _ => none
  | .sget => match ops with | [x, y] => some (.sget x y) | _ => none
  | .sset => match ops with | [x, y] => some (.sset x y cw) | _ => none
  | .mget => match ops with | [x, y] => some (.mget x y) | _ => none
  | .mset => match ops with | [x, y, v] => some (.mset x y v) | _ => none
  | .fget => match ops with | [n] => some (.fget n) | _ => none
  | .fset => match ops with | [n, v] => some (.fset n v) | _ => none
  | .fgetb => match ops with | [n, b] => some (.fgetb n b) | _ => none
  | .fsetb => match ops with | [n, b] => some (.fsetb (modT m) n b) | _ => none
  | .blit => match ops with
    | [sx, sy, w, h, dx, dy] => some (.blit (modX m) (modY m) sx sy w h dx dy) | _ => none
  | .spr => match ops with | [n, x, y, w, h] => some (.spr (modX m) (modY m) n x y w h) | _ => none
  | .sspr => match ops with
    | [sx, sy, sw, sh, dx, dy, dw, dh] => some (.sspr (modX m) (modY m) sx sy sw sh dx dy dw dh) | _ => none
  | .map => match ops with
    | [cx, cy, sx, sy, cw', ch, l] => some (.map cx cy sx sy cw' ch l) | _ => none
  | .getbuf => match ops with | [] => some .getbuf | _ => none
  | .check => match ops with | [] => some .check | _ => none
  | .gpoke => match ops with | [i, v] => some (.gpoke i v) | _ => none

/-- The packet length in words, which "a decoder tells from the header word alone": `1 + n(opcode) + C`
(30_encoding.md R103). -/
def packetLength (h : Word) : Except DecodeError Nat :=
  match findRow h with
  | none => .error (.unknownOpcode h)
  | some r =>
    if modField h &&& ~~~r.mods = 0 then .ok (1 + r.operands + if modC (modField h) then 1 else 0)
    else .error (.reservedModifier h)

/-- The operand words of a packet with header `h` and what follows them, the colour word among what follows. -/
def decodeBody (h : Word) (r : OpRow) (ws : List Word) : Except DecodeError (Instr × List Word) :=
  match takeWords r.operands ws with
  | none => .error (.shortPacket h)
  | some (ops, rest) =>
    match modC (modField h), rest with
    | true, [] => .error (.shortPacket h)
    | true, cw :: rest' =>
      match buildInstr r.opcode (modField h) ops (some cw) with
      | some i => .ok (i, rest')
      | none => .error (.shortPacket h)
    | false, rest' =>
      match buildInstr r.opcode (modField h) ops none with
      | some i => .ok (i, rest')
      | none => .error (.shortPacket h)

/-- The command of the packet at the front of a stream of words, and the words after it; a reserved packet is
rejected by name (30_encoding.md R100 to R108). -/
def decode : List Word → Except DecodeError (Instr × List Word)
  | [] => .error .noHeader
  | h :: ws =>
    match findRow h with
    | none => .error (.unknownOpcode h)
    | some r =>
      if modField h &&& ~~~r.mods = 0 then decodeBody h r ws
      else .error (.reservedModifier h)

/-- The longest packet, in words: SSPR's header and eight operands (30_encoding.md R100). -/
def longestPacket : Nat := 9

/-- The words of an instruction whose bits are `w`, bit 0 the least significant bit of the header and each later word
16 bits further up; every bit from `nbits` on is 0. -/
def tableWords (nbits w : Nat) : List Word :=
  (List.range longestPacket).map (fun k => BitVec.ofNat 16 (w % 2 ^ nbits / 2 ^ (16 * k)))

/-- What the decoder reads from the instruction whose bits are `w`, numbered as spec/opcode_table.json numbers them. -/
def decodeTableWord (nbits w : Nat) : Option Instr :=
  match decode (tableWords nbits w) with
  | .ok (i, _) => some i
  | .error _ => none

/-- A header word: opcode in bits 15:8, modifier byte in bits 7:0 (30_encoding.md R102). -/
def header (op m : BitVec 8) : Word := op ++ m

/-- Modifier byte with `C` (bit 0) set when a colour word follows. -/
def bitC (cw : Option Word) : BitVec 8 := if cw.isSome then 0x01 else 0x00

/-- Modifier byte with the flips `X` (bit 1) and `Y` (bit 2). -/
def bitsXY (x y : Bool) : BitVec 8 := (if x then 0x02 else 0x00) ||| (if y then 0x04 else 0x00)

/-- Modifier byte with `V` (bit 3). -/
def bitV (v : Bool) : BitVec 8 := if v then 0x08 else 0x00

/-- Modifier byte with `T` (bit 4). -/
def bitT (t : Bool) : BitVec 8 := if t then 0x10 else 0x00

/-- The packet of a command, written from the tables of 30_encoding.md R102, R105, R107. -/
def encode : Instr → List Word
  | .rd8 v a => [header 0x01 (bitV v), a]
  | .wr8 v a d => [header 0x02 (bitV v), a, d]
  | .rd32 v a => [header 0x03 (bitV v), a]
  | .wr32 v a lo hi => [header 0x04 (bitV v), a, lo, hi]
  | .loadb v a d => [header 0x05 (bitV v), a, d]
  | .color c => [header 0x10 0, c]
  | .pal c0 c1 => [header 0x11 0, c0, c1]
  | .palrst => [header 0x12 0]
  | .palt t c => [header 0x13 (bitT t), c]
  | .paltrst => [header 0x14 0]
  | .clip x1 y1 x2 y2 => [header 0x15 0, x1, y1, x2, y2]
  | .cliprst => [header 0x16 0]
  | .camera x y => [header 0x17 0, x, y]
  | .camrst => [header 0x18 0]
  | .fillp p => [header 0x19 0, p]
  | .fillprst => [header 0x1A 0]
  | .restore => [header 0x1B 0]
  | .selsheet t => [header 0x1C (bitT t)]
  | .cls c => [header 0x20 0, c]
  | .pget x y => [header 0x21 0, x, y]
  | .pset x y cw => [header 0x22 (bitC cw), x, y] ++ cw.toList
  | .hline x0 x1 y cw => [header 0x23 (bitC cw), x0, x1, y] ++ cw.toList
  | .vline x y0 y1 cw => [header 0x24 (bitC cw), x, y0, y1] ++ cw.toList
  | .line x0 y0 x1 y1 cw => [header 0x25 (bitC cw), x0, y0, x1, y1] ++ cw.toList
  | .rect x0 y0 x1 y1 cw => [header 0x26 (bitC cw), x0, y0, x1, y1] ++ cw.toList
  | .rectfill x0 y0 x1 y1 cw => [header 0x27 (bitC cw), x0, y0, x1, y1] ++ cw.toList
  | .circ x y r cw => [header 0x28 (bitC cw), x, y, r] ++ cw.toList
  | .circfill x y r cw => [header 0x29 (bitC cw), x, y, r] ++ cw.toList
  | .sget x y => [header 0x30 0, x, y]
  | .sset x y cw => [header 0x31 (bitC cw), x, y] ++ cw.toList
  | .mget x y => [header 0x32 0, x, y]
  | .mset x y v => [header 0x33 0, x, y, v]
  | .fget n => [header 0x34 0, n]
  | .fset n v => [header 0x35 0, n, v]
  | .fgetb n b => [header 0x36 0, n, b]
  | .fsetb t n b => [header 0x37 (bitT t), n, b]
  | .blit fx fy sx sy w h dx dy => [header 0x40 (bitsXY fx fy), sx, sy, w, h, dx, dy]
  | .spr fx fy n x y w h => [header 0x41 (bitsXY fx fy), n, x, y, w, h]
  | .sspr fx fy sx sy sw sh dx dy dw dh => [header 0x42 (bitsXY fx fy), sx, sy, sw, sh, dx, dy, dw, dh]
  | .map cx cy sx sy cw ch l => [header 0x43 0, cx, cy, sx, sy, cw, ch, l]
  | .getbuf => [header 0x70 0]
  | .check => [header 0x71 0]
  | .gpoke i v => [header 0x7F 0, i, v]

end Sys2Proof
end

