-- ==== Sys2Proof/Machine/Fetch.lean ====
section
/-! DEFINITION. Taking a packet from the words the host presents (30_encoding.md R100), and presenting one. -/

namespace Sys2Proof.Machine

/-- The words presented before the next reset (or the end of the stream), and what follows them. -/
def fetchWords : List HostEvent → List Word × List HostEvent
  | [] => ([], [])
  | .reset :: es => ([], .reset :: es)
  | .word w :: es => (w :: (fetchWords es).1, (fetchWords es).2)

/-- Words as the host presents them. -/
def presentWords (ws : List Word) : List HostEvent := ws.map HostEvent.word

/-- The words of one packet: cut to its length where its header tells one (30_encoding.md R103). -/
def cutToPacket (ws : List Word) : List Word :=
  match ws with
  | [] => []
  | h :: rest =>
    match packetLength h with
    | .ok n => (h :: rest).take n
    | .error _ => h :: rest

/-- Why a reserved packet has no step (30_encoding.md R108). -/
def refusalOf : DecodeError → Refusal
  | .noHeader => .shortPacket 0
  | .unknownOpcode h => .unknownOpcode h
  | .reservedModifier h => .reservedModifier h
  | .shortPacket h => .shortPacket h

/-- A packet that the decoder rejects, with `es` presented after its words: a packet cut short by a reset is abandoned
and the reset is applied; anything else is refused (70_reset_and_hazards.md R280, 30_encoding.md R108; log entries 7
and 8). -/
def State.rejected (s : State) (e : DecodeError) (es : List HostEvent) : Host.Outcome State Fault Refusal :=
  match e, es with
  | .shortPacket _, .reset :: rest => .next (s.applyReset rest)
  | e, _ => .refused (refusalOf e)

end Sys2Proof.Machine
end

