-- ==== Sys2Proof/Machine/Step.lean ====
section
/-! DEFINITION. One step of the machine: the block takes the next packet the host has presented, decodes it and runs
it (30_encoding.md R100), or the host's reset is applied (70_reset_and_hazards.md R280). -/

namespace Sys2Proof.Machine

/-- One step. With nothing presented the block holds its state (60_exceptions.md R272). A packet that decodes is
consumed and executed; a reserved one is refused (30_encoding.md R108); log entries 1, 7 and 8. -/
def step (s : State) : Host.Outcome State Fault Refusal :=
  match s.input with
  | [] => .next s
  | .reset :: es => .next (s.applyReset es)
  | .word w :: es =>
    match decode (w :: (fetchWords es).1) with
    | .ok (i, ws) => exec i { s with input := presentWords ws ++ (fetchWords es).2 }
    | .error e => s.rejected e (fetchWords es).2

/-- `s` with the packet whose bits are `w` presented next: cut to the packet's length, before what is already
presented; log entry 1. -/
def State.withFetchWord (s : State) (nbits w : Nat) : State :=
  { s with input := presentWords (cutToPacket (tableWords nbits w)) ++ s.input }

end Sys2Proof.Machine
end

