-- ==== Sys2Proof/WellFormed.lean ====
section
/-! DEFINITION. Which packets are well formed, that is not reserved: the three checks of 30_encoding.md R108 on raw
words, each a decidable predicate. Operand values never make a packet ill formed (R109), so a command is well formed
when the packet that the encoder writes for it is. -/

namespace Sys2Proof

/-- Check (a) of R108: the header's opcode is in R107. -/
def Packet.opcodeKnown (h : Word) : Bool := (findRow h).isSome

/-- Check (b) of R108: no modifier bit is set that the opcode does not allow, bits 7:5 included (R102). -/
def Packet.modifiersAllowed (h : Word) : Bool :=
  match findRow h with
  | some r => modField h &&& ~~~r.mods == 0
  | none => false

/-- Check (c) of R108: the packet has the length of R103, `1 + n(opcode) + C` words, no fewer and no more. -/
def Packet.lengthExact (h : Word) (ws : List Word) : Bool :=
  match packetLength h with
  | .ok n => ws.length + 1 == n
  | .error _ => false

/-- A list of words is one well-formed packet: it passes the three checks of R108. -/
def Packet.wellFormed : List Word → Bool
  | [] => false
  | h :: ws => Packet.opcodeKnown h && Packet.modifiersAllowed h && Packet.lengthExact h ws

/-- A command is well formed when its packet is. -/
def Instr.wellFormed (i : Instr) : Bool := Packet.wellFormed (encode i)

end Sys2Proof
end

