-- ==== Sys2Proof/Safety.lean ====
section
/-! DEFINITION. The terms that claims about the block use: the invariants of 10_state.md R49, what a command leaves
unchanged, what a drawing command paints, and the routing of 20_memory.md R62 written as a list of ranges. -/

namespace Sys2Proof.Machine

/-- A framebuffer pixel: both coordinates in 0..127 (10_state.md R45). -/
abbrev onScreen (x y : Int) : Prop := (0 ≤ x ∧ x ≤ 127) ∧ (0 ≤ y ∧ y ≤ 127)

/-- Every clip field is in 0..128 (10_state.md R49 (b)). -/
abbrev Gfx.clipOk (g : Gfx) : Prop :=
  (0 ≤ g.clipX1 ∧ g.clipX1 ≤ 128) ∧ (0 ≤ g.clipY1 ∧ g.clipY1 ≤ 128) ∧
    (0 ≤ g.clipX2 ∧ g.clipX2 ≤ 128) ∧ (0 ≤ g.clipY2 ∧ g.clipY2 ≤ 128)

/-- Every store is in canonical form, all its written bytes inside its extent (10_state.md R34). -/
abbrev Stores.wf (ss : Stores) : Prop := ∀ S : Store, Memory.wf S (ss.get S) = true

/-- The invariant of the machine: a legal clip rectangle and canonical stores. -/
def State.Inv (s : State) : Prop := s.g.clipOk ∧ s.stores.wf

/-- All 16384 guard bytes hold the pattern (10_state.md R46, R49 (d)). -/
def State.GuardsHold (s : State) : Prop :=
  ∀ i : Nat, i < 8192 → s.byte .g1 i = BitVec.ofNat 8 i ∧ s.byte .g2 i = BitVec.ofNat 8 i

/-- `t` follows `s` by a completed command that leaves graphics state `g` and answers `r`: the latch, what is
presented and the epoch are unchanged, the index goes up by 1. It says nothing about the stores. -/
structure State.Completes (s t : State) (g : Gfx) (r : Word32) : Prop where
  g : t.g = g
  fault : t.fault = s.fault
  input : t.input = s.input
  epoch : t.epoch = s.epoch
  resp : t.resp = some r
  ci : t.ci = s.ci + 1

/-- Every byte of every store outside `P` reads as before. -/
def State.KeepsBytes (s t : State) (P : Store → Nat → Prop) : Prop :=
  ∀ S i, ¬ P S i → t.byte S i = s.byte S i

/-- Every byte of every store reads as before. -/
def State.KeepsAllBytes (s t : State) : Prop := ∀ S i, t.byte S i = s.byte S i

/-- From `s` to `t` exactly the framebuffer pixels `D` are written, pixel `(x, y)` with `v x y`; every other pixel and
every byte that holds no pixel of `D` reads as before. -/
structure State.Paints (s t : State) (D : Int → Int → Prop) (v : Int → Int → Nibble) : Prop where
  drawn : ∀ x y, onScreen x y → D x y → t.fbPix x y = v x y
  kept : ∀ x y, onScreen x y → ¬ D x y → t.fbPix x y = s.fbPix x y
  bytes : s.KeepsBytes t (fun S i => S = .fb ∧ ∃ x y, onScreen x y ∧ D x y ∧ i = fbElem x y / 2)

/-- The graphics state after an optional colour word: both `fg` and `bg` from its low byte (30_encoding.md R104,
41_graphics_state.md R151). -/
def Gfx.colored (g : Gfx) (cw : Option Word) : Gfx :=
  match cw with
  | none => g
  | some w => { g with fg := w.extractLsb' 0 4, bg := w.extractLsb' 4 4 }

/-- Where an address of half `v` leads, range by range as 20_memory.md R62 lists them: the store, the element or byte
of it, and whether the access is to a nibble; none when it is unmapped. -/
def addressTarget (v : Bool) (a : Nat) : Option (Packing × Store × Nat) :=
  if a ≤ 0x1FFF then some (.nibble, .gfxLo, a)
  else if a ≤ 0x2FFF then
    (if v then some (.linear, .shared, a - 0x2000) else some (.nibble, .shared, a - 0x2000))
  else if a ≤ 0x3FFF then (if v then none else some (.nibble, .shared, a - 0x2000))
  else if a ≤ 0x4FFF then some (.linear, .mapLo, a - 0x4000)
  else if a ≤ 0x50FF then some (.linear, .flags, a - 0x5000)
  else if a ≤ 0x5FFF then none
  else if a ≤ 0x9FFF then some (.nibble, .fb, a - 0x6000)
  else if a ≤ 0xDFFF then some (.nibble, .font, a - 0xA000)
  else if a ≤ 0xE0FF then some (.linear, .cart, a - 0xE000)
  else if a ≤ 0xEFFF then none
  else if a ≤ 0xFFFF then some (.linear, .scratch, a - 0xF000)
  else none

/-- The physical byte an address of half `v` leads to: an element's byte or the byte itself (20_memory.md R64, R65). -/
def addressByte (v : Bool) (a : Nat) : Option (Store × Nat) :=
  match addressTarget v a with
  | some (.nibble, S, e) => some (S, e / 2)
  | some (.linear, S, i) => some (S, i)
  | none => none

/-! ### Reserved headers, and groups of commands -/

/-- The opcodes that are not in the map, as 30_encoding.md R108 (a) lists them. -/
abbrev reservedOpcode (op : Nat) : Prop :=
  op = 0x00 ∨ (0x06 ≤ op ∧ op ≤ 0x0F) ∨ (0x1D ≤ op ∧ op ≤ 0x1F) ∨ (0x2A ≤ op ∧ op ≤ 0x2F) ∨
    (0x38 ≤ op ∧ op ≤ 0x3F) ∨ (0x44 ≤ op ∧ op ≤ 0x6F) ∨ (0x72 ≤ op ∧ op ≤ 0x7E) ∨ 0x80 ≤ op

/-- Which opcode allows which bit of the modifier byte, by the table of 30_encoding.md R102: `C` on PSET to CIRCFILL
and SSET, `X` and `Y` on BLIT, SPR, SSPR, `V` on RD8 to LOADB, `T` on PALT, FSETB, SELSHEET. -/
abbrev modifierAllowed (op bit : Nat) : Prop :=
  (bit = 0 ∧ ((0x22 ≤ op ∧ op ≤ 0x29) ∨ op = 0x31)) ∨ ((bit = 1 ∨ bit = 2) ∧ (0x40 ≤ op ∧ op ≤ 0x42)) ∨
    (bit = 3 ∧ (0x01 ≤ op ∧ op ≤ 0x05)) ∨ (bit = 4 ∧ (op = 0x13 ∨ op = 0x37 ∨ op = 0x1C))

/-- The commands with a result, as 30_encoding.md R106 lists them. -/
def hasResult : Instr → Bool
  | .rd8 .. | .rd32 .. | .loadb .. | .pget .. | .sget .. | .mget .. | .fget .. | .fgetb .. | .getbuf | .check => true
  | .wr8 .. | .wr32 .. | .color .. | .pal .. | .palrst | .palt .. | .paltrst | .clip .. | .cliprst | .camera ..
  | .camrst | .fillp .. | .fillprst | .restore | .selsheet .. | .cls .. | .pset .. | .hline .. | .vline .. | .line ..
  | .rect .. | .rectfill .. | .circ .. | .circfill .. | .sset .. | .mset .. | .fset .. | .fsetb .. | .blit ..
  | .spr .. | .sspr .. | .map .. | .gpoke .. => false

/-- The primitives that draw through the dither selection (41_graphics_state.md R166, 43_primitives.md R214). -/
def isPrimitive : Instr → Bool
  | .pset .. | .hline .. | .vline .. | .line .. | .rect .. | .rectfill .. | .circ .. | .circfill .. => true
  | .rd8 .. | .wr8 .. | .rd32 .. | .wr32 .. | .loadb .. | .color .. | .pal .. | .palrst | .palt .. | .paltrst
  | .clip .. | .cliprst | .camera .. | .camrst | .fillp .. | .fillprst | .restore | .selsheet .. | .cls .. | .pget ..
  | .sget .. | .sset .. | .mget .. | .mset .. | .fget .. | .fset .. | .fgetb .. | .fsetb .. | .blit .. | .spr ..
  | .sspr .. | .map .. | .getbuf | .check | .gpoke .. => false

/-- The commands of the blitting engine (42_blit.md, 44_sprite_map_flags.md R240). -/
def isBlit : Instr → Bool
  | .blit .. | .spr .. | .sspr .. | .map .. => true
  | .rd8 .. | .wr8 .. | .rd32 .. | .wr32 .. | .loadb .. | .color .. | .pal .. | .palrst | .palt .. | .paltrst
  | .clip .. | .cliprst | .camera .. | .camrst | .fillp .. | .fillprst | .restore | .selsheet .. | .cls .. | .pget ..
  | .pset .. | .hline .. | .vline .. | .line .. | .rect .. | .rectfill .. | .circ .. | .circfill .. | .sget ..
  | .sset .. | .mget .. | .mset .. | .fget .. | .fset .. | .fgetb .. | .fsetb .. | .getbuf | .check | .gpoke .. => false

/-- At `s`, command `i` completes with response `r`. -/
def State.Answers (s : State) (i : Instr) (r : Word32) : Prop :=
  ∃ t, exec i s = .next t ∧ t.fault = false ∧ t.resp = some r

/-! ### What the drawing commands paint, before transparency and clipping -/

/-- The four reflections of one step of CIRC (R212). -/
def circReflections (xm ym : Int) (p : Int × Int) : List (Int × Int) :=
  [(xm - p.1, ym + p.2), (xm - p.2, ym - p.1), (xm + p.1, ym - p.2), (xm + p.2, ym + p.1)]

/-- The points CIRC tries to write (R212). -/
def circOutline (xm ym r : Int) : List (Int × Int) :=
  if r < 0 then []
  else if r = 0 then [(xm, ym)]
  else if r = 1 then [(xm, ym - 1), (xm - 1, ym), (xm + 1, ym), (xm, ym + 1)]
  else (circlePoints r).flatMap (circReflections xm ym)

/-- The pixels of CIRCFILL before clipping (R213). -/
def circDisc (xm ym r a b : Int) : Prop :=
  if r < 0 then False
  else if r = 0 then a = xm ∧ b = ym
  else if r = 1 then (a, b) ∈ [(xm, ym - 1), (xm - 1, ym), (xm, ym), (xm + 1, ym), (xm, ym + 1)]
  else ∃ p ∈ circlePoints r, (b = ym + p.2 ∨ b = ym - p.2) ∧
    min (xm + p.1) (xm - p.1) ≤ a ∧ a ≤ max (xm + p.1) (xm - p.1)

/-- The source coordinate of column (or row) `a` of the fixed blit on one axis: the clipped window, mirrored inside
itself when flipped (R183). -/
def windowSrc (flip : Bool) (dest src len lo hi a : Int) : Int :=
  src + (max dest lo - dest) + (if flip then min (dest + len) hi - 1 - a else a - max dest lo)

/-- The source colour the fixed blit looks at for destination pixel `(a, b)` (R183). -/
def State.blitColour (s : State) (scrX scrY sprX sprY w h : Int) (fx fy : Bool) (a b : Int) : Nibble :=
  s.src (windowSrc fx scrX sprX w s.g.clipX1 s.g.clipX2 a) (windowSrc fy scrY sprY h s.g.clipY1 s.g.clipY2 b)

/-- The source colour the scaled blit looks at for destination pixel `(a, b)` (R186). -/
def State.stretchColour (s : State) (sprX sprY sprW sprH scrX scrY scrW scrH : Int) (fx fy : Bool) (a b : Int) :
    Nibble :=
  s.src (scaledSrc sprX sprW scrW (flipped fx scrW (a - scrX))) (scaledSrc sprY sprH scrH (flipped fy scrH (b - scrY)))

/-- The map cell under column `i`, row `j` of a block (R240). -/
def State.blockCell (s : State) (celX celY i j : Int) : Byte := s.mapCell (mapIndex (celX + i) (celY + j))

/-- The source colour MAP looks at for destination pixel `(a, b)`: the pixel of the sprite of the cell it falls in. -/
def State.mapColour (s : State) (celX celY px py a b : Int) : Nibble :=
  s.src (spriteX (s.blockCell celX celY ((a - px) / 8) ((b - py) / 8)) + (a - px) % 8)
    (spriteY (s.blockCell celX celY ((a - px) / 8) ((b - py) / 8)) + (b - py) % 8)

/-- Whether MAP draws the cell at column `i`, row `j` of its block (R240). -/
def State.blockDrawn (s : State) (celX celY : Int) (layer : Byte) (i j : Int) : Prop :=
  cellDrawn (s.blockCell celX celY i j) (s.byte .flags (s.blockCell celX celY i j).toNat) layer = true

end Sys2Proof.Machine
end

