-- ==== Sys2Proof/Certificates/Slice0/Obligations.lean ====
section
/-! DEFINITION. The statements about the block. Where a statement says `Completes`, the fields `resp`, `ci`, `input`
and `epoch` are how the model holds the response port, the sequencing index, what the host presents and the number of
resets (log entries 2, 3, 1 and 8); every statement about a command starts from a clear latch, since a latched block
executes none (60_exceptions.md R264), and a drawing command from a legal clip rectangle (10_state.md R49 (b)), which
`StepKeepsInvariant` and `ResetMeetsInvariant` give. -/

open Sys2Proof Sys2Proof.Machine

/-! ### Packets -/

/-- When the words presented, up to the next reset or the end of the stream, decode to a command, the step consumes its
packet and is the command's own execution (30_encoding.md R100; the stream is log entry 1). -/
def Obligations.StepRunsTheDecodedCommand : Prop :=
  ∀ (s : State) (ws rest : List Word) (i : Instr) (es : List HostEvent),
    decode ws = .ok (i, rest) → (es = [] ∨ ∃ es', es = .reset :: es') → s.input = presentWords ws ++ es →
      step s = exec i { s with input := presentWords rest ++ es }

/-- Decoding the packet of any command gives the command back, every operand whole, and leaves what follows it
(30_encoding.md R102, R103, R105, R107). -/
def Obligations.DecodeOfEncode : Prop :=
  ∀ (i : Instr) (rest : List Word), decode (encode i ++ rest) = .ok (i, rest)

/-- No two packets mean the same command: what decodes to a command is that command's packet (30_encoding.md R102,
R103, R107). -/
def Obligations.EncodeOfDecode : Prop :=
  ∀ (ws : List Word) (i : Instr) (rest : List Word), decode ws = .ok (i, rest) → ws = encode i ++ rest

/-- The decoder accepts a stream exactly when it begins with a packet that is not reserved (30_encoding.md R108,
R109). -/
def Obligations.DecodeAcceptsWellFormedPackets : Prop :=
  ∀ ws : List Word,
    (∃ i rest, decode ws = .ok (i, rest)) ↔ ∃ p rest, ws = p ++ rest ∧ Packet.wellFormed p = true

/-- The step refuses a reserved packet by name: (a) an opcode outside the map, (b) a modifier bit the opcode does not
allow, (c) a packet that ends before its length (30_encoding.md R108, R102, R103). The names and the order of the
reasons, the refusal also while the latch is set, and that a stream whose rest may still arrive counts as short are the
model's (log entry 7). -/
def Obligations.ReservedPacketsAreRefused : Prop :=
  (∀ (s : State) (h : Word) (es : List HostEvent), s.input = .word h :: es →
      (reservedOpcode (h.toNat / 256) → step s = .refused (.unknownOpcode h)) ∧
      (¬ reservedOpcode (h.toNat / 256) →
        (∃ bit, bit < 8 ∧ h.getLsbD bit = true ∧ ¬ modifierAllowed (h.toNat / 256) bit) →
          step s = .refused (.reservedModifier h))) ∧
    (∀ (s : State) (i : Instr) (k : Nat), 0 < k → k < (encode i).length →
      s.input = presentWords ((encode i).take k) → step s = .refused (.shortPacket ((encode i).headD 0)))

/-- Packets written out from the tables of 30_encoding.md R102 and R107, the first two from R111. -/
def Obligations.DecodeOfWordsOfTheSpec : Prop :=
  decode [0x2201, 0x000F, 0x000F, 0x0002] = .ok (.pset 15 15 (some 2), []) ∧
  decode [0x2200, 0x000F, 0x000F] = .ok (.pset 15 15 none, []) ∧
  decode [0x0108, 0x2000] = .ok (.rd8 true 0x2000, []) ∧
  decode [0x1310, 0x0003] = .ok (.palt true 3, []) ∧
  decode [0x3710, 0x0011, 0x0001] = .ok (.fsetb true 17 1, []) ∧
  decode [0x4102, 1, 10, 10, 1, 1] = .ok (.spr true false 1 10 10 1 1, []) ∧
  decode [0x4204, 0, 0, 2, 2, 20, 20, 4, 4] = .ok (.sspr false true 0 0 2 2 20 20 4 4, []) ∧
  decode [0x7F00, 0x2000, 0x00FF] = .ok (.gpoke 0x2000 0xFF, [])

/-! ### Reset and the step -/

/-- What reset leaves (10_state.md R51). That a byte of a bulk store reads as a constant without a body is the model's
form of "unspecified" (log entry 4), as are `Config.resetFg` and `Config.resetBg` of the open parameters (log
entry 5). -/
def Obligations.ResetValues : Prop :=
  (State.reset.g.fg = Config.resetFg ∧ State.reset.g.bg = Config.resetBg ∧ State.reset.g.pattern = 0) ∧
  (State.reset.g.clipX1 = 0 ∧ State.reset.g.clipY1 = 0 ∧ State.reset.g.clipX2 = 128 ∧ State.reset.g.clipY2 = 128) ∧
  (State.reset.g.cameraX = 0 ∧ State.reset.g.cameraY = 0 ∧ State.reset.g.sheetSel = false) ∧
  (∀ c, State.reset.g.palette c = c) ∧ (∀ c, State.reset.g.isTransparent c = true ↔ c = 0) ∧
  State.reset.fault = false ∧ State.reset.GuardsHold ∧
  (∀ S i, S ≠ .g1 → S ≠ .g2 → State.reset.byte S i = Config.unspecifiedByte 0 S i)

/-- The invariant holds at reset (10_state.md R26, R51). -/
def Obligations.ResetMeetsInvariant : Prop := State.reset.Inv

/-- Every step keeps a legal clip rectangle and the canonical form of every store, whatever is presented
(10_state.md R49 (b); the canonical form is the model's). -/
def Obligations.StepKeepsInvariant : Prop :=
  ∀ s t : State, s.Inv → step s = .next t → t.Inv

/-- Reset, between packets or in the middle of one, also with the latch set: every field of `G` at its reset value, the
latch clear, the guards at their pattern, `ci` at 0 (70_reset_and_hazards.md R280, 60_exceptions.md R265). That the
words of a packet cut short are dropped is the model's choice (log entry 8). -/
def Obligations.ResetEvent : Prop :=
  ∀ (s : State) (i : Instr) (k : Nat) (es : List HostEvent), k < (encode i).length →
    s.input = presentWords ((encode i).take k) ++ .reset :: es →
      ∃ t, step s = .next t ∧ t.g = State.reset.g ∧ t.fault = false ∧ t.GuardsHold ∧ t.stores.wf ∧ t.ci = 0 ∧
        t.input = es

/-- With nothing presented the block holds its state (60_exceptions.md R272; that a step is then possible is the
model's choice, log entry 1). -/
def Obligations.IdleStepHoldsTheState : Prop := ∀ s : State, s.input = [] → step s = .next s

/-! ### Completion and the fault -/

/-- Every command completes, whatever its operands: the latch stays clear, the index goes up by exactly 1, a response is
returned, and it is 0 unless the command is one of the ten with a result. The one condition is on CHECK and GETBUF: the
guards hold (30_encoding.md R106, R109, R110, 60_exceptions.md R261). -/
def Obligations.EveryCommandCompletes : Prop :=
  ∀ (i : Instr) (s : State), s.fault = false → ((i = .check ∨ i = .getbuf) → s.GuardsHold) →
    ∃ t r, exec i s = .next t ∧ t.fault = false ∧ t.input = s.input ∧ t.epoch = s.epoch ∧ t.ci = s.ci + 1 ∧
      t.resp = some r ∧ (hasResult i = false → r = 0)

/-- With intact guards GETBUF answers 128 in both halves and CHECK answers 1, and neither changes anything else: "no
corruption must never trigger a false positive" (45_integrity.md R250, R251, R253). -/
def Obligations.IntactGuardsPassTheCheck : Prop :=
  ∀ s : State, s.fault = false → s.GuardsHold →
    encode .getbuf = [0x7000] ∧ encode .check = [0x7100] ∧
    exec .getbuf s = .next { s with resp := some 0x00800080, ci := s.ci + 1 } ∧
    exec .check s = .next { s with resp := some 1, ci := s.ci + 1 }

/-- With one differing guard byte CHECK and GETBUF raise IntegrityFault: the latch is set, nothing else is written, no
response is returned, `ci` stops (60_exceptions.md R260, R264, 45_integrity.md R253). -/
def Obligations.ADifferingGuardByteRaises : Prop :=
  ∀ (s : State) (i : Nat), s.fault = false → i < 8192 →
    (s.byte .g1 i ≠ BitVec.ofNat 8 i ∨ s.byte .g2 i ≠ BitVec.ofNat 8 i) →
      exec .getbuf s = .next { s with fault := true, resp := none } ∧
      exec .check s = .next { s with fault := true, resp := none }

/-- GPOKE writes the one guard byte its index names, or nothing from 16384 on (45_integrity.md R252). -/
def Obligations.GpokeResult : Prop :=
  ∀ (s : State) (idx v : Word), s.fault = false →
    encode (.gpoke idx v) = [0x7F00, idx, v] ∧
    ∃ t, exec (.gpoke idx v) s = .next t ∧ s.Completes t s.g 0 ∧
      (idx.toNat ≤ 8191 → t.byte .g1 idx.toNat = v.extractLsb' 0 8 ∧
        s.KeepsBytes t (fun S k => S = .g1 ∧ k = idx.toNat)) ∧
      (8192 ≤ idx.toNat ∧ idx.toNat ≤ 16383 → t.byte .g2 (idx.toNat - 8192) = v.extractLsb' 0 8 ∧
        s.KeepsBytes t (fun S k => S = .g2 ∧ k = idx.toNat - 8192)) ∧
      (16384 ≤ idx.toNat → t.stores = s.stores)

/-- "Corrupting one byte ... must be detected": from intact guards, GPOKE of a value other than the expected one makes
the next CHECK and the next GETBUF set the latch, and GPOKE of the expected value leaves the guards intact
(45_integrity.md R252, R253). -/
def Obligations.OneCorruptedByteIsDetected : Prop :=
  ∀ (s : State) (idx v : Word), s.fault = false → s.GuardsHold → idx.toNat ≤ 16383 →
    ∃ t, exec (.gpoke idx v) s = .next t ∧
      (v.extractLsb' 0 8 ≠ idx.extractLsb' 0 8 →
        exec .check t = .next { t with fault := true, resp := none } ∧
        exec .getbuf t = .next { t with fault := true, resp := none }) ∧
      (v.extractLsb' 0 8 = idx.extractLsb' 0 8 → t.GuardsHold)

/-- Only GPOKE writes a guard byte (10_state.md R46). -/
def Obligations.OnlyGpokeWritesTheGuards : Prop :=
  ∀ (i : Instr) (s t : State) (k : Nat), (∀ idx v, i ≠ .gpoke idx v) → exec i s = .next t →
    t.byte .g1 k = s.byte .g1 k ∧ t.byte .g2 k = s.byte .g2 k

/-- The latch is set by GETBUF and CHECK exactly when some guard byte differs and by no other command; then nothing else
is written and no response is returned (60_exceptions.md R260, 10_state.md R32). -/
def Obligations.LatchSetOnlyByAFailedCheck : Prop :=
  ∀ (i : Instr) (s t : State), s.fault = false → exec i s = .next t →
    (t.fault = true ↔ (i = .check ∨ i = .getbuf) ∧ ¬ s.GuardsHold) ∧
      (t.fault = true → t = { s with fault := true, resp := none })

/-- Invariant of the machine without its test port: intact guards and a clear latch are kept by every step that does not
execute GPOKE, so no command list without GPOKE faults (10_state.md R49 (d), 45_integrity.md R252). -/
def Obligations.WithoutGpokeNoStepFaults : Prop :=
  ∀ s t : State, s.GuardsHold → s.fault = false →
    (∀ idx v rest, decode (fetchWords s.input).1 ≠ .ok (.gpoke idx v, rest)) → step s = .next t →
      t.GuardsHold ∧ t.fault = false

/-- While the latch is set every command's packet is consumed and ignored: no state changes, no response is returned,
`ci` stops (60_exceptions.md R264). -/
def Obligations.FaultedBlockIgnoresEveryCommand : Prop :=
  ∀ (i : Instr) (s : State) (es : List HostEvent), s.fault = true → s.input = presentWords (encode i) ++ es →
    exec i s = .next { s with resp := none } ∧ step s = .next { s with resp := none, input := es }

/-- The faulted block is stuck until reset: a step leaves the latch, the graphics state, the stores and `ci` as they
were and answers nothing, or it is the reset that the host presents (60_exceptions.md R264, R265). Reset as a presented
event that drops the words before it and raises the epoch is the model's choice (log entry 8), as are the response port
(log entry 2) and the idle step (log entry 1). -/
def Obligations.FaultedUntilReset : Prop :=
  ∀ s t : State, s.fault = true → step s = .next t →
    (t.fault = true ∧ t.g = s.g ∧ t.stores = s.stores ∧ t.ci = s.ci ∧ t.epoch = s.epoch ∧
      (s.input ≠ [] → t.resp = none)) ∨
    (∃ es, (fetchWords s.input).2 = .reset :: es ∧ t = s.applyReset es)

/-! ### Elements and the address space -/

/-- The element codec of the packed stores: which nibble a read takes, what a write makes of the byte, the other nibble
and every other byte untouched (10_state.md R40, R41). -/
def Obligations.ElementReadAndWrite : Prop :=
  ∀ (s : State) (S : Store) (e : Nat) (v : Nibble),
    s.nib S e = (s.byte S (e / 2) >>> (4 * (e % 2))).setWidth 4 ∧
    (s.setNib S e v).byte S (e / 2) =
      (if e % 2 = 0 then (s.byte S (e / 2) &&& 0xF0) ||| v.setWidth 8
       else (s.byte S (e / 2) &&& 0x0F) ||| (v.setWidth 8 <<< 4)) ∧
    s.KeepsBytes (s.setNib S e v) (fun T k => T = S ∧ k = e / 2) ∧
    (s.setNib S e v).nib S e = v ∧ (s.setNib S e v).nib S (e ^^^ 1) = s.nib S (e ^^^ 1)

/-- Within one half of the routing table no two rows contain the same address, and the halves route alike outside
0x2000..0x3FFF (20_memory.md R71, R63). -/
def Obligations.RoutingTableRowsDoNotOverlap : Prop :=
  (∀ v, (routingTable v).Pairwise (fun r q => ∀ a, ¬ (r.holds a = true ∧ q.holds a = true))) ∧
  (∀ a : Word, ¬ (0x2000 ≤ a.toNat ∧ a.toNat ≤ 0x3FFF) → route true a = route false a)

/-- RD8: one element of a nibble row, the byte of a linear row, 0 at an unmapped address; nothing changes (R130, R66,
R68). -/
def Obligations.Rd8Result : Prop :=
  ∀ (s : State) (v : Bool) (a : Word), s.fault = false →
    encode (.rd8 v a) = [if v then 0x0108 else 0x0100, a] ∧
    exec (.rd8 v a) s = .next
      { s with
        resp := some (match addressTarget v a.toNat with
          | some (.nibble, S, e) => (s.nib S e).setWidth 32
          | some (.linear, S, k) => (s.byte S k).setWidth 32
          | none => 0)
        ci := s.ci + 1 }

/-- WR8: the low nibble into one element of a nibble row, its other nibble untouched; the byte into a linear row; nothing
at an unmapped address (R131, R67, R68). -/
def Obligations.Wr8Result : Prop :=
  ∀ (s : State) (v : Bool) (a d : Word), s.fault = false →
    encode (.wr8 v a d) = [if v then 0x0208 else 0x0200, a, d] ∧
    ∃ t, exec (.wr8 v a d) s = .next t ∧ s.Completes t s.g 0 ∧
      s.KeepsBytes t (fun S k => addressByte v a.toNat = some (S, k)) ∧
      (match addressTarget v a.toNat with
       | some (.nibble, S, e) => t.nib S e = d.extractLsb' 0 4 ∧ t.nib S (e ^^^ 1) = s.nib S (e ^^^ 1)
       | some (.linear, S, k) => t.byte S k = d.extractLsb' 0 8
       | none => t.stores = s.stores)

/-- The property of 20_memory.md R67: in a nibble-packed region a byte written reads back as its low nibble, and the
paired address reads as before. -/
def Obligations.NibbleWriteThenRead : Prop :=
  ∀ (s : State) (v : Bool) (a d : Word) (S : Store) (e : Nat) (r : Word32), s.fault = false →
    addressTarget v a.toNat = some (.nibble, S, e) → s.Answers (.rd8 v (a ^^^ 1)) r →
      ∃ t, exec (.wr8 v a d) s = .next t ∧ t.Answers (.rd8 v a) ((d.extractLsb' 0 4).setWidth 32) ∧
        t.Answers (.rd8 v (a ^^^ 1)) r

/-- RD32: each byte of the response is what RD8 answers at the next address, modulo 65536, the lowest address least
significant; nothing changes (R132, R74). -/
def Obligations.Rd32Result : Prop :=
  ∀ (s : State) (v : Bool) (a : Word), s.fault = false →
    encode (.rd32 v a) = [if v then 0x0308 else 0x0300, a] ∧
    ∃ r : Word32, exec (.rd32 v a) s = .next { s with resp := some r, ci := s.ci + 1 } ∧
      ∀ k, k < 4 → s.Answers (.rd8 v (a + BitVec.ofNat 16 k)) ((r.extractLsb' (8 * k) 8).setWidth 32)

/-- WR32: the stores end as after four WR8 of the data's bytes at ascending addresses modulo 65536, least significant
first; no byte outside the four addresses' changes (R133, R75). -/
def Obligations.Wr32Result : Prop :=
  ∀ (s : State) (v : Bool) (a lo hi : Word), s.fault = false →
    encode (.wr32 v a lo hi) = [if v then 0x0408 else 0x0400, a, lo, hi] ∧
    ∃ t1 t2 t3 t4 t,
      exec (.wr8 v a ((lo.extractLsb' 0 8).setWidth 16)) s = .next t1 ∧
      exec (.wr8 v (a + 1) ((lo.extractLsb' 8 8).setWidth 16)) t1 = .next t2 ∧
      exec (.wr8 v (a + 2) ((hi.extractLsb' 0 8).setWidth 16)) t2 = .next t3 ∧
      exec (.wr8 v (a + 3) ((hi.extractLsb' 8 8).setWidth 16)) t3 = .next t4 ∧
      exec (.wr32 v a lo hi) s = .next t ∧ t.stores = t4.stores ∧ s.Completes t s.g 0 ∧
      s.KeepsBytes t (fun S i => ∃ k, k < 4 ∧ addressByte v (a + BitVec.ofNat 16 k).toNat = some (S, i))

/-- LOADB: in a nibble row two WR8, the low nibble at the lower address, and the address two on; elsewhere one WR8 and
the address one on; at an even address of a nibble row the packed byte is stored unchanged (R138). -/
def Obligations.LoadbResult : Prop :=
  ∀ (s : State) (v : Bool) (a d : Word), s.fault = false →
    encode (.loadb v a d) = [if v then 0x0508 else 0x0500, a, d] ∧
    ∃ t, exec (.loadb v a d) s = .next t ∧
      (match addressTarget v a.toNat with
       | some (.nibble, _, _) =>
         s.Completes t s.g ((a + 2).setWidth 32) ∧
         s.KeepsBytes t (fun S i => addressByte v a.toNat = some (S, i) ∨ addressByte v (a + 1).toNat = some (S, i)) ∧
         ∃ t1 t2, exec (.wr8 v a ((d.extractLsb' 0 4).setWidth 16)) s = .next t1 ∧
           exec (.wr8 v (a + 1) ((d.extractLsb' 4 4).setWidth 16)) t1 = .next t2 ∧ t.stores = t2.stores
       | _ =>
         s.Completes t s.g ((a + 1).setWidth 32) ∧
         s.KeepsBytes t (fun S i => addressByte v a.toNat = some (S, i)) ∧
         ∃ t1, exec (.wr8 v a d) s = .next t1 ∧ t.stores = t1.stores) ∧
      (∀ S e, a.toNat % 2 = 0 → addressTarget v a.toNat = some (.nibble, S, e) →
        t.byte S (e / 2) = d.extractLsb' 0 8 ∧ s.KeepsBytes t (fun T k => T = S ∧ k = e / 2))

/-- The dual-mapped region (20_memory.md R69): a write through one view is seen through the other, on the address-space
path and on the drawing path, for every byte of `SHARED`; an even address or column of the pixel view is bits 3:0 of
the byte and an odd one bits 7:4, the other four bits unchanged (R64). -/
def Obligations.DualMappedViewsAlias : Prop :=
  ∀ (s : State) (d : Word) (k : Nat), s.fault = false → k < 4096 →
    (∃ t, exec (.wr8 true (BitVec.ofNat 16 (0x2000 + k)) d) s = .next t ∧
      t.Answers (.rd8 false (BitVec.ofNat 16 (0x2000 + 2 * k))) ((d.extractLsb' 0 4).setWidth 32) ∧
      t.Answers (.rd8 false (BitVec.ofNat 16 (0x2000 + 2 * k + 1))) ((d.extractLsb' 4 4).setWidth 32)) ∧
    (∃ t, exec (.wr8 false (BitVec.ofNat 16 (0x2000 + 2 * k)) d) s = .next t ∧
      t.Answers (.rd8 true (BitVec.ofNat 16 (0x2000 + k)))
        (((s.byte .shared k &&& 0xF0) ||| (d.extractLsb' 0 4).setWidth 8).setWidth 32)) ∧
    (∃ t, exec (.wr8 false (BitVec.ofNat 16 (0x2000 + 2 * k + 1)) d) s = .next t ∧
      t.Answers (.rd8 true (BitVec.ofNat 16 (0x2000 + k)))
        (((s.byte .shared k &&& 0x0F) ||| ((d.extractLsb' 0 4).setWidth 8 <<< 4)).setWidth 32)) ∧
    (s.g.sheetSel = false →
      (∃ t, exec (.mset (BitVec.ofNat 16 (k % 128)) (BitVec.ofNat 16 (32 + k / 128)) d) s = .next t ∧
        t.Answers (.sget (BitVec.ofNat 16 (2 * (k % 64))) (BitVec.ofNat 16 (64 + k / 64)))
          ((d.extractLsb' 0 4).setWidth 32) ∧
        t.Answers (.sget (BitVec.ofNat 16 (2 * (k % 64) + 1)) (BitVec.ofNat 16 (64 + k / 64)))
          ((d.extractLsb' 4 4).setWidth 32)) ∧
      (∃ t, exec (.sset (BitVec.ofNat 16 (2 * (k % 64))) (BitVec.ofNat 16 (64 + k / 64)) none) s = .next t ∧
        t.Answers (.mget (BitVec.ofNat 16 (k % 128)) (BitVec.ofNat 16 (32 + k / 128)))
          (((s.byte .shared k &&& 0xF0) ||| s.g.fg.setWidth 8).setWidth 32)) ∧
      (∃ t, exec (.sset (BitVec.ofNat 16 (2 * (k % 64) + 1)) (BitVec.ofNat 16 (64 + k / 64)) none) s = .next t ∧
        t.Answers (.mget (BitVec.ofNat 16 (k % 128)) (BitVec.ofNat 16 (32 + k / 128)))
          (((s.byte .shared k &&& 0x0F) ||| (s.g.fg.setWidth 8 <<< 4)).setWidth 32)))

/-- Two paths, one store: the address of a grid cell answers what the drawing path's query of the cell answers
(20_memory.md R70, R61). The camera hypothesis says that the operands name pixel `(x, y)` (41_graphics_state.md
R150). -/
def Obligations.GridCellsByAddress : Prop :=
  ∀ (s : State) (x y : Nat), s.fault = false → x < 128 → y < 128 →
    (∀ wx wy : Word, wx.toInt - s.g.cameraX.toInt = x → wy.toInt - s.g.cameraY.toInt = y →
      ∃ r, s.Answers (.rd8 false (BitVec.ofNat 16 (0x6000 + y * 128 + x))) r ∧ s.Answers (.pget wx wy) r) ∧
    (s.g.sheetSel = false → ∃ r,
      s.Answers (.rd8 false (BitVec.ofNat 16 (if y ≤ 63 then y * 128 + x else 0x2000 + (y - 64) * 128 + x))) r ∧
        s.Answers (.sget (BitVec.ofNat 16 x) (BitVec.ofNat 16 y)) r) ∧
    (s.g.sheetSel = true → ∃ r, s.Answers (.rd8 false (BitVec.ofNat 16 (0xA000 + y * 128 + x))) r ∧
        s.Answers (.sget (BitVec.ofNat 16 x) (BitVec.ofNat 16 y)) r) ∧
    (y ≤ 31 → ∃ r, s.Answers (.rd8 false (BitVec.ofNat 16 (0x4000 + y * 128 + x))) r ∧
        s.Answers (.mget (BitVec.ofNat 16 x) (BitVec.ofNat 16 y)) r) ∧
    (32 ≤ y → y ≤ 63 → ∃ r, s.Answers (.rd8 true (BitVec.ofNat 16 (0x2000 + (y - 32) * 128 + x))) r ∧
        s.Answers (.mget (BitVec.ofNat 16 x) (BitVec.ofNat 16 y)) r) ∧
    (∀ n : Nat, n < 256 → ∃ r, s.Answers (.rd8 false (BitVec.ofNat 16 (0x5000 + n))) r ∧
        s.Answers (.fget (BitVec.ofNat 16 n)) r)

/-! ### The graphics state -/

/-- COLOR overwrites both `fg` and `bg` from the colour byte, the high byte of the word ignored (R152, R151). -/
def Obligations.ColorResult : Prop :=
  ∀ (s : State) (c : Word), s.fault = false →
    encode (.color c) = [0x1000, c] ∧
    exec (.color c) s = .next
      { s with g := { s.g with fg := c.extractLsb' 0 4, bg := c.extractLsb' 4 4 }, resp := some 0, ci := s.ci + 1 }

/-- PAL sets one palette entry; PALRST makes the palette the identity and, with it, colour 0 alone transparent (R153,
R154). -/
def Obligations.PaletteResult : Prop :=
  ∀ (s : State) (c0 c1 : Word), s.fault = false →
    encode (.pal c0 c1) = [0x1100, c0, c1] ∧ encode .palrst = [0x1200] ∧
    (∃ t, exec (.pal c0 c1) s = .next t ∧
      (∀ c, t.g.palette c = if c = c0.extractLsb' 0 4 then c1.extractLsb' 0 4 else s.g.palette c) ∧
      t = { s with g := { s.g with paletteMap := t.g.paletteMap }, resp := some 0, ci := s.ci + 1 }) ∧
    (∃ t, exec .palrst s = .next t ∧ (∀ c, t.g.palette c = c) ∧ (∀ c, t.g.isTransparent c = true ↔ c = 0) ∧
      t = { s with g := { s.g with paletteMap := t.g.paletteMap, transparent := t.g.transparent }
                   resp := some 0, ci := s.ci + 1 })

/-- PALT sets one transparency entry to `T`; PALTRST makes colour 0 alone transparent; neither touches the palette
(R155, R156). -/
def Obligations.TransparencyResult : Prop :=
  ∀ (s : State) (b : Bool) (w : Word), s.fault = false →
    encode (.palt b w) = [if b then 0x1310 else 0x1300, w] ∧ encode .paltrst = [0x1400] ∧
    (∃ t, exec (.palt b w) s = .next t ∧
      (∀ c, t.g.isTransparent c = if c = w.extractLsb' 0 4 then b else s.g.isTransparent c) ∧
      t = { s with g := { s.g with transparent := t.g.transparent }, resp := some 0, ci := s.ci + 1 }) ∧
    (∃ t, exec .paltrst s = .next t ∧ (∀ c, t.g.isTransparent c = true ↔ c = 0) ∧
      t = { s with g := { s.g with transparent := t.g.transparent }, resp := some 0, ci := s.ci + 1 })

/-- CLIP clamps each field into 0..128; CLIPRST gives the full screen (R157, R158). -/
def Obligations.ClipResult : Prop :=
  ∀ (s : State) (x1 y1 x2 y2 : Word), s.fault = false →
    encode (.clip x1 y1 x2 y2) = [0x1500, x1, y1, x2, y2] ∧ encode .cliprst = [0x1600] ∧
    exec (.clip x1 y1 x2 y2) s = .next
      { s with
        g := { s.g with
          clipX1 := max 0 (min 128 x1.toInt), clipY1 := max 0 (min 128 y1.toInt)
          clipX2 := max 0 (min 128 x2.toInt), clipY2 := max 0 (min 128 y2.toInt) }
        resp := some 0, ci := s.ci + 1 } ∧
    exec .cliprst s = .next
      { s with g := { s.g with clipX1 := 0, clipY1 := 0, clipX2 := 128, clipY2 := 128 }
               resp := some 0, ci := s.ci + 1 }

/-- CAMERA, CAMRST, FILLP, FILLPRST: the camera offset and the dither pattern (R159, R160, R161, R162). -/
def Obligations.CameraAndPatternResult : Prop :=
  ∀ (s : State) (x y p : Word), s.fault = false →
    (encode (.camera x y) = [0x1700, x, y] ∧ encode .camrst = [0x1800] ∧ encode (.fillp p) = [0x1900, p] ∧
      encode .fillprst = [0x1A00]) ∧
    exec (.camera x y) s = .next
      { s with g := { s.g with cameraX := x, cameraY := y }, resp := some 0, ci := s.ci + 1 } ∧
    exec .camrst s = .next
      { s with g := { s.g with cameraX := 0, cameraY := 0 }, resp := some 0, ci := s.ci + 1 } ∧
    exec (.fillp p) s = .next { s with g := { s.g with pattern := p }, resp := some 0, ci := s.ci + 1 } ∧
    exec .fillprst s = .next { s with g := { s.g with pattern := 0 }, resp := some 0, ci := s.ci + 1 }

/-- RESTORE gives every field of `G` the value reset gives it and touches nothing else; SELSHEET sets the sheet select
(R163, R164). -/
def Obligations.RestoreAndSelsheetResult : Prop :=
  ∀ (s : State) (b : Bool), s.fault = false →
    encode .restore = [0x1B00] ∧ encode (.selsheet b) = [if b then 0x1C10 else 0x1C00] ∧
    exec .restore s = .next { s with g := State.reset.g, resp := some 0, ci := s.ci + 1 } ∧
    exec (.selsheet b) s = .next { s with g := { s.g with sheetSel := b }, resp := some 0, ci := s.ci + 1 }

/-- The dither selection: `fg` under pattern 0, `bg` under all ones, and in every case the one pattern bit of the pixel's
phase (41_graphics_state.md R165). -/
def Obligations.DitherSelection : Prop :=
  ∀ (g : Gfx) (x y : Int), 0 ≤ x → 0 ≤ y →
    (g.pattern = 0x0000 → g.sel x y = g.fg) ∧ (g.pattern = 0xFFFF → g.sel x y = g.bg) ∧
    g.sel x y = (if g.pattern.getLsbD ((3 - x.toNat % 4) + (3 - y.toNat % 4) * 4) then g.bg else g.fg)

/-! ### The rasterizer -/

/-- CLS writes the palette-mapped colour into every pixel, whatever the clip rectangle, the camera and the pattern
(R200). -/
def Obligations.ClsResult : Prop :=
  ∀ (s : State) (c : Word), s.fault = false →
    encode (.cls c) = [0x2000, c] ∧
    ∃ t, exec (.cls c) s = .next t ∧ s.Completes t s.g 0 ∧
      s.Paints t (fun _ _ => True) (fun _ _ => s.g.palette (c.extractLsb' 0 4))

/-- PGET answers the stored pixel at the camera-adjusted point, 0 off the screen; nothing changes (R201). -/
def Obligations.PgetResult : Prop :=
  ∀ (s : State) (x y : Word), s.fault = false →
    encode (.pget x y) = [0x2100, x, y] ∧
    exec (.pget x y) s = .next
      { s with
        resp := some (if onScreen (x.toInt - s.g.cameraX.toInt) (y.toInt - s.g.cameraY.toInt) then
            (s.fbPix (x.toInt - s.g.cameraX.toInt) (y.toInt - s.g.cameraY.toInt)).setWidth 32
          else 0)
        ci := s.ci + 1 }

/-- PSET: one pixel, after the camera and the clip test, through the dither selection of the colours that the optional
colour word leaves (R203, R202, R104). -/
def Obligations.PsetResult : Prop :=
  ∀ (s : State) (x y : Word) (cw : Option Word), s.fault = false → s.g.clipOk →
    encode (.pset x y cw) = [if cw.isSome then 0x2201 else 0x2200, x, y] ++ cw.toList ∧
    ∃ t, exec (.pset x y cw) s = .next t ∧ s.Completes t (s.g.colored cw) 0 ∧
      s.Paints t
        (fun a b => s.g.inClip a b ∧ a = x.toInt - s.g.cameraX.toInt ∧ b = y.toInt - s.g.cameraY.toInt)
        (s.g.colored cw).sel

/-- HLINE: the run between its ends, both inclusive and in any order, inside the clip rectangle (R205, R204). -/
def Obligations.HlineResult : Prop :=
  ∀ (s : State) (x0 x1 y : Word) (cw : Option Word), s.fault = false → s.g.clipOk →
    encode (.hline x0 x1 y cw) = [if cw.isSome then 0x2301 else 0x2300, x0, x1, y] ++ cw.toList ∧
    ∃ t, exec (.hline x0 x1 y cw) s = .next t ∧ s.Completes t (s.g.colored cw) 0 ∧
      s.Paints t
        (fun a b => s.g.inClip a b ∧ b = y.toInt - s.g.cameraY.toInt ∧
          min x0.toInt x1.toInt - s.g.cameraX.toInt ≤ a ∧ a ≤ max x0.toInt x1.toInt - s.g.cameraX.toInt)
        (s.g.colored cw).sel

/-- VLINE: the same with the axes exchanged (R207, R206). -/
def Obligations.VlineResult : Prop :=
  ∀ (s : State) (x y0 y1 : Word) (cw : Option Word), s.fault = false → s.g.clipOk →
    encode (.vline x y0 y1 cw) = [if cw.isSome then 0x2401 else 0x2400, x, y0, y1] ++ cw.toList ∧
    ∃ t, exec (.vline x y0 y1 cw) s = .next t ∧ s.Completes t (s.g.colored cw) 0 ∧
      s.Paints t
        (fun a b => s.g.inClip a b ∧ a = x.toInt - s.g.cameraX.toInt ∧
          min y0.toInt y1.toInt - s.g.cameraY.toInt ≤ b ∧ b ≤ max y0.toInt y1.toInt - s.g.cameraY.toInt)
        (s.g.colored cw).sel

/-- LINE paints the points of its walk inside the clip rectangle (R208; the walk's body is general knowledge in the spec
itself, log entry 10). -/
def Obligations.LineResult : Prop :=
  ∀ (s : State) (x0 y0 x1 y1 : Word) (cw : Option Word), s.fault = false → s.g.clipOk →
    encode (.line x0 y0 x1 y1 cw) = [if cw.isSome then 0x2501 else 0x2500, x0, y0, x1, y1] ++ cw.toList ∧
    ∃ t, exec (.line x0 y0 x1 y1 cw) s = .next t ∧ s.Completes t (s.g.colored cw) 0 ∧
      s.Paints t
        (fun a b => s.g.inClip a b ∧
          (a, b) ∈ linePoints (x0.toInt - s.g.cameraX.toInt) (y0.toInt - s.g.cameraY.toInt)
            (x1.toInt - s.g.cameraX.toInt) (y1.toInt - s.g.cameraY.toInt))
        (s.g.colored cw).sel

/-- The line walk "draws both endpoints inclusive", visits `max(dx, -dy) + 1` points, advances by one along the longer
axis and by at most one along the other each time, and takes R208's choice at every point: after `i` steps in x and `j`
in y the error term is `dx * (1 + j) + dy * (1 + i)`, x steps exactly when `dy <= 2 * err`, y exactly when
`2 * err <= dx` (R208, 93_implementation_defined.md G2; log entries 10 and 11). -/
def Obligations.LineWalkReachesBothEnds : Prop :=
  ∀ x0 y0 x1 y1 : Int,
    let dx := |x1 - x0|
    let dy := -|y1 - y0|
    (linePoints x0 y0 x1 y1).head? = some (x0, y0) ∧ (linePoints x0 y0 x1 y1).getLast? = some (x1, y1) ∧
    ((linePoints x0 y0 x1 y1).length : Int) = max dx (-dy) + 1 ∧
    ∀ (k : Nat) (p q : Int × Int), (linePoints x0 y0 x1 y1)[k]? = some p → (linePoints x0 y0 x1 y1)[k + 1]? = some q →
      let err := dx * (1 + |p.2 - y0|) + dy * (1 + |p.1 - x0|)
      (if -dy ≤ dx then |q.1 - p.1| = 1 ∧ |q.2 - p.2| ≤ 1 else |q.1 - p.1| ≤ 1 ∧ |q.2 - p.2| = 1) ∧
        q = (if dy ≤ 2 * err then p.1 + (if x0 < x1 then 1 else -1) else p.1,
          if 2 * err ≤ dx then p.2 + (if y0 < y1 then 1 else -1) else p.2)

/-- RECT: the outline of the corners' rectangle, corners inclusive and in any order, inside the clip rectangle
(R209). -/
def Obligations.RectResult : Prop :=
  ∀ (s : State) (x0 y0 x1 y1 : Word) (cw : Option Word), s.fault = false → s.g.clipOk →
    encode (.rect x0 y0 x1 y1 cw) = [if cw.isSome then 0x2601 else 0x2600, x0, y0, x1, y1] ++ cw.toList ∧
    ∃ t, exec (.rect x0 y0 x1 y1 cw) s = .next t ∧ s.Completes t (s.g.colored cw) 0 ∧
      s.Paints t
        (fun a b => s.g.inClip a b ∧
          (min x0.toInt x1.toInt - s.g.cameraX.toInt ≤ a ∧ a ≤ max x0.toInt x1.toInt - s.g.cameraX.toInt) ∧
          (min y0.toInt y1.toInt - s.g.cameraY.toInt ≤ b ∧ b ≤ max y0.toInt y1.toInt - s.g.cameraY.toInt) ∧
          ((a = x0.toInt - s.g.cameraX.toInt ∨ a = x1.toInt - s.g.cameraX.toInt) ∨
            (b = y0.toInt - s.g.cameraY.toInt ∨ b = y1.toInt - s.g.cameraY.toInt)))
        (s.g.colored cw).sel

/-- RECTFILL: all of the corners' rectangle inside the clip rectangle (R210). -/
def Obligations.RectfillResult : Prop :=
  ∀ (s : State) (x0 y0 x1 y1 : Word) (cw : Option Word), s.fault = false → s.g.clipOk →
    encode (.rectfill x0 y0 x1 y1 cw) = [if cw.isSome then 0x2701 else 0x2700, x0, y0, x1, y1] ++ cw.toList ∧
    ∃ t, exec (.rectfill x0 y0 x1 y1 cw) s = .next t ∧ s.Completes t (s.g.colored cw) 0 ∧
      s.Paints t
        (fun a b => s.g.inClip a b ∧
          (min x0.toInt x1.toInt - s.g.cameraX.toInt ≤ a ∧ a ≤ max x0.toInt x1.toInt - s.g.cameraX.toInt) ∧
          (min y0.toInt y1.toInt - s.g.cameraY.toInt ≤ b ∧ b ≤ max y0.toInt y1.toInt - s.g.cameraY.toInt))
        (s.g.colored cw).sel

/-- CIRC: nothing below radius 0, one pixel at 0, four at 1, the reflections of the walk's points from 2 on, inside the
clip rectangle (R212; the walk is log entry 10). -/
def Obligations.CircResult : Prop :=
  ∀ (s : State) (x y r : Word) (cw : Option Word), s.fault = false → s.g.clipOk →
    encode (.circ x y r cw) = [if cw.isSome then 0x2801 else 0x2800, x, y, r] ++ cw.toList ∧
    ∃ t, exec (.circ x y r cw) s = .next t ∧ s.Completes t (s.g.colored cw) 0 ∧
      s.Paints t
        (fun a b => s.g.inClip a b ∧
          (a, b) ∈ circOutline (x.toInt - s.g.cameraX.toInt) (y.toInt - s.g.cameraY.toInt) r.toInt)
        (s.g.colored cw).sel

/-- CIRCFILL: nothing below radius 0, one pixel at 0, the five-pixel diamond at 1, the pairs of spans of the walk's points
from 2 on, inside the clip rectangle (R213; the walk is log entry 10). -/
def Obligations.CircfillResult : Prop :=
  ∀ (s : State) (x y r : Word) (cw : Option Word), s.fault = false → s.g.clipOk →
    encode (.circfill x y r cw) = [if cw.isSome then 0x2901 else 0x2900, x, y, r] ++ cw.toList ∧
    ∃ t, exec (.circfill x y r cw) s = .next t ∧ s.Completes t (s.g.colored cw) 0 ∧
      s.Paints t
        (fun a b => s.g.inClip a b ∧
          circDisc (x.toInt - s.g.cameraX.toInt) (y.toInt - s.g.cameraY.toInt) r.toInt a b)
        (s.g.colored cw).sel

/-- The circle walk starts at `(-r, 0)`, takes R211's step from every point, stays in its quadrant within the radius, and
ends by itself, at the first step that reaches `x >= 0`, within `2r` points: allowing it more changes nothing. At a point
`(x, y)` the error term is `(x + 1)^2 + (y + 1)^2 - r^2`; x steps exactly when it is above `x`, y exactly when it is at
most `y` (R211, 70_reset_and_hazards.md R294; log entries 10 and 11). -/
def Obligations.CircleWalkEndsInItsQuadrant : Prop :=
  ∀ r : Int, 2 ≤ r →
    let err := fun p : Int × Int => (p.1 + 1) ^ 2 + (p.2 + 1) ^ 2 - r ^ 2
    let stepX := fun p : Int × Int => p.1 + (if p.1 < err p then 1 else 0)
    let stepY := fun p : Int × Int => p.2 + (if err p ≤ p.2 then 1 else 0)
    (circlePoints r).head? = some (-r, 0) ∧
    (∀ (k : Nat) (p q : Int × Int), (circlePoints r)[k]? = some p → (circlePoints r)[k + 1]? = some q →
      q = (stepX p, stepY p)) ∧
    (∃ p, (circlePoints r).getLast? = some p ∧ 0 ≤ stepX p) ∧
    (∀ p ∈ circlePoints r, (-r ≤ p.1 ∧ p.1 < 0) ∧ (0 ≤ p.2 ∧ p.2 ≤ r)) ∧
    ((circlePoints r).length : Int) ≤ 2 * r ∧
    (∀ n : Nat, circleWalk ((2 * r).toNat + n) (-r) 0 (2 - 2 * r) = circlePoints r)

/-- No primitive but CLS and no blit writes outside the clip rectangle or outside the framebuffer; what a primitive
writes is `fg` or `bg`, what a blit writes is a palette entry (43_primitives.md R214, 42_blit.md R188 (a)). -/
def Obligations.DrawingStaysInsideTheClipRectangle : Prop :=
  ∀ (i : Instr) (s t : State), s.g.clipOk → (isPrimitive i = true ∨ isBlit i = true) → exec i s = .next t →
    (∀ x y, onScreen x y → ¬ s.g.inClip x y → t.fbPix x y = s.fbPix x y) ∧
    (∀ S k, S ≠ .fb → t.byte S k = s.byte S k) ∧
    (∀ x y, onScreen x y → t.fbPix x y = s.fbPix x y ∨
      (isPrimitive i = true ∧ (t.fbPix x y = t.g.fg ∨ t.fbPix x y = t.g.bg)) ∨
      (isBlit i = true ∧ ∃ c, t.fbPix x y = s.g.palette c))

/-! ### The blitting engine -/

/-- BLIT: the destination rectangle inside the clip rectangle, each pixel from the clipped source window, mirrored within
it when flipped; a transparent source colour writes nothing, another goes through the palette (R184, R181, R182,
R183). -/
def Obligations.BlitResult : Prop :=
  ∀ (s : State) (fx fy : Bool) (sx sy w h dx dy : Word), s.fault = false → s.g.clipOk →
    let px := dx.toInt - s.g.cameraX.toInt
    let py := dy.toInt - s.g.cameraY.toInt
    let c := fun a b => s.blitColour px py sx.toInt sy.toInt w.toInt h.toInt fx fy a b
    encode (.blit fx fy sx sy w h dx dy) =
      [0x4000 ||| (if fx then 2 else 0) ||| (if fy then 4 else 0), sx, sy, w, h, dx, dy] ∧
    ∃ t, exec (.blit fx fy sx sy w h dx dy) s = .next t ∧ s.Completes t s.g 0 ∧
      s.Paints t
        (fun a b => s.g.inClip a b ∧ ((px ≤ a ∧ a < px + w.toInt) ∧ (py ≤ b ∧ b < py + h.toInt)) ∧
          s.g.isTransparent (c a b) = false)
        (fun a b => s.g.palette (c a b))

/-- SPR: the fixed blit of `w` by `h` sprites of 8 by 8 cells from sprite `n`'s cell `(8 (n & 15), 8 (n >> 4))` (R185,
R183, R42). -/
def Obligations.SprResult : Prop :=
  ∀ (s : State) (fx fy : Bool) (n x y w h : Word), s.fault = false → s.g.clipOk →
    let px := x.toInt - s.g.cameraX.toInt
    let py := y.toInt - s.g.cameraY.toInt
    let c := fun a b => s.blitColour px py (8 * (n.toNat % 16 : Nat)) (8 * (n.toNat % 256 / 16 : Nat)) (8 * w.toInt)
      (8 * h.toInt) fx fy a b
    encode (.spr fx fy n x y w h) =
      [0x4100 ||| (if fx then 2 else 0) ||| (if fy then 4 else 0), n, x, y, w, h] ∧
    ∃ t, exec (.spr fx fy n x y w h) s = .next t ∧ s.Completes t s.g 0 ∧
      s.Paints t
        (fun a b => s.g.inClip a b ∧ ((px ≤ a ∧ a < px + 8 * w.toInt) ∧ (py ≤ b ∧ b < py + 8 * h.toInt)) ∧
          s.g.isTransparent (c a b) = false)
        (fun a b => s.g.palette (c a b))

/-- SSPR: each pixel of the destination rectangle inside the clip rectangle samples the source at 16.16 fixed point,
mirrored over the unclipped extent when flipped; nothing is drawn for an extent of zero or below (R187, R186, R182). -/
def Obligations.SsprResult : Prop :=
  ∀ (s : State) (fx fy : Bool) (sx sy sw sh dx dy dw dh : Word), s.fault = false → s.g.clipOk →
    let px := dx.toInt - s.g.cameraX.toInt
    let py := dy.toInt - s.g.cameraY.toInt
    let u := fun a : Int =>
      (sx.toInt * 65536 + (if fx then dw.toInt - 1 - (a - px) else a - px) * (sw.toInt * 65536 / dw.toInt)) / 65536
    let v := fun b : Int =>
      (sy.toInt * 65536 + (if fy then dh.toInt - 1 - (b - py) else b - py) * (sh.toInt * 65536 / dh.toInt)) / 65536
    encode (.sspr fx fy sx sy sw sh dx dy dw dh) =
      [0x4200 ||| (if fx then 2 else 0) ||| (if fy then 4 else 0), sx, sy, sw, sh, dx, dy, dw, dh] ∧
    ∃ t, exec (.sspr fx fy sx sy sw sh dx dy dw dh) s = .next t ∧ s.Completes t s.g 0 ∧
      s.Paints t
        (fun a b => s.g.inClip a b ∧ ((px ≤ a ∧ a < px + dw.toInt) ∧ (py ≤ b ∧ b < py + dh.toInt)) ∧
          (0 < sw.toInt ∧ 0 < sh.toInt) ∧ s.g.isTransparent (s.src (u a) (v b)) = false)
        (fun a b => s.g.palette (s.src (u a) (v b)))

/-- The two properties of the engine (42_blit.md R188): (a) no blit writes outside the clip rectangle, for any requested
destination rectangle; (b) a scaled blit of equal sizes without flips is the fixed blit, whole state for whole state. -/
def Obligations.EngineProperties : Prop :=
  (∀ (s t : State) (i : Instr), s.g.clipOk → isBlit i = true → exec i s = .next t →
    (∀ x y, onScreen x y → ¬ s.g.inClip x y → t.fbPix x y = s.fbPix x y) ∧
    s.KeepsBytes t (fun S k => S = .fb ∧ ∃ x y, onScreen x y ∧ s.g.inClip x y ∧ k = fbElem x y / 2)) ∧
  (∀ (s : State) (sx sy w h dx dy : Word),
    exec (.sspr false false sx sy w h dx dy w h) s = exec (.blit false false sx sy w h dx dy) s)

/-! ### The sprite, map and flag stores -/

/-- The cell of the active sprite-shaped store, both coordinates wrapped modulo 128, and SGET and SSET of it; SSET stores
`fg` after the optional colour word (R230, R231, 10_state.md R42, R43). -/
def Obligations.SgetAndSsetResult : Prop :=
  ∀ (s : State) (x y : Word) (cw : Option Word), s.fault = false →
    let e : Nat := (y.toNat % 128) * 128 + x.toNat % 128
    let cell : Store × Nat :=
      if s.g.sheetSel then (.font, e) else if e < 8192 then (.gfxLo, e) else (.shared, e - 8192)
    encode (.sget x y) = [0x3000, x, y] ∧
    encode (.sset x y cw) = [if cw.isSome then 0x3101 else 0x3100, x, y] ++ cw.toList ∧
    exec (.sget x y) s = .next { s with resp := some ((s.nib cell.1 cell.2).setWidth 32), ci := s.ci + 1 } ∧
    ∃ t, exec (.sset x y cw) s = .next t ∧ s.Completes t (s.g.colored cw) 0 ∧
      t.nib cell.1 cell.2 = (s.g.colored cw).fg ∧
      t.nib cell.1 (cell.2 ^^^ 1) = s.nib cell.1 (cell.2 ^^^ 1) ∧
      s.KeepsBytes t (fun S k => S = cell.1 ∧ k = cell.2 / 2)

/-- MGET and MSET at index `y * 128 + x` without masking, inside the map (R232, R233, R234, 10_state.md R44; the
hypothesis is that of 93_implementation_defined.md U1). -/
def Obligations.MgetAndMsetResult : Prop :=
  ∀ (s : State) (x y v : Word) (i : Nat), s.fault = false → y.toInt * 128 + x.toInt = i → i ≤ 8191 →
    let cell : Store × Nat := if i < 4096 then (.mapLo, i) else (.shared, i - 4096)
    encode (.mget x y) = [0x3200, x, y] ∧ encode (.mset x y v) = [0x3300, x, y, v] ∧
    exec (.mget x y) s = .next { s with resp := some ((s.byte cell.1 cell.2).setWidth 32), ci := s.ci + 1 } ∧
    ∃ t, exec (.mset x y v) s = .next t ∧ s.Completes t s.g 0 ∧ t.byte cell.1 cell.2 = v.extractLsb' 0 8 ∧
      s.KeepsBytes t (fun S k => S = cell.1 ∧ k = cell.2)

/-- Outside the map, which the document calls undefined, the block reads 0 and discards the write, and MAP counts the
cells as 0: a block wholly outside changes nothing, and any block, inside, outside or across the map's edge, paints the
sprites of its cells with every cell outside the map taken as 0 (R232, R240, decision D29; log entry 9: no claim about
the document rests on it). -/
def Obligations.MapIndexOutsideTheMap : Prop :=
  ∀ (s : State) (x y v : Word), s.fault = false →
    ((y.toInt * 128 + x.toInt < 0 ∨ 8191 < y.toInt * 128 + x.toInt) →
      exec (.mget x y) s = .next { s with resp := some 0, ci := s.ci + 1 } ∧
      exec (.mset x y v) s = .next { s with resp := some 0, ci := s.ci + 1 }) ∧
    (∀ sx sy cw ch : Word,
      (∀ i j : Int, 0 ≤ i → i < cw.toInt → 0 ≤ j → j < ch.toInt →
        (y.toInt + j) * 128 + (x.toInt + i) < 0 ∨ 8191 < (y.toInt + j) * 128 + (x.toInt + i)) →
      exec (.map x y sx sy cw ch v) s = .next { s with resp := some 0, ci := s.ci + 1 }) ∧
    (s.g.clipOk → ∀ sx sy cw ch : Word,
      let px := sx.toInt - s.g.cameraX.toInt
      let py := sy.toInt - s.g.cameraY.toInt
      let idx := fun a b : Int => (y.toInt + (b - py) / 8) * 128 + (x.toInt + (a - px) / 8)
      let cell : Int → Int → Byte := fun a b =>
        if 0 ≤ idx a b ∧ idx a b ≤ 8191 then
          (if idx a b < 4096 then s.byte .mapLo (idx a b).toNat else s.byte .shared (idx a b - 4096).toNat)
        else 0
      let l := v.extractLsb' 0 8
      let c := fun a b : Int =>
        s.src (8 * ((cell a b).toNat % 16 : Nat) + (a - px) % 8) (8 * ((cell a b).toNat / 16 : Nat) + (b - py) % 8)
      ∃ t, exec (.map x y sx sy cw ch v) s = .next t ∧ s.Completes t s.g 0 ∧
        s.Paints t
          (fun a b => s.g.inClip a b ∧
            ((px ≤ a ∧ a < px + 8 * cw.toInt) ∧ (py ≤ b ∧ b < py + 8 * ch.toInt)) ∧
            cell a b ≠ 0 ∧ (l = 0 ∨ s.byte .flags (cell a b).toNat &&& l = l) ∧ s.g.isTransparent (c a b) = false)
          (fun a b => s.g.palette (c a b)))

/-- The flag bytes: FGET and FSET of a whole byte, FGETB and FSETB of one bit with the other seven unchanged, the sprite
id masked to 8 bits and the bit number to 3 (R235, R236, R237, R238). -/
def Obligations.FlagCommandsResult : Prop :=
  ∀ (s : State) (n v b : Word) (T : Bool), s.fault = false →
    let id : Nat := n.toNat % 256
    let bit : Nat := b.toNat % 8
    (encode (.fget n) = [0x3400, n] ∧ encode (.fset n v) = [0x3500, n, v] ∧ encode (.fgetb n b) = [0x3600, n, b] ∧
      encode (.fsetb T n b) = [if T then 0x3710 else 0x3700, n, b]) ∧
    exec (.fget n) s = .next { s with resp := some ((s.byte .flags id).setWidth 32), ci := s.ci + 1 } ∧
    exec (.fgetb n b) s =
      .next { s with resp := some (if (s.byte .flags id).getLsbD bit then 1 else 0), ci := s.ci + 1 } ∧
    (∃ t, exec (.fset n v) s = .next t ∧ s.Completes t s.g 0 ∧ t.byte .flags id = v.extractLsb' 0 8 ∧
      s.KeepsBytes t (fun S k => S = .flags ∧ k = id)) ∧
    (∃ t, exec (.fsetb T n b) s = .next t ∧ s.Completes t s.g 0 ∧
      (∀ k, k < 8 → (t.byte .flags id).getLsbD k = if k = bit then T else (s.byte .flags id).getLsbD k) ∧
      s.KeepsBytes t (fun S k => S = .flags ∧ k = id))

/-- MAP: of each cell of the block that is not 0 and whose flags satisfy the layer mask, the opaque pixels of its sprite,
8 pixels apart from the camera-adjusted position, inside the clip rectangle and through the palette (R240, R182; every
index inside the map, as 93_implementation_defined.md U1 asks). -/
def Obligations.MapResult : Prop :=
  ∀ (s : State) (celX celY sx sy celW celH layer : Word), s.fault = false → s.g.clipOk →
    (∀ i j : Int, 0 ≤ i → i < celW.toInt → 0 ≤ j → j < celH.toInt →
      0 ≤ (celY.toInt + j) * 128 + (celX.toInt + i) ∧ (celY.toInt + j) * 128 + (celX.toInt + i) ≤ 8191) →
    let px := sx.toInt - s.g.cameraX.toInt
    let py := sy.toInt - s.g.cameraY.toInt
    let cell := fun a b : Int => s.blockCell celX.toInt celY.toInt ((a - px) / 8) ((b - py) / 8)
    let l := layer.extractLsb' 0 8
    let c := fun a b : Int =>
      s.src (8 * ((cell a b).toNat % 16 : Nat) + (a - px) % 8) (8 * ((cell a b).toNat / 16 : Nat) + (b - py) % 8)
    encode (.map celX celY sx sy celW celH layer) = [0x4300, celX, celY, sx, sy, celW, celH, layer] ∧
    ∃ t, exec (.map celX celY sx sy celW celH layer) s = .next t ∧ s.Completes t s.g 0 ∧
      s.Paints t
        (fun a b => s.g.inClip a b ∧
          ((px ≤ a ∧ a < px + 8 * celW.toInt) ∧ (py ≤ b ∧ b < py + 8 * celH.toInt)) ∧
          cell a b ≠ 0 ∧ (l = 0 ∨ s.byte .flags (cell a b).toNat &&& l = l) ∧ s.g.isTransparent (c a b) = false)
        (fun a b => s.g.palette (c a b))
end

