-- ==== Sys2Proof/Laws/State.lean ====
section
/-! SUPPORT. One lemma per field per update of State, so that no later proof unfolds a record update. -/

namespace Sys2Proof.Machine

/-! ### `complete` -/
@[simp] theorem State.complete_g (s : State) (r : Word32) : (s.complete r).g = s.g := rfl
@[simp] theorem State.complete_stores (s : State) (r : Word32) : (s.complete r).stores = s.stores := rfl
@[simp] theorem State.complete_fault (s : State) (r : Word32) : (s.complete r).fault = s.fault := rfl
@[simp] theorem State.complete_input (s : State) (r : Word32) : (s.complete r).input = s.input := rfl
@[simp] theorem State.complete_resp (s : State) (r : Word32) : (s.complete r).resp = some r := rfl
@[simp] theorem State.complete_ci (s : State) (r : Word32) : (s.complete r).ci = s.ci + 1 := rfl
@[simp] theorem State.complete_epoch (s : State) (r : Word32) : (s.complete r).epoch = s.epoch := rfl
@[simp] theorem State.complete_byte (s : State) (r : Word32) (S : Store) (i : Nat) :
    (s.complete r).byte S i = s.byte S i := rfl
@[simp] theorem State.complete_nib (s : State) (r : Word32) (S : Store) (e : Nat) :
    (s.complete r).nib S e = s.nib S e := rfl
@[simp] theorem State.complete_fbPix (s : State) (r : Word32) (x y : Int) :
    (s.complete r).fbPix x y = s.fbPix x y := rfl

/-! ### `ignored` -/
@[simp] theorem State.ignored_g (s : State) : s.ignored.g = s.g := rfl
@[simp] theorem State.ignored_stores (s : State) : s.ignored.stores = s.stores := rfl
@[simp] theorem State.ignored_fault (s : State) : s.ignored.fault = s.fault := rfl
@[simp] theorem State.ignored_input (s : State) : s.ignored.input = s.input := rfl
@[simp] theorem State.ignored_resp (s : State) : s.ignored.resp = none := rfl
@[simp] theorem State.ignored_ci (s : State) : s.ignored.ci = s.ci := rfl
@[simp] theorem State.ignored_epoch (s : State) : s.ignored.epoch = s.epoch := rfl
@[simp] theorem State.ignored_byte (s : State) (S : Store) (i : Nat) : s.ignored.byte S i = s.byte S i := rfl

/-! ### `raiseIntegrityFault` -/
@[simp] theorem State.raise_g (s : State) : s.raiseIntegrityFault.g = s.g := rfl
@[simp] theorem State.raise_stores (s : State) : s.raiseIntegrityFault.stores = s.stores := rfl
@[simp] theorem State.raise_fault (s : State) : s.raiseIntegrityFault.fault = true := rfl
@[simp] theorem State.raise_input (s : State) : s.raiseIntegrityFault.input = s.input := rfl
@[simp] theorem State.raise_resp (s : State) : s.raiseIntegrityFault.resp = none := rfl
@[simp] theorem State.raise_ci (s : State) : s.raiseIntegrityFault.ci = s.ci := rfl
@[simp] theorem State.raise_epoch (s : State) : s.raiseIntegrityFault.epoch = s.epoch := rfl
@[simp] theorem State.raise_byte (s : State) (S : Store) (i : Nat) :
    s.raiseIntegrityFault.byte S i = s.byte S i := rfl

/-! ### `withG`, `color`, `colorWord` -/
@[simp] theorem State.withG_g (s : State) (g : Gfx) : (s.withG g).g = g := rfl
@[simp] theorem State.withG_stores (s : State) (g : Gfx) : (s.withG g).stores = s.stores := rfl
@[simp] theorem State.withG_fault (s : State) (g : Gfx) : (s.withG g).fault = s.fault := rfl
@[simp] theorem State.withG_input (s : State) (g : Gfx) : (s.withG g).input = s.input := rfl
@[simp] theorem State.withG_resp (s : State) (g : Gfx) : (s.withG g).resp = s.resp := rfl
@[simp] theorem State.withG_ci (s : State) (g : Gfx) : (s.withG g).ci = s.ci := rfl
@[simp] theorem State.withG_epoch (s : State) (g : Gfx) : (s.withG g).epoch = s.epoch := rfl
@[simp] theorem State.withG_byte (s : State) (g : Gfx) (S : Store) (i : Nat) : (s.withG g).byte S i = s.byte S i := rfl

@[simp] theorem State.color_g (s : State) (c : Byte) :
    (s.color c).g = { s.g with fg := loNibble c, bg := hiNibble c } := rfl
@[simp] theorem State.color_stores (s : State) (c : Byte) : (s.color c).stores = s.stores := rfl
@[simp] theorem State.color_fault (s : State) (c : Byte) : (s.color c).fault = s.fault := rfl
@[simp] theorem State.color_input (s : State) (c : Byte) : (s.color c).input = s.input := rfl
@[simp] theorem State.color_resp (s : State) (c : Byte) : (s.color c).resp = s.resp := rfl
@[simp] theorem State.color_ci (s : State) (c : Byte) : (s.color c).ci = s.ci := rfl
@[simp] theorem State.color_epoch (s : State) (c : Byte) : (s.color c).epoch = s.epoch := rfl
@[simp] theorem State.color_byte (s : State) (c : Byte) (S : Store) (i : Nat) : (s.color c).byte S i = s.byte S i := rfl

@[simp] theorem State.colorWord_none (s : State) : s.colorWord none = s := rfl
@[simp] theorem State.colorWord_some (s : State) (w : Word) : s.colorWord (some w) = s.color (lo8 w) := rfl

/-- The optional colour word is `withG` of some graphics state: it touches nothing else. -/
theorem State.colorWord_eq_withG (s : State) (cw : Option Word) : s.colorWord cw = s.withG (s.colorWord cw).g := by
  cases cw <;> rfl

@[simp] theorem State.colorWord_stores (s : State) (cw : Option Word) : (s.colorWord cw).stores = s.stores := by
  cases cw <;> rfl
@[simp] theorem State.colorWord_fault (s : State) (cw : Option Word) : (s.colorWord cw).fault = s.fault := by
  cases cw <;> rfl
@[simp] theorem State.colorWord_input (s : State) (cw : Option Word) : (s.colorWord cw).input = s.input := by
  cases cw <;> rfl
@[simp] theorem State.colorWord_resp (s : State) (cw : Option Word) : (s.colorWord cw).resp = s.resp := by
  cases cw <;> rfl
@[simp] theorem State.colorWord_ci (s : State) (cw : Option Word) : (s.colorWord cw).ci = s.ci := by
  cases cw <;> rfl
@[simp] theorem State.colorWord_epoch (s : State) (cw : Option Word) : (s.colorWord cw).epoch = s.epoch := by
  cases cw <;> rfl
@[simp] theorem State.colorWord_byte (s : State) (cw : Option Word) (S : Store) (i : Nat) :
    (s.colorWord cw).byte S i = s.byte S i := by
  cases cw <;> rfl

/-! ### `setByte` -/
@[simp] theorem State.setByte_g (s : State) (S : Store) (i : Nat) (v : Byte) : (s.setByte S i v).g = s.g := rfl
@[simp] theorem State.setByte_fault (s : State) (S : Store) (i : Nat) (v : Byte) :
    (s.setByte S i v).fault = s.fault := rfl
@[simp] theorem State.setByte_input (s : State) (S : Store) (i : Nat) (v : Byte) :
    (s.setByte S i v).input = s.input := rfl
@[simp] theorem State.setByte_resp (s : State) (S : Store) (i : Nat) (v : Byte) :
    (s.setByte S i v).resp = s.resp := rfl
@[simp] theorem State.setByte_ci (s : State) (S : Store) (i : Nat) (v : Byte) : (s.setByte S i v).ci = s.ci := rfl
@[simp] theorem State.setByte_epoch (s : State) (S : Store) (i : Nat) (v : Byte) :
    (s.setByte S i v).epoch = s.epoch := rfl

@[simp] theorem State.setNib_g (s : State) (S : Store) (e : Nat) (v : Nibble) : (s.setNib S e v).g = s.g := rfl

/-! ### `applyReset` -/
@[simp] theorem State.applyReset_g (s : State) (es : List HostEvent) : (s.applyReset es).g = Gfx.reset := rfl
@[simp] theorem State.applyReset_stores (s : State) (es : List HostEvent) :
    (s.applyReset es).stores = Stores.empty := rfl
@[simp] theorem State.applyReset_fault (s : State) (es : List HostEvent) : (s.applyReset es).fault = false := rfl
@[simp] theorem State.applyReset_input (s : State) (es : List HostEvent) : (s.applyReset es).input = es := rfl
@[simp] theorem State.applyReset_resp (s : State) (es : List HostEvent) : (s.applyReset es).resp = none := rfl
@[simp] theorem State.applyReset_ci (s : State) (es : List HostEvent) : (s.applyReset es).ci = 0 := rfl
@[simp] theorem State.applyReset_epoch (s : State) (es : List HostEvent) :
    (s.applyReset es).epoch = s.epoch + 1 := rfl

/-! ### Command endings -/
theorem State.unlessFaulted_of_running {s : State} (h : s.fault = false) (t : State) :
    s.unlessFaulted t = .next t := by simp [State.unlessFaulted, h]

theorem State.unlessFaulted_of_faulted {s : State} (h : s.fault = true) (t : State) :
    s.unlessFaulted t = .next s.ignored := by simp [State.unlessFaulted, h]

/-- All a command can do: the packet is ignored while the latch is set, else its own effect happens. -/
theorem State.unlessFaulted_cases {s t u : State} (h : s.unlessFaulted t = .next u) :
    (s.fault = true ∧ u = s.ignored) ∨ (s.fault = false ∧ u = t) := by
  cases hf : s.fault
  · rw [State.unlessFaulted_of_running hf] at h
    exact .inr ⟨rfl, by injection h with h; exact h.symm⟩
  · rw [State.unlessFaulted_of_faulted hf] at h
    exact .inl ⟨rfl, by injection h with h; exact h.symm⟩

end Sys2Proof.Machine
end

