-- ==== Sys2Proof/Laws/Memory.lean ====
section
/-! SUPPORT. The laws of sparse memory and of stores: read after write, frame, and the canonical form. -/

namespace Sys2Proof.Machine

/-! ### Lookup after `put`, `erase`, `write` -/

theorem Memory.lookup_put_same (m : Memory) (i : Nat) (v : Byte) : (m.put i v).lookup i = some v := by
  induction m with
  | nil => simp [Memory.put, Memory.lookup]
  | cons c m ih =>
    simp only [Memory.put]
    split
    · simp [Memory.lookup]
    · split
      · simp [Memory.lookup]
      · rename_i h1 h2
        simp [Memory.lookup, Ne.symm h2, ih]

theorem Memory.lookup_put_other (m : Memory) {i j : Nat} (v : Byte) (h : j ≠ i) :
    (m.put i v).lookup j = m.lookup j := by
  induction m with
  | nil => simp [Memory.put, Memory.lookup, h.symm]
  | cons c m ih =>
    simp only [Memory.put]
    split
    · simp [Memory.lookup, h.symm]
    · split
      · rename_i h1 h2
        subst h2
        simp [Memory.lookup, h.symm]
      · simp [Memory.lookup, ih]

theorem Memory.lookup_erase_same (m : Memory) (i : Nat) : (m.erase i).lookup i = none := by
  induction m with
  | nil => rfl
  | cons c m ih =>
    simp only [Memory.erase]
    split
    · exact ih
    · rename_i h
      simp [Memory.lookup, h, ih]

theorem Memory.lookup_erase_other (m : Memory) {i j : Nat} (h : j ≠ i) : (m.erase i).lookup j = m.lookup j := by
  induction m with
  | nil => rfl
  | cons c m ih =>
    simp only [Memory.erase]
    split
    · rename_i hc
      have : c.1 ≠ j := fun e => h (e.symm.trans hc)
      simp [Memory.lookup, this, ih]
    · simp [Memory.lookup, ih]

/-! ### The canonical form -/

theorem Memory.risingFrom_mono {lo lo' : Nat} (h : lo' ≤ lo) :
    ∀ {m : Memory}, Memory.risingFrom lo m = true → Memory.risingFrom lo' m = true
  | [], _ => rfl
  | _ :: _, hm => by
    simp only [Memory.risingFrom, Bool.and_eq_true, decide_eq_true_eq] at hm ⊢
    exact ⟨h.trans hm.1, hm.2⟩

theorem Memory.risingFrom_put {lo i : Nat} {v : Byte} (hi : lo ≤ i) :
    ∀ {m : Memory}, Memory.risingFrom lo m = true → Memory.risingFrom lo (m.put i v) = true
  | [], _ => by simp [Memory.put, Memory.risingFrom, hi]
  | c :: m, hm => by
    simp only [Memory.risingFrom, Bool.and_eq_true, decide_eq_true_eq] at hm
    simp only [Memory.put]
    split
    · simp only [Memory.risingFrom, Bool.and_eq_true, decide_eq_true_eq]
      exact ⟨hi, by omega, hm.2⟩
    · split
      · rename_i h1 h2
        subst h2
        simp only [Memory.risingFrom, Bool.and_eq_true, decide_eq_true_eq]
        exact ⟨hi, hm.2⟩
      · simp only [Memory.risingFrom, Bool.and_eq_true, decide_eq_true_eq]
        exact ⟨hm.1, Memory.risingFrom_put (by omega) hm.2⟩

theorem Memory.risingFrom_erase {i : Nat} :
    ∀ {lo : Nat} {m : Memory}, Memory.risingFrom lo m = true → Memory.risingFrom lo (m.erase i) = true
  | _, [], _ => rfl
  | lo, c :: m, hm => by
    simp only [Memory.risingFrom, Bool.and_eq_true, decide_eq_true_eq] at hm
    simp only [Memory.erase]
    split
    · exact Memory.risingFrom_erase (Memory.risingFrom_mono (by omega) hm.2)
    · simp only [Memory.risingFrom, Bool.and_eq_true, decide_eq_true_eq]
      exact ⟨hm.1, Memory.risingFrom_erase hm.2⟩

theorem Memory.mem_put {m : Memory} {i : Nat} {v : Byte} {c : Host.Cell} (h : c ∈ m.put i v) :
    c = (i, v) ∨ c ∈ m := by
  induction m with
  | nil => simpa [Memory.put] using h
  | cons d m ih =>
    simp only [Memory.put] at h
    split at h
    · simpa using h
    · split at h
      · rcases List.mem_cons.mp h with h | h
        · exact .inl h
        · exact .inr (List.mem_cons_of_mem _ h)
      · rcases List.mem_cons.mp h with h | h
        · exact .inr (h ▸ List.mem_cons_self ..)
        · exact (ih h).imp id (List.mem_cons_of_mem _)

theorem Memory.mem_erase {m : Memory} {i : Nat} {c : Host.Cell} (h : c ∈ m.erase i) : c ∈ m := by
  induction m with
  | nil => exact h
  | cons d m ih =>
    simp only [Memory.erase] at h
    split at h
    · exact List.mem_cons_of_mem _ (ih h)
    · rcases List.mem_cons.mp h with h | h
      · exact h ▸ List.mem_cons_self ..
      · exact List.mem_cons_of_mem _ (ih h)

/-- The canonical form in words: indices rising, inside the store, no entry the unlisted byte itself. -/
theorem Memory.wf_iff {S : Store} {m : Memory} :
    Memory.wf S m = true ↔
      Memory.risingFrom 0 m = true ∧ ∀ c ∈ m, c.1 < S.size ∧ resetByte S c.1 ≠ some c.2 := by
  simp [Memory.wf, List.all_eq_true]

/-- A write inside the store keeps the canonical form. -/
theorem Memory.wf_write {S : Store} {m : Memory} {i : Nat} {v : Byte} (hm : Memory.wf S m = true) (hi : i < S.size) :
    Memory.wf S (m.write (resetByte S i) i v) = true := by
  rw [Memory.wf_iff] at hm ⊢
  simp only [Memory.write]
  split
  · exact ⟨Memory.risingFrom_erase hm.1, fun c hc => hm.2 c (Memory.mem_erase hc)⟩
  · rename_i hv
    refine ⟨Memory.risingFrom_put (Nat.zero_le _) hm.1, fun c hc => ?_⟩
    rcases Memory.mem_put hc with rfl | hc
    · exact ⟨hi, hv⟩
    · exact hm.2 c hc

/-! ### Stores -/

@[simp] theorem Stores.get_set_same (ss : Stores) (S : Store) (m : Memory) : (ss.set S m).get S = m := by
  cases S <;> rfl

theorem Stores.get_set_other (ss : Stores) {S T : Store} (m : Memory) (h : T ≠ S) : (ss.set S m).get T = ss.get T := by
  cases S <;> cases T <;> first | rfl | exact absurd rfl h

@[simp] theorem Stores.get_empty (S : Store) : Stores.empty.get S = [] := by cases S <;> rfl

/-! ### Bytes -/

@[simp] theorem State.byte_setByte_same (s : State) (S : Store) (i : Nat) (v : Byte) :
    (s.setByte S i v).byte S i = v := by
  simp only [State.byte, State.setByte, Stores.get_set_same, Memory.write, State.unlisted]
  split
  · rename_i h
    simp [Memory.lookup_erase_same, h]
  · simp [Memory.lookup_put_same]

theorem State.byte_setByte_index (s : State) (S : Store) {i j : Nat} (v : Byte) (h : j ≠ i) :
    (s.setByte S i v).byte S j = s.byte S j := by
  simp only [State.byte, State.setByte, Stores.get_set_same, Memory.write, State.unlisted]
  split
  · rw [Memory.lookup_erase_other _ h]
  · rw [Memory.lookup_put_other _ _ h]

theorem State.byte_setByte_store (s : State) {S T : Store} (i j : Nat) (v : Byte) (h : T ≠ S) :
    (s.setByte S i v).byte T j = s.byte T j := by
  simp only [State.byte, State.setByte, Stores.get_set_other _ _ h, State.unlisted]

/-- All a byte write does: one byte changes. -/
theorem State.byte_setByte (s : State) (S T : Store) (i j : Nat) (v : Byte) :
    (s.setByte S i v).byte T j = if T = S ∧ j = i then v else s.byte T j := by
  by_cases hT : T = S
  · subst hT
    by_cases hj : j = i
    · subst hj; simp
    · simp [hj, State.byte_setByte_index s T v hj]
  · simp [hT, State.byte_setByte_store s i j v hT]

/-! ### Elements -/

/-- The bits of a byte made of two nibbles. -/
theorem getLsbD_nibbles (hi lo : Nibble) (k : Nat) :
    BitVec.getLsbD (hi ++ lo : Byte) k = if k < 4 then lo.getLsbD k else hi.getLsbD (k - 4) := by
  have h := BitVec.getLsbD_append (x := hi) (y := lo) (i := k)
  rw [h]

@[simp] theorem loNibble_nibbles (hi lo : Nibble) : loNibble (hi ++ lo : Byte) = lo := by
  apply BitVec.eq_of_getLsbD_eq
  intro k hk
  rw [loNibble, BitVec.getLsbD_extractLsb', getLsbD_nibbles]
  simp [hk]

@[simp] theorem hiNibble_nibbles (hi lo : Nibble) : hiNibble (hi ++ lo : Byte) = hi := by
  apply BitVec.eq_of_getLsbD_eq
  intro k hk
  rw [hiNibble, BitVec.getLsbD_extractLsb', getLsbD_nibbles]
  simp [hk]

/-- A byte is its two nibbles. -/
theorem nibbles_eq (b : Byte) : (hiNibble b ++ loNibble b : Byte) = b := by
  apply BitVec.eq_of_getLsbD_eq
  intro k hk
  rw [getLsbD_nibbles]
  split
  · rename_i h
    simp [loNibble, h]
  · have h4 : k - 4 < 4 := by omega
    have hk4 : 4 + (k - 4) = k := by omega
    simp [hiNibble, h4, hk4]

@[simp] theorem nibOfByte_setNibOfByte_same (b : Byte) (e : Nat) (v : Nibble) :
    nibOfByte (setNibOfByte b e v) e = v := by
  unfold nibOfByte setNibOfByte
  split <;> simp

theorem nibOfByte_setNibOfByte_other (b : Byte) {e e' : Nat} (v : Nibble) (h : e' % 2 ≠ e % 2) :
    nibOfByte (setNibOfByte b e v) e' = nibOfByte b e' := by
  unfold nibOfByte setNibOfByte
  have : e % 2 = 0 ∧ e' % 2 = 1 ∨ e % 2 = 1 ∧ e' % 2 = 0 := by omega
  rcases this with ⟨h1, h2⟩ | ⟨h1, h2⟩ <;> simp [h1, h2]

/-- A byte is determined by its two elements. -/
theorem byte_ext_of_nibs {a b : Byte} (h0 : nibOfByte a 0 = nibOfByte b 0) (h1 : nibOfByte a 1 = nibOfByte b 1) :
    a = b := by
  rw [← nibbles_eq a, ← nibbles_eq b]
  simp only [nibOfByte] at h0 h1
  simp_all

@[simp] theorem State.nib_setNib_same (s : State) (S : Store) (e : Nat) (v : Nibble) :
    (s.setNib S e v).nib S e = v := by
  simp [State.nib, State.setNib]

/-- All an element write does: one element changes. -/
theorem State.nib_setNib (s : State) (S T : Store) (e k : Nat) (v : Nibble) :
    (s.setNib S e v).nib T k = if T = S ∧ k = e then v else s.nib T k := by
  by_cases hT : T = S
  · subst hT
    by_cases hk : k = e
    · subst hk; simp
    · simp only [true_and, hk, if_false]
      unfold State.nib State.setNib
      rw [State.byte_setByte]
      by_cases hb : k / 2 = e / 2
      · have : k % 2 ≠ e % 2 := by omega
        simp [hb, nibOfByte_setNibOfByte_other _ _ this]
      · simp [hb]
  · simp only [hT, false_and, if_false]
    unfold State.nib State.setNib
    rw [State.byte_setByte]
    simp [hT]

theorem State.byte_setNib (s : State) (S T : Store) (e i : Nat) (v : Nibble) (h : ¬(T = S ∧ i = e / 2)) :
    (s.setNib S e v).byte T i = s.byte T i := by
  rw [State.setNib, State.byte_setByte, if_neg h]

end Sys2Proof.Machine
end

