-- ==== Sys2Proof/Laws/Paint.lean ====
section
/-! SUPPORT. A calculus of drawing: what a sequence of pixel writes does to the state, composed over the counted loop
and over lists of points. Every drawing command's effect is one `Draws` fact. -/

namespace Sys2Proof.Machine

/-- The state with framebuffer list `m`. -/
def State.withFb (s : State) (m : Memory) : State := { s with stores := { s.stores with fb := m } }

/-- `t` differs from `s` in the framebuffer only. -/
def SameButFb (s t : State) : Prop := t = s.withFb t.stores.fb

theorem SameButFb.refl (s : State) : SameButFb s s := rfl

theorem SameButFb.trans {s t u : State} (h : SameButFb s t) (h' : SameButFb t u) : SameButFb s u := by
  unfold SameButFb at *
  rw [h] at h'
  exact h'

theorem SameButFb.g {s t : State} (h : SameButFb s t) : t.g = s.g := by rw [h]; rfl
theorem SameButFb.fault {s t : State} (h : SameButFb s t) : t.fault = s.fault := by rw [h]; rfl
theorem SameButFb.input {s t : State} (h : SameButFb s t) : t.input = s.input := by rw [h]; rfl
theorem SameButFb.epoch {s t : State} (h : SameButFb s t) : t.epoch = s.epoch := by rw [h]; rfl
theorem SameButFb.resp {s t : State} (h : SameButFb s t) : t.resp = s.resp := by rw [h]; rfl
theorem SameButFb.ci {s t : State} (h : SameButFb s t) : t.ci = s.ci := by rw [h]; rfl

theorem SameButFb.get {s t : State} (h : SameButFb s t) {S : Store} (hS : S ≠ .fb) :
    t.stores.get S = s.stores.get S := by
  rw [h]
  cases S <;> first | rfl | exact absurd rfl hS

theorem SameButFb.byte {s t : State} (h : SameButFb s t) {S : Store} (hS : S ≠ .fb) (i : Nat) :
    t.byte S i = s.byte S i := by
  simp only [State.byte, State.unlisted, h.get hS, h.epoch]

theorem SameButFb.nib {s t : State} (h : SameButFb s t) {S : Store} (hS : S ≠ .fb) (e : Nat) :
    t.nib S e = s.nib S e := by
  simp only [State.nib, h.byte hS]

theorem srcElem_ne_fb (sel : Bool) (x y : Int) : (srcElem sel x y).1 ≠ .fb := by
  unfold srcElem
  dsimp only
  split
  · simp
  · split <;> simp

/-- The source of a blit is not the framebuffer, so drawing does not change it (70_reset_and_hazards.md R291). -/
theorem SameButFb.src {s t : State} (h : SameButFb s t) (x y : Int) : t.src x y = s.src x y := by
  simp only [State.src, h.g]
  exact h.nib (srcElem_ne_fb _ _ _) _

theorem mapElem_ne_fb {i : Int} {p : Store × Nat} (h : mapElem i = some p) : p.1 ≠ .fb := by
  unfold mapElem at h
  split at h
  · injection h with h
    subst h
    split <;> simp
  · cases h

theorem SameButFb.mapCell {s t : State} (h : SameButFb s t) (i : Int) : t.mapCell i = s.mapCell i := by
  unfold State.mapCell
  cases hm : mapElem i with
  | none => rfl
  | some p => exact h.byte (mapElem_ne_fb hm) _

theorem sameButFb_setFbPix (s : State) (x y : Int) (c : Nibble) : SameButFb s (s.setFbPix x y c) := rfl

/-! ### Pixels and elements -/

theorem fbElem_lt {x y : Int} (h : onScreen x y) : fbElem x y < 16384 := by
  unfold fbElem
  unfold onScreen at h
  omega

theorem fbElem_inj {x y x' y' : Int} (h : onScreen x y) (h' : onScreen x' y') :
    fbElem x y = fbElem x' y' ↔ x = x' ∧ y = y' := by
  unfold fbElem
  unfold onScreen at h h'
  omega

/-- A pixel written is read back; every other pixel is as before. -/
theorem State.fbPix_setFbPix (s : State) {x y x' y' : Int} (c : Nibble) (h : onScreen x y) (h' : onScreen x' y') :
    (s.setFbPix x y c).fbPix x' y' = if x' = x ∧ y' = y then c else s.fbPix x' y' := by
  simp only [State.fbPix, State.setFbPix, State.nib_setNib, true_and, fbElem_inj h' h]

/-! ### Draws -/

/-- From `s` to `t` only the framebuffer changes, its on-screen pixels `D` take the values `v` and every other pixel
and byte is as before, and its canonical form is kept. -/
structure Draws (s t : State) (D : Int → Int → Prop) (v : Int → Int → Nibble) : Prop where
  same : SameButFb s t
  drawn : ∀ x y, onScreen x y → D x y → t.fbPix x y = v x y
  kept : ∀ x y, onScreen x y → ¬ D x y → t.fbPix x y = s.fbPix x y
  bytes : ∀ i, (¬ ∃ x y, onScreen x y ∧ D x y ∧ i = fbElem x y / 2) → t.byte .fb i = s.byte .fb i
  canon : Memory.wf .fb s.stores.fb = true → Memory.wf .fb t.stores.fb = true

theorem Draws.refl (s : State) {D : Int → Int → Prop} (hD : ∀ x y, onScreen x y → ¬ D x y) (v : Int → Int → Nibble) :
    Draws s s D v where
  same := SameButFb.refl s
  drawn x y h hd := absurd hd (hD x y h)
  kept _ _ _ _ := rfl
  bytes _ _ := rfl
  canon := id

/-- Two drawings after each other, both with the values `v`, draw the union. -/
theorem Draws.trans {s t u : State} {D E : Int → Int → Prop} {v : Int → Int → Nibble} (h : Draws s t D v)
    (h' : Draws t u E v) : Draws s u (fun x y => D x y ∨ E x y) v where
  same := h.same.trans h'.same
  drawn x y hx hd := by
    by_cases he : E x y
    · exact h'.drawn x y hx he
    · rw [h'.kept x y hx he]
      exact h.drawn x y hx (hd.resolve_right he)
  kept x y hx hd := by
    rw [h'.kept x y hx (fun e => hd (.inr e)), h.kept x y hx (fun e => hd (.inl e))]
  bytes i hi := by
    rw [h'.bytes i (fun ⟨x, y, a, b, c⟩ => hi ⟨x, y, a, .inr b, c⟩),
      h.bytes i (fun ⟨x, y, a, b, c⟩ => hi ⟨x, y, a, .inl b, c⟩)]
  canon := fun hw => h'.canon (h.canon hw)

/-- The same drawing described by another set of on-screen pixels. -/
theorem Draws.congr {s t : State} {D E : Int → Int → Prop} {v w : Int → Int → Nibble} (h : Draws s t D v)
    (hE : ∀ x y, onScreen x y → (E x y ↔ D x y)) (hv : ∀ x y, onScreen x y → E x y → w x y = v x y) :
    Draws s t E w where
  same := h.same
  drawn x y hx he := (h.drawn x y hx ((hE x y hx).mp he)).trans (hv x y hx he).symm
  kept x y hx he := h.kept x y hx (fun d => he ((hE x y hx).mpr d))
  bytes i hi := h.bytes i (fun ⟨x, y, a, b, c⟩ => hi ⟨x, y, a, (hE x y a).mpr b, c⟩)
  canon := h.canon

/-- One pixel write. -/
theorem Draws.setFbPix (s : State) {x y : Int} {v : Int → Int → Nibble} (h : onScreen x y) :
    Draws s (s.setFbPix x y (v x y)) (fun a b => a = x ∧ b = y) v where
  same := sameButFb_setFbPix s x y _
  drawn a b hab hd := by rw [State.fbPix_setFbPix s _ h hab, if_pos hd, hd.1, hd.2]
  kept a b hab hd := by rw [State.fbPix_setFbPix s _ h hab, if_neg hd]
  bytes i hi := by
    refine State.byte_setNib s .fb .fb _ i _ (fun hc => hi ⟨x, y, h, ⟨rfl, rfl⟩, hc.2⟩)
  canon := fun hw => by
    have hlt : fbElem x y / 2 < Store.size .fb := by
      have := fbElem_lt h
      simp only [Store.size]
      omega
    exact Memory.wf_write (S := .fb) hw hlt

/-! ### Loops -/

theorem Draws.forCount {v : Int → Int → Nibble} {D : Int → Int → Int → Prop} {f : Int → State → State} :
    ∀ (n : Nat) (a : Int) (s : State),
      (∀ i t, a ≤ i → i < a + n → SameButFb s t → Draws t (f i t) (D i) v) →
        Draws s (forCount n a f s) (fun x y => ∃ i, a ≤ i ∧ i < a + n ∧ D i x y) v
  | 0, a, s, _ => Draws.refl s (fun x y _ ⟨i, h1, h2, _⟩ => by omega) v
  | n + 1, a, s, hf => by
    have h0 := hf a s (le_refl a) (by omega) (SameButFb.refl s)
    have hrest := Draws.forCount (v := v) (D := D) n (a + 1) (f a s)
      (fun i t h1 h2 ht => hf i t (by omega) (by push_cast; omega) (h0.same.trans ht))
    refine (h0.trans hrest).congr (fun x y _ => ⟨?_, ?_⟩) (fun _ _ _ _ => rfl)
    · rintro ⟨i, h1, h2, hd⟩
      by_cases hi : i = a
      · exact .inl (hi ▸ hd)
      · exact .inr ⟨i, by omega, by push_cast at h2; omega, hd⟩
    · rintro (hd | ⟨i, h1, h2, hd⟩)
      · exact ⟨a, le_refl a, by push_cast; omega, hd⟩
      · exact ⟨i, by omega, by push_cast; omega, hd⟩

/-- The counted loop draws the union of what its rounds draw. -/
theorem Draws.forRange {v : Int → Int → Nibble} {D : Int → Int → Int → Prop} {f : Int → State → State} {a b : Int}
    {s : State} (hf : ∀ i t, a ≤ i → i ≤ b → SameButFb s t → Draws t (f i t) (D i) v) :
    Draws s (forRange a b f s) (fun x y => ∃ i, a ≤ i ∧ i ≤ b ∧ D i x y) v := by
  have h := Draws.forCount (v := v) (D := D) (b - a + 1).toNat a s (fun i t h1 h2 ht => hf i t h1 (by omega) ht)
  refine h.congr (fun x y _ => ⟨?_, ?_⟩) (fun _ _ _ _ => rfl)
  · rintro ⟨i, h1, h2, hd⟩
    exact ⟨i, h1, by omega, hd⟩
  · rintro ⟨i, h1, h2, hd⟩
    exact ⟨i, h1, by omega, hd⟩

/-- A walk over a list of points draws the union of what its visits draw. -/
theorem Draws.foldl {v : Int → Int → Nibble} {D : Int × Int → Int → Int → Prop} {f : State → Int × Int → State} :
    ∀ (ps : List (Int × Int)) (s : State),
      (∀ p t, p ∈ ps → SameButFb s t → Draws t (f t p) (D p) v) →
        Draws s (ps.foldl f s) (fun x y => ∃ p, p ∈ ps ∧ D p x y) v
  | [], s, _ => Draws.refl s (fun x y _ ⟨p, h1, _⟩ => by cases h1) v
  | p :: ps, s, hf => by
    have h0 := hf p s (List.mem_cons_self ..) (SameButFb.refl s)
    have hrest := Draws.foldl (v := v) (D := D) ps (f s p)
      (fun q t hq ht => hf q t (List.mem_cons_of_mem _ hq) (h0.same.trans ht))
    refine (h0.trans hrest).congr (fun x y _ => ⟨?_, ?_⟩) (fun _ _ _ _ => rfl)
    · rintro ⟨q, hq, hd⟩
      rcases List.mem_cons.mp hq with rfl | hq
      · exact .inl hd
      · exact .inr ⟨q, hq, hd⟩
    · rintro (hd | ⟨q, hq, hd⟩)
      · exact ⟨p, List.mem_cons_self .., hd⟩
      · exact ⟨q, List.mem_cons_of_mem _ hq, hd⟩

/-! ### What a drawing keeps -/

/-- A drawing as claims state it. -/
theorem Draws.paints {s t : State} {D : Int → Int → Prop} {v : Int → Int → Nibble} (h : Draws s t D v) :
    s.Paints t D v where
  drawn := h.drawn
  kept := h.kept
  bytes S i hi := by
    by_cases hS : S = .fb
    · subst hS
      exact h.bytes i (fun hx => hi ⟨rfl, hx⟩)
    · exact h.same.byte hS i

/-- A drawing keeps the canonical form of every store. -/
theorem Draws.wf {s t : State} {D : Int → Int → Prop} {v : Int → Int → Nibble} (h : Draws s t D v)
    (hs : s.stores.wf) : t.stores.wf := by
  intro S
  by_cases hS : S = .fb
  · subst hS
    exact h.canon (hs .fb)
  · rw [h.same.get hS]
    exact hs S

end Sys2Proof.Machine
end

