-- ==== Sys2Proof/Laws/Primitives.lean ====
section
/-! SUPPORT. What each internal primitive of the rasterizer draws (43_primitives.md), as one `Draws` fact each, under a
legal clip rectangle. -/

namespace Sys2Proof.Machine

/-- A legal clip rectangle lies on the screen (10_state.md R26, R45). -/
theorem Gfx.onScreen_of_inClip {g : Gfx} (hg : g.clipOk) {x y : Int} (h : g.inClip x y) : onScreen x y := by
  unfold onScreen
  unfold Gfx.clipOk at hg
  unfold Gfx.inClip at h
  omega

theorem draws_plot (s : State) {x y : Int} (h : onScreen x y) :
    Draws s (s.plot x y) (fun a b => a = x ∧ b = y) s.g.sel :=
  Draws.setFbPix s h

/-- `pset_i` writes its pixel when it is inside the clip rectangle (R202). -/
theorem draws_psetI {s : State} (hg : s.g.clipOk) (x y : Int) :
    Draws s (s.psetI x y) (fun a b => s.g.inClip a b ∧ (a = x ∧ b = y)) s.g.sel := by
  unfold State.psetI
  split
  · rename_i h
    refine (draws_plot s (Gfx.onScreen_of_inClip hg h)).congr (fun a b _ => ⟨fun h => h.2, ?_⟩) (fun _ _ _ _ => rfl)
    rintro ⟨rfl, rfl⟩
    exact ⟨h, rfl, rfl⟩
  · rename_i h
    exact Draws.refl s (fun a b _ ⟨h1, h2, h3⟩ => h (h2 ▸ h3 ▸ h1)) _

/-- `hline_i` writes the run between its ends inside the clip rectangle (R204). -/
theorem draws_hlineI {s : State} (hg : s.g.clipOk) (xa xb y : Int) :
    Draws s (s.hlineI xa xb y)
      (fun a b => s.g.inClip a b ∧ (b = y ∧ min xa xb ≤ a ∧ a ≤ max xa xb)) s.g.sel := by
  unfold State.hlineI
  split
  · rename_i h
    refine Draws.refl s (fun a b _ ⟨h1, h2⟩ => ?_) _
    unfold Gfx.inClip at h1
    omega
  · rename_i h
    refine (Draws.forRange (v := s.g.sel) (D := fun i a b => a = i ∧ b = y) (fun i t h1 h2 ht => ?_)).congr
      (fun a b _ => ?_) (fun _ _ _ _ => rfl)
    · rw [← ht.g]
      refine draws_plot t ?_
      unfold onScreen
      unfold Gfx.clipOk at hg
      omega
    · unfold Gfx.inClip
      constructor
      · rintro ⟨h1, h2⟩
        exact ⟨a, by omega, by omega, rfl, h2.1⟩
      · rintro ⟨i, h1, h2, rfl, rfl⟩
        omega

/-- `vline_i` writes the run between its ends inside the clip rectangle (R206). -/
theorem draws_vlineI {s : State} (hg : s.g.clipOk) (x ya yb : Int) :
    Draws s (s.vlineI x ya yb)
      (fun a b => s.g.inClip a b ∧ (a = x ∧ min ya yb ≤ b ∧ b ≤ max ya yb)) s.g.sel := by
  unfold State.vlineI
  split
  · rename_i h
    refine Draws.refl s (fun a b _ ⟨h1, h2⟩ => ?_) _
    unfold Gfx.inClip at h1
    omega
  · rename_i h
    refine (Draws.forRange (v := s.g.sel) (D := fun i a b => a = x ∧ b = i) (fun i t h1 h2 ht => ?_)).congr
      (fun a b _ => ?_) (fun _ _ _ _ => rfl)
    · rw [← ht.g]
      refine draws_plot t ?_
      unfold onScreen
      unfold Gfx.clipOk at hg
      omega
    · unfold Gfx.inClip
      constructor
      · rintro ⟨h1, h2⟩
        exact ⟨b, by omega, by omega, h2.1, rfl⟩
      · rintro ⟨i, h1, h2, rfl, rfl⟩
        omega

/-- The filled rectangle writes all of itself inside the clip rectangle (R210). -/
theorem draws_rectfillI {s : State} (hg : s.g.clipOk) (x0 y0 x1 y1 : Int) :
    Draws s (s.rectfillI x0 y0 x1 y1)
      (fun a b => s.g.inClip a b ∧ ((min x0 x1 ≤ a ∧ a ≤ max x0 x1) ∧ (min y0 y1 ≤ b ∧ b ≤ max y0 y1))) s.g.sel := by
  unfold State.rectfillI
  refine (Draws.forRange (v := s.g.sel)
    (D := fun j a b => b = j ∧ (max (min x0 x1) s.g.clipX1 ≤ a ∧ a ≤ min (max x0 x1) (s.g.clipX2 - 1)))
    (fun j t h1 h2 ht => ?_)).congr (fun a b _ => ?_) (fun _ _ _ _ => rfl)
  · refine (Draws.forRange (v := s.g.sel) (D := fun i a b => a = i ∧ b = j) (fun i u h3 h4 hu => ?_)).congr
      (fun a b _ => ?_) (fun _ _ _ _ => rfl)
    · rw [← ht.g, ← hu.g]
      refine draws_plot u ?_
      unfold onScreen
      unfold Gfx.clipOk at hg
      omega
    · constructor
      · rintro ⟨rfl, h3, h4⟩
        exact ⟨a, h3, h4, rfl, rfl⟩
      · rintro ⟨i, h3, h4, rfl, rfl⟩
        exact ⟨rfl, h3, h4⟩
  · unfold Gfx.inClip
    constructor
    · rintro ⟨h1, h2⟩
      exact ⟨b, by omega, by omega, rfl, by omega, by omega⟩
    · rintro ⟨j, h1, h2, rfl, h3, h4⟩
      omega

/-- The set of pixels of RECT: inside the clip rectangle, on one of the four runs (R209). -/
theorem draws_rectI {s : State} (hg : s.g.clipOk) (x0 y0 x1 y1 : Int) :
    Draws s (s.rectI x0 y0 x1 y1)
      (fun a b => s.g.inClip a b ∧ ((min x0 x1 ≤ a ∧ a ≤ max x0 x1) ∧ (min y0 y1 ≤ b ∧ b ≤ max y0 y1)) ∧
        ((a = x0 ∨ a = x1) ∨ (b = y0 ∨ b = y1))) s.g.sel := by
  have h1 := draws_hlineI hg x0 x1 y0
  have h2 := draws_hlineI (s := s.hlineI x0 x1 y0) (by rw [h1.same.g]; exact hg) x0 x1 y1
  have h3 := draws_vlineI (s := (s.hlineI x0 x1 y0).hlineI x0 x1 y1)
    (by rw [h2.same.g, h1.same.g]; exact hg) x0 y0 y1
  have h4 := draws_vlineI (s := ((s.hlineI x0 x1 y0).hlineI x0 x1 y1).vlineI x0 y0 y1)
    (by rw [h3.same.g, h2.same.g, h1.same.g]; exact hg) x1 y0 y1
  rw [h3.same.g, h2.same.g, h1.same.g] at h4
  rw [h2.same.g, h1.same.g] at h3
  rw [h1.same.g] at h2
  refine (((h1.trans h2).trans h3).trans h4).congr (fun a b _ => ?_) (fun _ _ _ _ => rfl)
  constructor
  · rintro ⟨hc, ⟨ha, hb⟩, (rfl | rfl) | (rfl | rfl)⟩
    · exact .inl (.inr ⟨hc, rfl, hb⟩)
    · exact .inr ⟨hc, rfl, hb⟩
    · exact .inl (.inl (.inl ⟨hc, rfl, ha⟩))
    · exact .inl (.inl (.inr ⟨hc, rfl, ha⟩))
  · rintro (((⟨hc, h, ha⟩ | ⟨hc, h, ha⟩) | ⟨hc, h, ha⟩) | ⟨hc, h, ha⟩)
    · exact ⟨hc, ⟨ha, by omega⟩, .inr (.inl h)⟩
    · exact ⟨hc, ⟨ha, by omega⟩, .inr (.inr h)⟩
    · exact ⟨hc, ⟨by omega, ha⟩, .inl (.inl h)⟩
    · exact ⟨hc, ⟨by omega, ha⟩, .inl (.inr h)⟩

/-- A walk of clipped pixels writes its points inside the clip rectangle (R202, R208). -/
theorem draws_points {s : State} (hg : s.g.clipOk) (ps : List (Int × Int)) :
    Draws s (ps.foldl (fun t p => t.psetI p.1 p.2) s) (fun a b => s.g.inClip a b ∧ (a, b) ∈ ps) s.g.sel := by
  refine (Draws.foldl (v := s.g.sel) (D := fun p a b => s.g.inClip a b ∧ (a = p.1 ∧ b = p.2)) ps s
    (fun p t _ ht => ?_)).congr (fun a b _ => ?_) (fun _ _ _ _ => rfl)
  · have h := draws_psetI (s := t) (by rw [ht.g]; exact hg) p.1 p.2
    rwa [ht.g] at h
  · constructor
    · rintro ⟨hc, hp⟩
      exact ⟨(a, b), hp, hc, rfl, rfl⟩
    · rintro ⟨p, hp, hc, h1, h2⟩
      refine ⟨hc, ?_⟩
      rw [h1, h2]
      exact hp

theorem circVisit_eq (xm ym : Int) (s : State) (p : Int × Int) :
    s.circVisit xm ym p = (circReflections xm ym p).foldl (fun t q => t.psetI q.1 q.2) s := rfl

theorem foldl_circVisit (xm ym : Int) (ps : List (Int × Int)) (s : State) :
    ps.foldl (State.circVisit xm ym) s =
      (ps.flatMap (circReflections xm ym)).foldl (fun t q => t.psetI q.1 q.2) s := by
  induction ps generalizing s with
  | nil => rfl
  | cons p ps ih => simp only [List.foldl_cons, List.flatMap_cons, List.foldl_append, circVisit_eq, ih]

theorem circI_eq (s : State) (xm ym r : Int) :
    s.circI xm ym r = (circOutline xm ym r).foldl (fun t q => t.psetI q.1 q.2) s := by
  unfold State.circI circOutline
  split
  · rfl
  · split
    · rfl
    · split
      · rfl
      · exact foldl_circVisit ..

/-- The circle outline writes its points inside the clip rectangle (R212). -/
theorem draws_circI {s : State} (hg : s.g.clipOk) (xm ym r : Int) :
    Draws s (s.circI xm ym r) (fun a b => s.g.inClip a b ∧ (a, b) ∈ circOutline xm ym r) s.g.sel := by
  rw [circI_eq]
  exact draws_points hg _

/-- The pair of spans of one step of CIRCFILL (R213). -/
theorem draws_circfillVisit {s : State} (hg : s.g.clipOk) (xm ym : Int) (p : Int × Int) :
    Draws s (s.circfillVisit xm ym p)
      (fun a b => s.g.inClip a b ∧ ((b = ym + p.2 ∨ b = ym - p.2) ∧
        min (xm + p.1) (xm - p.1) ≤ a ∧ a ≤ max (xm + p.1) (xm - p.1))) s.g.sel := by
  have h1 := draws_hlineI hg (xm + p.1) (xm - p.1) (ym + p.2)
  have h2 := draws_hlineI (s := s.hlineI (xm + p.1) (xm - p.1) (ym + p.2)) (by rw [h1.same.g]; exact hg)
    (xm + p.1) (xm - p.1) (ym - p.2)
  rw [h1.same.g] at h2
  refine (h1.trans h2).congr (fun a b _ => ?_) (fun _ _ _ _ => rfl)
  constructor
  · rintro ⟨hc, hb | hb, ha⟩
    · exact .inl ⟨hc, hb, ha⟩
    · exact .inr ⟨hc, hb, ha⟩
  · rintro (⟨hc, hb, ha⟩ | ⟨hc, hb, ha⟩)
    · exact ⟨hc, .inl hb, ha⟩
    · exact ⟨hc, .inr hb, ha⟩

/-- The filled circle writes its pixels inside the clip rectangle (R213). -/
theorem draws_circfillI {s : State} (hg : s.g.clipOk) (xm ym r : Int) :
    Draws s (s.circfillI xm ym r) (fun a b => s.g.inClip a b ∧ circDisc xm ym r a b) s.g.sel := by
  unfold State.circfillI circDisc
  split
  · exact Draws.refl s (fun _ _ _ h => h.2) _
  · split
    · exact draws_psetI hg xm ym
    · split
      · have h1 := draws_psetI hg xm (ym - 1)
        have h2 := draws_hlineI (s := s.psetI xm (ym - 1)) (by rw [h1.same.g]; exact hg) (xm - 1) (xm + 1) ym
        have h3 := draws_psetI (s := (s.psetI xm (ym - 1)).hlineI (xm - 1) (xm + 1) ym)
          (by rw [h2.same.g, h1.same.g]; exact hg) xm (ym + 1)
        rw [h2.same.g, h1.same.g] at h3
        rw [h1.same.g] at h2
        refine ((h1.trans h2).trans h3).congr (fun a b _ => ?_) (fun _ _ _ _ => rfl)
        simp only [List.mem_cons, List.not_mem_nil, or_false, Prod.mk.injEq]
        constructor
        · rintro ⟨hc, h⟩
          have : (a = xm ∧ b = ym - 1) ∨ (b = ym ∧ min (xm - 1) (xm + 1) ≤ a ∧ a ≤ max (xm - 1) (xm + 1)) ∨
              (a = xm ∧ b = ym + 1) := by omega
          rcases this with h | h | h
          · exact .inl (.inl ⟨hc, h⟩)
          · exact .inl (.inr ⟨hc, h⟩)
          · exact .inr ⟨hc, h⟩
        · rintro ((⟨hc, h⟩ | ⟨hc, h⟩) | ⟨hc, h⟩)
          · exact ⟨hc, by omega⟩
          · exact ⟨hc, by omega⟩
          · exact ⟨hc, by omega⟩
      · refine (Draws.foldl (v := s.g.sel) (D := fun p a b => s.g.inClip a b ∧ ((b = ym + p.2 ∨ b = ym - p.2) ∧
          min (xm + p.1) (xm - p.1) ≤ a ∧ a ≤ max (xm + p.1) (xm - p.1))) (circlePoints r) s
          (fun p t _ ht => ?_)).congr (fun a b _ => ?_) (fun _ _ _ _ => rfl)
        · have h := draws_circfillVisit (s := t) (by rw [ht.g]; exact hg) xm ym p
          rwa [ht.g] at h
        · constructor
          · rintro ⟨hc, p, hp, h⟩
            exact ⟨p, hp, hc, h⟩
          · rintro ⟨p, hp, hc, h⟩
            exact ⟨hc, p, hp, h⟩

/-- Clearing writes every pixel, whatever the clip rectangle (R200). -/
theorem draws_fillScreen (s : State) (c : Nibble) : Draws s (s.fillScreen c) (fun _ _ => True) (fun _ _ => c) := by
  unfold State.fillScreen
  refine (Draws.forRange (v := fun _ _ => c) (D := fun j _ b => b = j) (fun j t h1 h2 ht => ?_)).congr
    (fun a b hab => ?_) (fun _ _ _ _ => rfl)
  · refine (Draws.forRange (v := fun _ _ => c) (D := fun i a b => a = i ∧ b = j) (fun i u h3 h4 hu => ?_)).congr
      (fun a b hab => ?_) (fun _ _ _ _ => rfl)
    · refine Draws.setFbPix (v := fun _ _ => c) u ?_
      unfold onScreen
      omega
    · constructor
      · rintro rfl
        exact ⟨a, hab.1.1, hab.1.2, rfl, rfl⟩
      · rintro ⟨i, _, _, _, rfl⟩
        rfl
  · constructor
    · intro _
      exact ⟨b, hab.2.1, hab.2.2, rfl⟩
    · intro _
      trivial

end Sys2Proof.Machine
end

