-- ==== Sys2Proof/Laws/Blit.lean ====
section
/-! SUPPORT. What the blitting engine and MAP draw (42_blit.md, 44_sprite_map_flags.md R240). -/

namespace Sys2Proof.Machine

/-- `put` writes its pixel unless the source colour is transparent (R182). -/
theorem draws_put (s : State) {x y : Int} {c : Nibble} {v : Int → Int → Nibble} (h : onScreen x y)
    (hv : s.g.isTransparent c = false → v x y = s.g.palette c) :
    Draws s (s.put x y c) (fun a b => (a = x ∧ b = y) ∧ s.g.isTransparent c = false) v := by
  unfold State.put
  split
  · rename_i ht
    exact Draws.refl s (fun a b _ hd => by rw [ht] at hd; exact absurd hd.2 (by simp)) v
  · rename_i ht
    have ht : s.g.isTransparent c = false := by simpa using ht
    rw [← hv ht]
    exact (Draws.setFbPix (v := v) s h).congr (fun a b _ => ⟨fun h => h.1, fun h => ⟨h, ht⟩⟩) (fun _ _ _ _ => rfl)

/-- A loop over a window of the screen that puts the colour `c x y` at each pixel: the shape of both blits. -/
theorem draws_putWindow {s : State} {xa xb ya yb : Int} (hx : 0 ≤ xa ∧ xb ≤ 127) (hy : 0 ≤ ya ∧ yb ≤ 127)
    (c : Int → Int → Nibble) {f : Int → Int → State → State}
    (hf : ∀ x y t, SameButFb s t → f x y t = t.put x y (c x y)) :
    Draws s (forRange ya yb (fun y t => forRange xa xb (fun x u => f x y u) t) s)
      (fun a b => ((xa ≤ a ∧ a ≤ xb) ∧ (ya ≤ b ∧ b ≤ yb)) ∧ s.g.isTransparent (c a b) = false)
      (fun a b => s.g.palette (c a b)) := by
  refine (Draws.forRange (v := fun a b => s.g.palette (c a b))
    (D := fun j a b => (b = j ∧ (xa ≤ a ∧ a ≤ xb)) ∧ s.g.isTransparent (c a b) = false)
    (fun j t h1 h2 ht => ?_)).congr (fun a b _ => ?_) (fun _ _ _ _ => rfl)
  · refine (Draws.forRange (v := fun a b => s.g.palette (c a b))
      (D := fun i a b => (a = i ∧ b = j) ∧ s.g.isTransparent (c i j) = false)
      (fun i u h3 h4 hu => ?_)).congr (fun a b _ => ?_) (fun _ _ _ _ => rfl)
    · have hsu := ht.trans hu
      rw [hf i j u hsu]
      have h := draws_put u (x := i) (y := j) (c := c i j) (v := fun a b => s.g.palette (c a b))
        (by unfold onScreen; omega) (fun _ => by rw [hsu.g])
      rwa [hsu.g] at h
    · constructor
      · rintro ⟨⟨rfl, h3, h4⟩, h5⟩
        exact ⟨a, h3, h4, ⟨rfl, rfl⟩, h5⟩
      · rintro ⟨i, h3, h4, ⟨rfl, rfl⟩, h5⟩
        exact ⟨⟨rfl, h3, h4⟩, h5⟩
  · constructor
    · rintro ⟨⟨h1, h2, h3⟩, h4⟩
      exact ⟨b, h2, h3, ⟨rfl, h1⟩, h4⟩
    · rintro ⟨j, h2, h3, ⟨rfl, h1⟩, h4⟩
      exact ⟨⟨h1, h2, h3⟩, h4⟩

/-! ### Loops over a shifted range -/

theorem forCount_shift (k : Int) (f : Int → State → State) :
    ∀ (n : Nat) (a : Int) (s : State), forCount n (a + k) f s = forCount n a (fun i => f (i + k)) s
  | 0, _, _ => rfl
  | n + 1, a, s => by
    simp only [forCount]
    rw [show a + k + 1 = a + 1 + k by omega]
    exact forCount_shift k f n (a + 1) _

theorem forRange_shift (k a b : Int) (f : Int → State → State) (s : State) :
    forRange a b (fun i => f (i + k)) s = forRange (a + k) (b + k) f s := by
  unfold forRange
  rw [forCount_shift k f, show b + k - (a + k) + 1 = b - a + 1 by omega]

theorem forRange_empty {a b : Int} (h : b < a) (f : Int → State → State) (s : State) : forRange a b f s = s := by
  unfold forRange
  rw [show (b - a + 1).toNat = 0 by omega]
  rfl

theorem forCount_id (n : Nat) (a : Int) (s : State) : forCount n a (fun _ t => t) s = s := by
  induction n generalizing a with
  | zero => rfl
  | succ n ih => exact ih (a + 1)

theorem forRange_id (a b : Int) (s : State) : forRange a b (fun _ t => t) s = s := forCount_id ..

/-- Two loops whose bodies agree on the range run alike. -/
theorem forRange_congr {a b : Int} {f f' : Int → State → State} (h : ∀ i t, a ≤ i → i ≤ b → f i t = f' i t)
    (s : State) : forRange a b f s = forRange a b f' s := by
  have key : ∀ (n : Nat) (c : Int) (s : State), (∀ i t, c ≤ i → i < c + n → f i t = f' i t) →
      forCount n c f s = forCount n c f' s := by
    intro n
    induction n with
    | zero => intros; rfl
    | succ n ih =>
      intro c s hc
      simp only [forCount]
      rw [hc c s (le_refl c) (by push_cast; omega)]
      exact ih (c + 1) _ (fun i t h1 h2 => hc i t (by omega) (by push_cast; omega))
  unfold forRange
  exact key _ _ _ (fun i t h1 h2 => h i t h1 (by omega))

/-! ### clip_axis (R181) -/

/-- What `clip_axis` gives when something is left: the destination window is the intersection with the clip range, the
source start advances with it. -/
theorem clipAxis_spec (dest src len lo hi : Int) :
    (0 ≤ (clipAxis dest src len lo hi).len) ∧
      (0 < (clipAxis dest src len lo hi).len →
        (clipAxis dest src len lo hi).dest = max dest lo ∧
        (clipAxis dest src len lo hi).src = src + (max dest lo - dest) ∧
        (clipAxis dest src len lo hi).dest + (clipAxis dest src len lo hi).len = min (dest + len) hi) ∧
      ((clipAxis dest src len lo hi).len = 0 → min (dest + len) hi ≤ max dest lo) := by
  unfold clipAxis Span.cutHigh Span.cutLow
  dsimp only
  split <;> split <;> split <;> simp_all <;> omega

/-- The fixed blit is one loop over the clipped destination window (R183). -/
theorem blitter_eq_window (s : State) (scrX scrY sprX sprY w h : Int) (fx fy : Bool) :
    s.blitter scrX scrY sprX sprY w h fx fy =
      forRange (max scrY s.g.clipY1) (min (scrY + h) s.g.clipY2 - 1)
        (fun y t => forRange (max scrX s.g.clipX1) (min (scrX + w) s.g.clipX2 - 1)
          (fun x u => u.put x y
            (u.src (windowSrc fx scrX sprX w s.g.clipX1 s.g.clipX2 x)
              (windowSrc fy scrY sprY h s.g.clipY1 s.g.clipY2 y))) t) s := by
  have hX := clipAxis_spec scrX sprX w s.g.clipX1 s.g.clipX2
  have hY := clipAxis_spec scrY sprY h s.g.clipY1 s.g.clipY2
  unfold State.blitter
  split
  · rename_i hvis
    unfold State.copyWindow
    generalize clipAxis scrX sprX w s.g.clipX1 s.g.clipX2 = ax at hX ⊢
    generalize clipAxis scrY sprY h s.g.clipY1 s.g.clipY2 = ay at hY ⊢
    rcases Int.lt_or_eq_of_le hY.1 with hy | hy
    · rcases Int.lt_or_eq_of_le hX.1 with hx | hx
      · obtain ⟨hx1, hx2, hx3⟩ := hX.2.1 hx
        obtain ⟨hy1, hy2, hy3⟩ := hY.2.1 hy
        have e1 : max scrY s.g.clipY1 = 0 + ay.dest := by omega
        have e2 : min (scrY + h) s.g.clipY2 - 1 = ay.len - 1 + ay.dest := by omega
        have e3 : max scrX s.g.clipX1 = 0 + ax.dest := by omega
        have e4 : min (scrX + w) s.g.clipX2 - 1 = ax.len - 1 + ax.dest := by omega
        rw [e1, e2, ← forRange_shift]
        refine forRange_congr (fun j t _ _ => ?_) s
        rw [e3, e4, ← forRange_shift]
        refine forRange_congr (fun i u _ _ => ?_) t
        have hwx : windowSrc fx scrX sprX w s.g.clipX1 s.g.clipX2 (i + ax.dest) = ax.src + flipped fx ax.len i := by
          unfold windowSrc flipped
          split <;> omega
        have hwy : windowSrc fy scrY sprY h s.g.clipY1 s.g.clipY2 (j + ay.dest) = ay.src + flipped fy ay.len j := by
          unfold windowSrc flipped
          split <;> omega
        rw [hwx, hwy, Int.add_comm ax.dest i, Int.add_comm ay.dest j]
      · have hx0 : min (scrX + w) s.g.clipX2 - 1 < max scrX s.g.clipX1 := by have := hX.2.2 hx.symm; omega
        simp only [forRange_empty hx0, forRange_empty (show ax.len - 1 < 0 by omega), forRange_id]
    · rw [forRange_empty (by omega), forRange_empty]
      have := hY.2.2 hy.symm
      omega
  · rename_i hvis
    by_cases hx : min (scrX + w) s.g.clipX2 - 1 < max scrX s.g.clipX1
    · simp only [forRange_empty hx, forRange_id]
    · rw [forRange_empty]
      unfold Gfx.blitVisible at hvis
      omega

/-- All the fixed blit draws: the pixels of its destination rectangle inside the clip rectangle whose source colour is
not transparent, each through the palette (R182, R183). -/
theorem draws_blitter {s : State} (hg : s.g.clipOk) (scrX scrY sprX sprY w h : Int) (fx fy : Bool) :
    Draws s (s.blitter scrX scrY sprX sprY w h fx fy)
      (fun a b => s.g.inClip a b ∧ ((scrX ≤ a ∧ a < scrX + w) ∧ (scrY ≤ b ∧ b < scrY + h)) ∧
        s.g.isTransparent (s.blitColour scrX scrY sprX sprY w h fx fy a b) = false)
      (fun a b => s.g.palette (s.blitColour scrX scrY sprX sprY w h fx fy a b)) := by
  rw [blitter_eq_window]
  unfold Gfx.clipOk at hg
  refine (draws_putWindow (s := s) (xa := max scrX s.g.clipX1) (xb := min (scrX + w) s.g.clipX2 - 1)
    (ya := max scrY s.g.clipY1) (yb := min (scrY + h) s.g.clipY2 - 1) (by omega) (by omega)
    (s.blitColour scrX scrY sprX sprY w h fx fy) (fun x y t ht => ?_)).congr (fun a b _ => ?_) (fun _ _ _ _ => rfl)
  · rw [ht.src]
    rfl
  · unfold Gfx.inClip
    constructor
    · rintro ⟨h1, h2, h3⟩
      exact ⟨by omega, h3⟩
    · rintro ⟨h1, h3⟩
      exact ⟨by omega, by omega, h3⟩

/-- All the scaled blit draws (R186). -/
theorem draws_stretch {s : State} (hg : s.g.clipOk) (sprX sprY sprW sprH scrX scrY scrW scrH : Int) (fx fy : Bool) :
    Draws s (s.stretch sprX sprY sprW sprH scrX scrY scrW scrH fx fy)
      (fun a b => s.g.inClip a b ∧ ((scrX ≤ a ∧ a < scrX + scrW) ∧ (scrY ≤ b ∧ b < scrY + scrH)) ∧
        (0 < sprW ∧ 0 < sprH) ∧
        s.g.isTransparent (s.stretchColour sprX sprY sprW sprH scrX scrY scrW scrH fx fy a b) = false)
      (fun a b => s.g.palette (s.stretchColour sprX sprY sprW sprH scrX scrY scrW scrH fx fy a b)) := by
  unfold State.stretch
  split
  · refine Draws.refl s (fun a b _ hd => ?_) _
    omega
  · unfold Gfx.clipOk at hg
    refine (draws_putWindow (s := s) (xa := max scrX s.g.clipX1) (xb := min (scrX + scrW) s.g.clipX2 - 1)
      (ya := max scrY s.g.clipY1) (yb := min (scrY + scrH) s.g.clipY2 - 1) (by omega) (by omega)
      (s.stretchColour sprX sprY sprW sprH scrX scrY scrW scrH fx fy) (fun x y t ht => ?_)).congr
      (fun a b _ => ?_) (fun _ _ _ _ => rfl)
    · rw [ht.src]
      rfl
    · unfold Gfx.inClip
      constructor
      · rintro ⟨h1, h2, _, h3⟩
        exact ⟨by omega, h3⟩
      · rintro ⟨h1, h3⟩
        exact ⟨by omega, by omega, by omega, h3⟩

end Sys2Proof.Machine
end

