-- ==== Sys2Proof/Laws/MapBlock.lean ====
section
/-! SUPPORT. What MAP draws (44_sprite_map_flags.md R240). -/

namespace Sys2Proof.Machine

theorem windowSrc_unflipped (dest src len lo hi a : Int) : windowSrc false dest src len lo hi a = src + (a - dest) := by
  unfold windowSrc
  simp only [Bool.false_eq_true, if_false]
  omega

/-- The source colour of an unflipped fixed blit is the source cell at the same offset (R183). -/
theorem blitColour_unflipped (s : State) (scrX scrY sprX sprY w h a b : Int) :
    s.blitColour scrX scrY sprX sprY w h false false a b = s.src (sprX + (a - scrX)) (sprY + (b - scrY)) := by
  simp only [State.blitColour, windowSrc_unflipped]

/-- All MAP draws: inside the clip rectangle, the opaque pixels of the sprite of each drawn cell of the block, through
the palette (R240). -/
theorem draws_mapBlock {s : State} (hg : s.g.clipOk) (celX celY px py celW celH : Int) (layer : Byte) :
    Draws s (s.mapBlock celX celY px py celW celH layer)
      (fun a b => s.g.inClip a b ∧
        ((0 ≤ (a - px) / 8 ∧ (a - px) / 8 < celW) ∧ (0 ≤ (b - py) / 8 ∧ (b - py) / 8 < celH)) ∧
        s.blockDrawn celX celY layer ((a - px) / 8) ((b - py) / 8) ∧
        s.g.isTransparent (s.mapColour celX celY px py a b) = false)
      (fun a b => s.g.palette (s.mapColour celX celY px py a b)) := by
  unfold State.mapBlock
  refine (Draws.forRange (v := fun a b => s.g.palette (s.mapColour celX celY px py a b))
    (D := fun j a b => s.g.inClip a b ∧ ((0 ≤ (a - px) / 8 ∧ (a - px) / 8 < celW) ∧ (b - py) / 8 = j) ∧
        s.blockDrawn celX celY layer ((a - px) / 8) j ∧
        s.g.isTransparent (s.mapColour celX celY px py a b) = false)
    (fun j t hj1 hj2 ht => ?_)).congr (fun a b _ => ?_) (fun _ _ _ _ => rfl)
  · refine (Draws.forRange (v := fun a b => s.g.palette (s.mapColour celX celY px py a b))
      (D := fun i a b => s.g.inClip a b ∧ ((a - px) / 8 = i ∧ (b - py) / 8 = j) ∧
        s.blockDrawn celX celY layer i j ∧
        s.g.isTransparent (s.mapColour celX celY px py a b) = false)
      (fun i u hi1 hi2 hu => ?_)).congr (fun a b _ => ?_) (fun _ _ _ _ => rfl)
    · have hsu := ht.trans hu
      rw [hsu.mapCell]
      unfold State.mapDrawCell
      rw [hsu.byte (by simp)]
      split
      · rename_i hd
        have h := draws_blitter (s := u) (by rw [hsu.g]; exact hg) (px + 8 * i) (py + 8 * j)
          (spriteX (s.blockCell celX celY i j)) (spriteY (s.blockCell celX celY i j)) 8 8 false false
        rw [hsu.g] at h
        have hc : ∀ a b : Int, (a - px) / 8 = i → (b - py) / 8 = j →
            u.blitColour (px + 8 * i) (py + 8 * j) (spriteX (s.blockCell celX celY i j))
              (spriteY (s.blockCell celX celY i j)) 8 8 false false a b = s.mapColour celX celY px py a b := by
          intro a b ha hb
          rw [blitColour_unflipped, hsu.src, State.mapColour, ha, hb]
          congr 2 <;> omega
        refine h.congr (fun a b _ => ?_) (fun a b _ hh => by rw [hc a b hh.2.1.1 hh.2.1.2])
        constructor
        · rintro ⟨h1, ⟨h2, h3⟩, h4, h5⟩
          exact ⟨h1, by omega, by rw [hc a b h2 h3]; exact h5⟩
        · rintro ⟨h1, h2, h5⟩
          have h3 : (a - px) / 8 = i ∧ (b - py) / 8 = j := by omega
          exact ⟨h1, h3, hd, by rw [← hc a b h3.1 h3.2]; exact h5⟩
      · rename_i hd
        exact Draws.refl u (fun a b _ h => hd h.2.2.1) _
    · constructor
      · rintro ⟨h1, ⟨⟨h2, h3⟩, h4⟩, h5⟩
        exact ⟨(a - px) / 8, h2, by omega, h1, ⟨rfl, h4⟩, h5⟩
      · rintro ⟨i, h2, h3, h1, ⟨rfl, h4⟩, h5⟩
        exact ⟨h1, ⟨⟨h2, by omega⟩, h4⟩, h5⟩
  · constructor
    · rintro ⟨h1, ⟨h2, h3, h4⟩, h5⟩
      exact ⟨(b - py) / 8, h3, by omega, h1, ⟨h2, rfl⟩, h5⟩
    · rintro ⟨j, h3, h4, h1, ⟨h2, rfl⟩, h5⟩
      exact ⟨h1, ⟨h2, h3, by omega⟩, h5⟩

end Sys2Proof.Machine
end

