-- ==== Sys2Proof/Laws/Commands.lean ====
section
/-! SUPPORT. From what an operation draws to what a claim says of the command: completion, the optional colour word, and
the operand helpers (30_encoding.md R101, R104). -/

namespace Sys2Proof.Machine

/-! ### Operand helpers -/

theorem loNibble_lo8 (w : Word) : loNibble (lo8 w) = w.extractLsb' 0 4 := by
  apply BitVec.eq_of_getLsbD_eq
  intro k hk
  unfold loNibble lo8
  simp only [BitVec.getLsbD_extractLsb', hk, decide_true, Bool.true_and, Nat.zero_add, Bool.and_eq_right_iff_imp,
    decide_eq_true_eq]
  intro _
  omega

theorem hiNibble_lo8 (w : Word) : hiNibble (lo8 w) = w.extractLsb' 4 4 := by
  apply BitVec.eq_of_getLsbD_eq
  intro k hk
  unfold hiNibble lo8
  simp only [BitVec.getLsbD_extractLsb', hk, decide_true, Bool.true_and, Nat.zero_add, Bool.and_eq_right_iff_imp,
    decide_eq_true_eq]
  intro _
  omega

theorem lo8_toNat (w : Word) : (lo8 w).toNat = w.toNat % 256 := by
  unfold lo8
  simp

theorem lo3_eq (w : Word) : lo3 w = w.toNat % 8 := by
  unfold lo3
  simp

/-- The sprite id's cell, from the operand word (10_state.md R42, 42_blit.md R185). -/
theorem spriteX_lo8 (w : Word) : spriteX (lo8 w) = 8 * (w.toNat % 16 : Nat) := by
  unfold spriteX
  rw [lo8_toNat]
  omega

theorem spriteY_lo8 (w : Word) : spriteY (lo8 w) = 8 * (w.toNat % 256 / 16 : Nat) := by
  unfold spriteY
  rw [lo8_toNat]

/-! ### The colour word -/

/-- What the optional colour word leaves of the graphics state (R104, 41_graphics_state.md R151). -/
theorem colorWord_g (s : State) (cw : Option Word) : (s.colorWord cw).g = s.g.colored cw := by
  cases cw with
  | none => rfl
  | some w => simp only [State.colorWord_some, State.color_g, Gfx.colored, loNibble_lo8, hiNibble_lo8]

theorem Gfx.inClip_colored (g : Gfx) (cw : Option Word) (a b : Int) : (g.colored cw).inClip a b ↔ g.inClip a b := by
  cases cw <;> exact Iff.rfl

theorem clipOk_colorWord {s : State} (h : s.g.clipOk) (cw : Option Word) : (s.colorWord cw).g.clipOk := by
  rw [colorWord_g]
  cases cw <;> exact h

/-! ### Completion -/

/-- A drawing that completes. -/
theorem Draws.completes {s t : State} {D : Int → Int → Prop} {v : Int → Int → Nibble} (h : Draws s t D v)
    (r : Word32) : s.Completes (t.complete r) s.g r :=
  ⟨h.same.g, h.same.fault, h.same.input, h.same.epoch, rfl, by simp [h.same.ci]⟩

theorem State.Paints.complete {s t : State} {D : Int → Int → Prop} {v : Int → Int → Nibble} (h : s.Paints t D v)
    (r : Word32) : s.Paints (t.complete r) D v :=
  ⟨h.drawn, h.kept, h.bytes⟩

/-- A drawing after an optional colour word, as claims state it: from the state before the word. -/
theorem draws_after_colorWord {s t : State} {cw : Option Word} {P Q : Int → Int → Prop}
    (h : Draws (s.colorWord cw) t (fun a b => (s.colorWord cw).g.inClip a b ∧ P a b) (s.colorWord cw).g.sel)
    (hPQ : ∀ a b, Q a b ↔ P a b) :
    s.Completes (t.complete 0) (s.g.colored cw) 0 ∧
      s.Paints (t.complete 0) (fun a b => s.g.inClip a b ∧ Q a b) (s.g.colored cw).sel := by
  have c := h.completes 0
  have p := (h.congr (E := fun a b => s.g.inClip a b ∧ Q a b) (w := (s.colorWord cw).g.sel)
    (fun a b _ => by rw [colorWord_g, Gfx.inClip_colored, hPQ]) (fun _ _ _ _ => rfl)).paints
  rw [colorWord_g] at c p
  refine ⟨⟨c.1, ?_, ?_, ?_, rfl, ?_⟩, p.1, fun x y hx hd => ?_, fun S i hi => ?_⟩
  · rw [c.2, State.colorWord_fault]
  · rw [c.3, State.colorWord_input]
  · rw [c.4, State.colorWord_epoch]
  · rw [c.6, State.colorWord_ci]
  · rw [State.complete_fbPix, p.2 x y hx hd]
    simp only [State.fbPix, State.nib, State.colorWord_byte]
  · rw [State.complete_byte, p.3 S i hi, State.colorWord_byte]

/-! ### Scaling by one -/

/-- With equal sizes the 16.16 step is exactly one cell (42_blit.md R188). -/
theorem scaledSrc_unit (src len k : Int) (h : 0 < len) : scaledSrc src len len k = src + k := by
  unfold scaledSrc
  rw [Int.mul_ediv_cancel_left _ (by omega : len ≠ 0)]
  omega

/-! ### Bytes of 32-bit values -/

/-- The four bytes of a composed word, lowest address least significant (20_memory.md R74). -/
theorem byteOf_word32Of (b0 b1 b2 b3 : Byte) :
    byteOf (word32Of b0 b1 b2 b3) 0 = b0 ∧ byteOf (word32Of b0 b1 b2 b3) 1 = b1 ∧
      byteOf (word32Of b0 b1 b2 b3) 2 = b2 ∧ byteOf (word32Of b0 b1 b2 b3) 3 = b3 := by
  have hb : ∀ (n k : Nat), k < 8 → (word32Of b0 b1 b2 b3).getLsbD (8 * n + k) =
      if n = 0 then b0.getLsbD k else if n = 1 then b1.getLsbD k else if n = 2 then b2.getLsbD k
      else b3.getLsbD (8 * n + k - 24) := by
    intro n k hk
    unfold word32Of
    simp only [BitVec.getLsbD_append]
    by_cases h0 : n = 0
    · subst h0
      simp [hk]
    · by_cases h1 : n = 1
      · subst h1
        simp [hk]
      · by_cases h2 : n = 2
        · subst h2
          simp [show ¬ 16 + k < 8 by omega, show ¬ 16 + k - 8 < 8 by omega, show 16 + k - 8 - 8 = k by omega, hk]
        · simp [h0, h1, h2, show ¬ 8 * n + k < 8 by omega, show ¬ 8 * n + k - 8 < 8 by omega,
            show ¬ 8 * n + k - 8 - 8 < 8 by omega, show 8 * n + k - 8 - 8 - 8 = 8 * n + k - 24 by omega]
  refine ⟨?_, ?_, ?_, ?_⟩ <;> (apply BitVec.eq_of_getLsbD_eq; intro k hk; unfold byteOf; rw [BitVec.getLsbD_extractLsb'])
  · rw [hb 0 k hk]
    simp [hk]
  · rw [hb 1 k hk]
    simp [hk]
  · rw [hb 2 k hk]
    simp [hk]
  · rw [hb 3 k hk]
    simp [hk, show 24 + k - 24 = k by omega]

end Sys2Proof.Machine
end

