-- ==== Sys2Proof/Laws/Decode.lean ====
section
/-! SUPPORT. The decoder, once: what it gives when it answers, when it answers, and how words are taken from what the
host presents (30_encoding.md R100 to R108). -/

namespace Sys2Proof

/-! ### Taking words -/

theorem takeWords_append : ∀ ops rest : List Word, takeWords ops.length (ops ++ rest) = some (ops, rest)
  | [], _ => rfl
  | _ :: ops, rest => by simp [takeWords, takeWords_append ops rest]

theorem takeWords_short : ∀ (n : Nat) (ws : List Word), ws.length < n → takeWords n ws = none
  | 0, _, h => by omega
  | _ + 1, [], _ => rfl
  | n + 1, _ :: ws, h => by simp [takeWords, takeWords_short n ws (by simpa using h)]

/-- All `takeWords` can do: the stream is the words taken and the rest. -/
theorem takeWords_some : ∀ (n : Nat) (ws : List Word) (p : List Word × List Word),
    takeWords n ws = some p → ws = p.1 ++ p.2 ∧ p.1.length = n
  | 0, ws, p, h => by
    simp only [takeWords, Option.some.injEq] at h
    subst h
    simp
  | n + 1, [], p, h => by cases h
  | n + 1, w :: ws, p, h => by
    simp only [takeWords, Option.map_eq_some_iff] at h
    obtain ⟨q, hq, rfl⟩ := h
    obtain ⟨h1, h2⟩ := takeWords_some n ws q hq
    simp [← h1, h2]

/-! ### Headers -/

/-- A header is its opcode and its modifier byte (R102). -/
theorem header_fields (h : Word) : header (opcodeField h) (modField h) = h := by
  apply BitVec.eq_of_getLsbD_eq
  intro k hk
  unfold header opcodeField modField
  rw [BitVec.getLsbD_append, BitVec.getLsbD_extractLsb', BitVec.getLsbD_extractLsb']
  by_cases h8 : k < 8
  · simp [h8]
  · have h1 : k - 8 < 8 := by omega
    have h2 : 8 + (k - 8) = k := by omega
    simp [h8, h1, h2]

theorem opcodeField_toNat (h : Word) : (opcodeField h).toNat = h.toNat / 256 := by
  have := h.isLt
  unfold opcodeField
  simp only [BitVec.extractLsb'_toNat, Nat.shiftRight_eq_div_pow]
  omega

theorem modField_bit (h : Word) {k : Nat} (hk : k < 8) : (modField h).getLsbD k = h.getLsbD k := by
  unfold modField
  simp [hk]

theorem mem_of_findRow {h : Word} {r : OpRow} (hr : findRow h = some r) : r ∈ opTable ∧ r.code = opcodeField h :=
  ⟨List.mem_of_find?_eq_some hr, by simpa using List.find?_some hr⟩

/-- The modifier byte of a row that allows no bit, only `V`, only `T`, only `C`, or only the flips (R102). -/
theorem mods_none : ∀ m : BitVec 8, m &&& ~~~(0x00#8) = 0 → m = 0 := by decide
theorem mods_V : ∀ m : BitVec 8, m &&& ~~~(0x08#8) = 0 → m = bitV (modV m) ∧ modC m = false := by decide
theorem mods_T : ∀ m : BitVec 8, m &&& ~~~(0x10#8) = 0 → m = bitT (modT m) ∧ modC m = false := by decide
theorem mods_C : ∀ m : BitVec 8, m &&& ~~~(0x01#8) = 0 → m = if modC m then 0x01 else 0x00 := by decide
theorem mods_XY : ∀ m : BitVec 8, m &&& ~~~(0x06#8) = 0 → m = bitsXY (modX m) (modY m) ∧ modC m = false := by decide

/-! ### The decoder -/

/-- A row's command is built from as many operand words as the row says (R105, R107). -/
theorem buildInstr_some {r : OpRow} (hr : r ∈ opTable) (m : BitVec 8) {ops : List Word}
    (h : ops.length = r.operands) (cw : Option Word) : ∃ i, buildInstr r.opcode m ops cw = some i := by
  simp only [opTable, opRowsAddress, opRowsState, opRowsPrimitive, opRowsStore, opRowsBlit, opRowsIntegrity,
    List.cons_append, List.nil_append, List.mem_cons, List.not_mem_nil, or_false] at hr
  rcases hr with e | e | e | e | e | e | e | e | e | e | e | e | e | e | e | e | e | e | e | e | e | e | e | e | e |
    e | e | e | e | e | e | e | e | e | e | e | e | e | e | e | e | e | e <;> subst e
  all_goals
    rcases ops with _ | ⟨_, _ | ⟨_, _ | ⟨_, _ | ⟨_, _ | ⟨_, _ | ⟨_, _ | ⟨_, _ | ⟨_, _ | ⟨_, _⟩⟩⟩⟩⟩⟩⟩⟩⟩ <;>
      first | (simp at h; done) | exact ⟨_, rfl⟩

/-- All the decoder can accept: a header of the table with allowed modifiers, its operand words, the colour word when
`C` is set, and the rest. -/
theorem decode_inv {ws : List Word} {i : Instr} {rest : List Word} (h : decode ws = .ok (i, rest)) :
    ∃ hd r ops cw, ws = hd :: (ops ++ (Option.toList cw ++ rest)) ∧ findRow hd = some r ∧
      modField hd &&& ~~~r.mods = 0 ∧ ops.length = r.operands ∧ cw.isSome = modC (modField hd) ∧
      buildInstr r.opcode (modField hd) ops cw = some i := by
  cases ws with
  | nil => cases h
  | cons hd ws =>
    cases hr : findRow hd with
    | none =>
      simp only [decode, hr] at h
      cases h
    | some r =>
      simp only [decode, hr] at h
      by_cases hm : modField hd &&& ~~~r.mods = 0
      · rw [if_pos hm] at h
        unfold decodeBody at h
        split at h
        · cases h
        · rename_i ops rest' ht
          obtain ⟨h1, h2⟩ := takeWords_some _ _ _ ht
          simp only at h1 h2
          split at h
          · cases h
          · rename_i cw rest'' hC
            split at h
            · rename_i hb
              injection h with h
              injection h with ha hb'
              subst ha hb'
              exact ⟨hd, r, ops, some cw, by simp [h1], hr, hm, h2, by simp [hC], hb⟩
            · cases h
          · rename_i hC
            split at h
            · rename_i hb
              injection h with h
              injection h with ha hb'
              subst ha hb'
              exact ⟨hd, r, ops, none, by simp [h1], hr, hm, h2, by simp [hC], hb⟩
            · cases h
      · rw [if_neg hm] at h
        cases h

/-- When the decoder accepts: the parts of a packet, with anything behind it. -/
theorem decode_of_parts {hd : Word} {r : OpRow} (hr : findRow hd = some r) (hm : modField hd &&& ~~~r.mods = 0)
    {ops : List Word} (rest : List Word) {cw : Option Word} (h : ops.length = r.operands)
    (hc : cw.isSome = modC (modField hd)) :
    ∃ i, decode (hd :: (ops ++ (Option.toList cw ++ rest))) = .ok (i, rest) := by
  obtain ⟨i, hi⟩ := buildInstr_some (mem_of_findRow hr).1 (modField hd) h cw
  refine ⟨i, ?_⟩
  simp only [decode, hr, hm, if_true, decodeBody]
  rw [← h, takeWords_append]
  cases cw with
  | none =>
    simp only [Option.isSome] at hc
    simp only [← hc, Option.toList_none, List.nil_append, hi]
  | some w =>
    simp only [Option.isSome] at hc
    simp only [← hc, Option.toList_some, List.singleton_append, hi]

/-- A packet that ends before its length is rejected as short (R108 (c)). -/
theorem decode_short {hd : Word} {r : OpRow} (hr : findRow hd = some r) (hm : modField hd &&& ~~~r.mods = 0)
    {ws : List Word} (h : ws.length < r.operands + if modC (modField hd) then 1 else 0) :
    decode (hd :: ws) = .error (.shortPacket hd) := by
  simp only [decode, hr, hm, if_true, decodeBody]
  by_cases hl : ws.length < r.operands
  · rw [takeWords_short _ _ hl]
  · by_cases hC : modC (modField hd) = true
    · rw [if_pos hC] at h
      have ht := takeWords_append ws []
      rw [show ws.length = r.operands by omega, List.append_nil] at ht
      rw [ht]
      simp only [hC]
    · rw [if_neg hC] at h
      omega

/-- The checks of R108 on a packet, in one condition on its header and its length. -/
theorem Packet.wellFormed_cons (hd : Word) (ws : List Word) :
    Packet.wellFormed (hd :: ws) = true ↔
      ∃ r, findRow hd = some r ∧ modField hd &&& ~~~r.mods = 0 ∧
        ws.length = r.operands + if modC (modField hd) then 1 else 0 := by
  simp only [Packet.wellFormed, Packet.opcodeKnown, Packet.modifiersAllowed, Packet.lengthExact, packetLength]
  cases hr : findRow hd with
  | none => simp
  | some r =>
    by_cases hm : modField hd &&& ~~~r.mods = 0
    · simp [hm]
      omega
    · simp [show ¬ modField hd &&& ~~~r.mods = 0#8 from hm]

end Sys2Proof

namespace Sys2Proof.Machine

/-! ### What the host presents -/

/-- Words presented in front are fetched in front. -/
theorem fetchWords_presentWords (ws : List Word) (es : List HostEvent) :
    fetchWords (presentWords ws ++ es) = (ws ++ (fetchWords es).1, (fetchWords es).2) := by
  induction ws with
  | nil => rfl
  | cons w ws ih =>
    show fetchWords (.word w :: (presentWords ws ++ es)) = _
    simp only [fetchWords, ih]
    rfl

/-- Up to the next reset or the end of the stream, exactly the presented words are fetched. -/
theorem fetchWords_until {ws : List Word} {es : List HostEvent} (h : es = [] ∨ ∃ es', es = .reset :: es') :
    fetchWords (presentWords ws ++ es) = (ws, es) := by
  rw [fetchWords_presentWords]
  rcases h with rfl | ⟨es', rfl⟩ <;> simp [fetchWords]

/-- Fetching loses nothing. -/
theorem presentWords_fetchWords (es : List HostEvent) : presentWords (fetchWords es).1 ++ (fetchWords es).2 = es := by
  induction es with
  | nil => rfl
  | cons e es ih =>
    cases e with
    | reset => rfl
    | word w =>
      simp only [fetchWords, presentWords, List.map_cons, List.cons_append] at *
      rw [ih]

end Sys2Proof.Machine
end

