-- ==== Sys2Proof/Laws/Router.lean ====
section
/-! SUPPORT. The router: the routing table read range by range, and what a byte read and a byte write do (20_memory.md
R62 to R68). -/

namespace Sys2Proof.Machine

/-- What a row gives an address: packing, store, element or byte. -/
def Region.target (r : Region) (a : Word) : Packing × Store × Nat := (r.packing, r.store, u16 a - r.base)

theorem find_region (r : Region) (rs : List Region) (n : Nat) :
    (r :: rs).find? (fun r => r.holds n) =
      if r.base ≤ n ∧ n < r.base + r.size then some r else rs.find? (fun r => r.holds n) := by
  rw [List.find?_cons]
  unfold Region.holds
  by_cases h1 : r.base ≤ n <;> by_cases h2 : n < r.base + r.size <;> simp [h1, h2]

/-- The eleven ranges of the address space (R62). -/
theorem address_ranges (n : Nat) (hn : n < 65536) :
    n ≤ 0x1FFF ∨ (0x2000 ≤ n ∧ n ≤ 0x2FFF) ∨ (0x3000 ≤ n ∧ n ≤ 0x3FFF) ∨ (0x4000 ≤ n ∧ n ≤ 0x4FFF) ∨
      (0x5000 ≤ n ∧ n ≤ 0x50FF) ∨ (0x5100 ≤ n ∧ n ≤ 0x5FFF) ∨ (0x6000 ≤ n ∧ n ≤ 0x9FFF) ∨
      (0xA000 ≤ n ∧ n ≤ 0xDFFF) ∨ (0xE000 ≤ n ∧ n ≤ 0xE0FF) ∨ (0xE100 ≤ n ∧ n ≤ 0xEFFF) ∨
      (0xF000 ≤ n ∧ n ≤ 0xFFFF) := by omega

/-- The table's search and the list of ranges agree (R62, R66). -/
theorem route_target (v : Bool) (a : Word) : (route v a).map (fun r => r.target a) = addressTarget v (u16 a) := by
  have ha : u16 a < 65536 := a.isLt
  unfold route routingTable addressTarget Region.target
  generalize u16 a = n at ha ⊢
  cases v <;> simp only [dualRegion, find_region, List.find?_nil, if_true, if_false, Bool.false_eq_true] <;>
    rcases address_ranges n ha with h | h | h | h | h | h | h | h | h | h | h <;>
    simp (disch := omega) only [if_pos, if_neg, Option.map_some, Option.map_none, Nat.sub_zero]

/-- What a byte read answers, by target (R66, R68). -/
def State.readTarget (s : State) : Option (Packing × Store × Nat) → Byte
  | none => 0
  | some (.nibble, S, e) => (s.nib S e).setWidth 8
  | some (.linear, S, i) => s.byte S i

/-- What a byte write does, by target (R67, R68). -/
def State.writeTarget (s : State) (d : Byte) : Option (Packing × Store × Nat) → State
  | none => s
  | some (.nibble, S, e) => s.setNib S e (loNibble d)
  | some (.linear, S, i) => s.setByte S i d

theorem memRead8_eq (s : State) (v : Bool) (a : Word) : s.memRead8 v a = s.readTarget (addressTarget v (u16 a)) := by
  rw [← route_target]
  unfold State.memRead8
  cases route v a with
  | none => rfl
  | some r => cases hp : r.packing <;> simp [State.readTarget, Region.target, hp]

theorem memWrite8_eq (s : State) (v : Bool) (a : Word) (d : Byte) :
    s.memWrite8 v a d = s.writeTarget d (addressTarget v (u16 a)) := by
  rw [← route_target]
  unfold State.memWrite8
  cases route v a with
  | none => rfl
  | some r => cases hp : r.packing <;> simp [State.writeTarget, Region.target, hp]

/-- LOADB's packing test reads the same ranges (40_address_space.md R138). -/
theorem nibbleRouted_eq (v : Bool) (a : Word) :
    nibbleRouted v a = true ↔ ∃ S e, addressTarget v (u16 a) = some (.nibble, S, e) := by
  rw [← route_target]
  unfold nibbleRouted
  cases route v a with
  | none => simp
  | some r => simp [Region.target]

@[simp] theorem memWrite8_g (s : State) (v : Bool) (a : Word) (d : Byte) : (s.memWrite8 v a d).g = s.g := by
  rw [memWrite8_eq]
  rcases addressTarget v (u16 a) with _ | ⟨_ | _, _, _⟩ <;> rfl
@[simp] theorem memWrite8_fault (s : State) (v : Bool) (a : Word) (d : Byte) :
    (s.memWrite8 v a d).fault = s.fault := by
  rw [memWrite8_eq]
  rcases addressTarget v (u16 a) with _ | ⟨_ | _, _, _⟩ <;> rfl
@[simp] theorem memWrite8_input (s : State) (v : Bool) (a : Word) (d : Byte) :
    (s.memWrite8 v a d).input = s.input := by
  rw [memWrite8_eq]
  rcases addressTarget v (u16 a) with _ | ⟨_ | _, _, _⟩ <;> rfl
@[simp] theorem memWrite8_epoch (s : State) (v : Bool) (a : Word) (d : Byte) :
    (s.memWrite8 v a d).epoch = s.epoch := by
  rw [memWrite8_eq]
  rcases addressTarget v (u16 a) with _ | ⟨_ | _, _, _⟩ <;> rfl
@[simp] theorem memWrite8_ci (s : State) (v : Bool) (a : Word) (d : Byte) : (s.memWrite8 v a d).ci = s.ci := by
  rw [memWrite8_eq]
  rcases addressTarget v (u16 a) with _ | ⟨_ | _, _, _⟩ <;> rfl

/-- A byte write changes at most the byte its address leads to (R64, R65, R67). -/
theorem byte_memWrite8 (s : State) (v : Bool) (a : Word) (d : Byte) (S : Store) (i : Nat)
    (h : addressByte v (u16 a) ≠ some (S, i)) : (s.memWrite8 v a d).byte S i = s.byte S i := by
  rw [memWrite8_eq]
  unfold addressByte at h
  rcases ht : addressTarget v (u16 a) with _ | ⟨_ | _, T, e⟩
  · rfl
  · rw [ht] at h
    exact State.byte_setNib s T S e i _ (fun hc => h (by rw [hc.1, hc.2]))
  · rw [ht] at h
    simp only [State.writeTarget, State.byte_setByte]
    rw [if_neg]
    exact fun hc => h (by rw [hc.1, hc.2])

/-- An address leads inside its store (R62, R64, R65). -/
theorem addressByte_lt {v : Bool} {a : Nat} {S : Store} {i : Nat} (h : addressByte v a = some (S, i)) : i < S.size := by
  revert h
  unfold addressByte addressTarget
  by_cases ha : a < 65536
  · cases v <;> rcases address_ranges a ha with h | h | h | h | h | h | h | h | h | h | h <;>
      simp (disch := omega) only [if_pos, if_neg, if_true, if_false, Bool.false_eq_true, Option.some.injEq,
        Prod.mk.injEq, reduceCtorEq, false_implies] <;>
      (rintro ⟨rfl, rfl⟩; simp only [Store.size]; omega)
  · simp (disch := omega) only [if_neg]
    exact fun h => nomatch h

end Sys2Proof.Machine
end

