-- ==== Sys2Proof/Laws/Grids.lean ====
section
/-! SUPPORT. The writes by grid cell, by map index and by guard index, and the canonical form under every write
(10_state.md R34, R43, R44; 45_integrity.md R252). -/

namespace Sys2Proof.Machine

/-! ### Where the indices lead -/

theorem srcElem_lt (sel : Bool) (x y : Int) : (srcElem sel x y).2 / 2 < (srcElem sel x y).1.size := by
  unfold srcElem
  dsimp only
  split
  · simp only [Store.size]
    omega
  · split <;> simp only [Store.size] <;> omega

theorem mapElem_lt {i : Int} {S : Store} {k : Nat} (h : mapElem i = some (S, k)) : k < S.size := by
  unfold mapElem at h
  split at h
  · simp only [Option.some.injEq] at h
    split at h <;> (cases h; simp only [Store.size]; omega)
  · cases h

theorem guardElem_lt {i : Nat} {S : Store} {k : Nat} (h : guardElem i = some (S, k)) : k < S.size := by
  unfold guardElem at h
  split at h
  · cases h
    simp only [Store.size]
    omega
  · split at h
    · cases h
      simp only [Store.size]
      omega
    · cases h

/-! ### What the writes do -/

/-- All a map write does (R44, R232). -/
theorem byte_setMapCell (s : State) (i : Int) (v : Byte) (S : Store) (k : Nat) :
    (s.setMapCell i v).byte S k = if mapElem i = some (S, k) then v else s.byte S k := by
  unfold State.setMapCell
  cases h : mapElem i with
  | none => simp
  | some p =>
    obtain ⟨T, j⟩ := p
    simp only [State.byte_setByte, Option.some.injEq, Prod.mk.injEq]
    congr 1
    exact propext ⟨fun h => ⟨h.1.symm, h.2.symm⟩, fun h => ⟨h.1.symm, h.2.symm⟩⟩

/-- All a guard write does (R252). -/
theorem byte_pokeGuard (s : State) (i : Nat) (v : Byte) (S : Store) (k : Nat) :
    (s.pokeGuard i v).byte S k = if guardElem i = some (S, k) then v else s.byte S k := by
  unfold State.pokeGuard
  cases h : guardElem i with
  | none => simp
  | some p =>
    obtain ⟨T, j⟩ := p
    simp only [State.byte_setByte, Option.some.injEq, Prod.mk.injEq]
    congr 1
    exact propext ⟨fun h => ⟨h.1.symm, h.2.symm⟩, fun h => ⟨h.1.symm, h.2.symm⟩⟩

@[simp] theorem setMapCell_g (s : State) (i : Int) (v : Byte) : (s.setMapCell i v).g = s.g := by
  unfold State.setMapCell
  split <;> rfl
@[simp] theorem setMapCell_fault (s : State) (i : Int) (v : Byte) : (s.setMapCell i v).fault = s.fault := by
  unfold State.setMapCell
  split <;> rfl
@[simp] theorem setMapCell_input (s : State) (i : Int) (v : Byte) : (s.setMapCell i v).input = s.input := by
  unfold State.setMapCell
  split <;> rfl
@[simp] theorem setMapCell_epoch (s : State) (i : Int) (v : Byte) : (s.setMapCell i v).epoch = s.epoch := by
  unfold State.setMapCell
  split <;> rfl
@[simp] theorem setMapCell_ci (s : State) (i : Int) (v : Byte) : (s.setMapCell i v).ci = s.ci := by
  unfold State.setMapCell
  split <;> rfl

@[simp] theorem pokeGuard_g (s : State) (i : Nat) (v : Byte) : (s.pokeGuard i v).g = s.g := by
  unfold State.pokeGuard
  split <;> rfl
@[simp] theorem pokeGuard_fault (s : State) (i : Nat) (v : Byte) : (s.pokeGuard i v).fault = s.fault := by
  unfold State.pokeGuard
  split <;> rfl
@[simp] theorem pokeGuard_input (s : State) (i : Nat) (v : Byte) : (s.pokeGuard i v).input = s.input := by
  unfold State.pokeGuard
  split <;> rfl
@[simp] theorem pokeGuard_epoch (s : State) (i : Nat) (v : Byte) : (s.pokeGuard i v).epoch = s.epoch := by
  unfold State.pokeGuard
  split <;> rfl
@[simp] theorem pokeGuard_ci (s : State) (i : Nat) (v : Byte) : (s.pokeGuard i v).ci = s.ci := by
  unfold State.pokeGuard
  split <;> rfl

/-! ### Every write keeps the canonical form -/

theorem wf_setByte {s : State} (h : s.stores.wf) {S : Store} {i : Nat} (hi : i < S.size) (v : Byte) :
    (s.setByte S i v).stores.wf := by
  intro T
  by_cases hT : T = S
  · subst hT
    simp only [State.setByte, Stores.get_set_same]
    exact Memory.wf_write (h T) hi
  · simp only [State.setByte, Stores.get_set_other _ _ hT]
    exact h T

theorem wf_setNib {s : State} (h : s.stores.wf) {S : Store} {e : Nat} (hi : e / 2 < S.size) (v : Nibble) :
    (s.setNib S e v).stores.wf :=
  wf_setByte h hi _

theorem wf_memWrite8 {s : State} (h : s.stores.wf) (v : Bool) (a : Word) (d : Byte) :
    (s.memWrite8 v a d).stores.wf := by
  rw [memWrite8_eq]
  have hlt := fun S i => addressByte_lt (v := v) (a := u16 a) (S := S) (i := i)
  unfold addressByte at hlt
  rcases ht : addressTarget v (u16 a) with _ | ⟨_ | _, S, e⟩ <;> rw [ht] at hlt
  · exact h
  · exact wf_setNib h (hlt S (e / 2) rfl) _
  · exact wf_setByte h (hlt S e rfl) _

theorem wf_memWrite32 {s : State} (h : s.stores.wf) (v : Bool) (a : Word) (d : Word32) :
    (s.memWrite32 v a d).stores.wf :=
  wf_memWrite8 (wf_memWrite8 (wf_memWrite8 (wf_memWrite8 h _ _ _) _ _ _) _ _ _) _ _ _

theorem wf_loadByte {s : State} (h : s.stores.wf) (v : Bool) (a : Word) (b : Byte) : (s.loadByte v a b).stores.wf := by
  unfold State.loadByte
  split
  · exact wf_memWrite8 (wf_memWrite8 h _ _ _) _ _ _
  · exact wf_memWrite8 h _ _ _

theorem wf_setSrc {s : State} (h : s.stores.wf) (x y : Int) (c : Nibble) : (s.setSrc x y c).stores.wf :=
  wf_setNib h (srcElem_lt _ _ _) _

theorem wf_setMapCell {s : State} (h : s.stores.wf) (i : Int) (v : Byte) : (s.setMapCell i v).stores.wf := by
  unfold State.setMapCell
  cases hm : mapElem i with
  | none => exact h
  | some p => exact wf_setByte h (mapElem_lt hm) v

theorem wf_pokeGuard {s : State} (h : s.stores.wf) (i : Nat) (v : Byte) : (s.pokeGuard i v).stores.wf := by
  unfold State.pokeGuard
  cases hm : guardElem i with
  | none => exact h
  | some p => exact wf_setByte h (guardElem_lt hm) v

theorem wf_empty : Stores.empty.wf := fun S => by cases S <;> rfl

end Sys2Proof.Machine
end

