-- ==== Sys2Proof/Laws/Guards.lean ====
section
/-! SUPPORT. The guard check compares all 16384 guard bytes (45_integrity.md R253). -/

namespace Sys2Proof.Machine

/-- A byte that is listed in a store. -/
theorem Memory.lookup_of_mem {m : Memory} {c : Host.Cell} (h : c ∈ m) : ∃ v, m.lookup c.1 = some v := by
  induction m with
  | nil => cases h
  | cons d m ih =>
    simp only [Memory.lookup]
    split
    · exact ⟨_, rfl⟩
    · rename_i hd
      rcases List.mem_cons.mp h with rfl | h
      · exact absurd rfl hd
      · exact ih h

theorem Memory.mem_of_lookup {m : Memory} {i : Nat} {v : Byte} (h : m.lookup i = some v) : (i, v) ∈ m := by
  induction m with
  | nil => cases h
  | cons d m ih =>
    simp only [Memory.lookup] at h
    split at h
    · rename_i hd
      injection h with h
      subst hd
      subst h
      exact List.mem_cons_self ..
    · exact List.mem_cons_of_mem _ (ih h)

theorem guardArrayIntact_iff {s : State} {S : Store} (hS : ∀ i, resetByte S i = some (BitVec.ofNat 8 i)) :
    s.guardArrayIntact S = true ↔ ∀ i : Nat, i < 8192 → s.byte S i = BitVec.ofNat 8 i := by
  simp only [State.guardArrayIntact, List.all_eq_true, Bool.or_eq_true, decide_eq_true_eq]
  constructor
  · intro h i hi
    cases hl : (s.stores.get S).lookup i with
    | none => simp [State.byte, hl, State.unlisted, hS]
    | some v =>
      have := h (i, v) (Memory.mem_of_lookup hl)
      exact this.resolve_left (by simp only; omega)
  · intro h c _
    by_cases hc : 8192 ≤ c.1
    · exact .inl hc
    · exact .inr (h c.1 (by omega))

/-- `guard_check()` finds no difference exactly when every guard byte holds the pattern (R253). -/
theorem guardsIntact_iff (s : State) : s.guardsIntact = true ↔ s.GuardsHold := by
  unfold State.guardsIntact State.GuardsHold
  rw [Bool.and_eq_true, guardArrayIntact_iff (fun _ => rfl), guardArrayIntact_iff (fun _ => rfl)]
  exact ⟨fun h i hi => ⟨h.1 i hi, h.2 i hi⟩, fun h => ⟨fun i hi => (h i hi).1, fun i hi => (h i hi).2⟩⟩

end Sys2Proof.Machine
end

