-- ==== Sys2Proof/Laws/PerInstr.lean ====
section
/-! SUPPORT. Per-command families: every command's packet is well formed, whatever its operands (30_encoding.md R108,
R109). -/

namespace Sys2Proof.Laws.PacketWellFormed

/-- The packet the encoder writes for a command passes the checks of R108. -/
def Statement (i : Instr) : Prop := i.wellFormed = true

theorem rd8 (v : Bool) (addr : Word) :
    Statement (.rd8 v addr) := by cases v <;> rfl
theorem wr8 (v : Bool) (addr data : Word) :
    Statement (.wr8 v addr data) := by cases v <;> rfl
theorem rd32 (v : Bool) (addr : Word) :
    Statement (.rd32 v addr) := by cases v <;> rfl
theorem wr32 (v : Bool) (addr dataLo dataHi : Word) :
    Statement (.wr32 v addr dataLo dataHi) := by cases v <;> rfl
theorem loadb (v : Bool) (addr data : Word) :
    Statement (.loadb v addr data) := by cases v <;> rfl
theorem color (c : Word) :
    Statement (.color c) := rfl
theorem pal (c0 c1 : Word) :
    Statement (.pal c0 c1) := rfl
theorem palrst :
    Statement (.palrst) := rfl
theorem palt (t : Bool) (c : Word) :
    Statement (.palt t c) := by cases t <;> rfl
theorem paltrst :
    Statement (.paltrst) := rfl
theorem clip (x1 y1 x2 y2 : Word) :
    Statement (.clip x1 y1 x2 y2) := rfl
theorem cliprst :
    Statement (.cliprst) := rfl
theorem camera (x y : Word) :
    Statement (.camera x y) := rfl
theorem camrst :
    Statement (.camrst) := rfl
theorem fillp (p : Word) :
    Statement (.fillp p) := rfl
theorem fillprst :
    Statement (.fillprst) := rfl
theorem restore :
    Statement (.restore) := rfl
theorem selsheet (t : Bool) :
    Statement (.selsheet t) := by cases t <;> rfl
theorem cls (c : Word) :
    Statement (.cls c) := rfl
theorem pget (x y : Word) :
    Statement (.pget x y) := rfl
theorem pset (x y : Word) (cw : Option Word) :
    Statement (.pset x y cw) := by
  unfold Statement; cases cw <;> (simp only [Instr.wellFormed, encode, bitC, Option.isSome, if_true]; rfl)
theorem hline (x0 x1 y : Word) (cw : Option Word) :
    Statement (.hline x0 x1 y cw) := by
  unfold Statement; cases cw <;> (simp only [Instr.wellFormed, encode, bitC, Option.isSome, if_true]; rfl)
theorem vline (x y0 y1 : Word) (cw : Option Word) :
    Statement (.vline x y0 y1 cw) := by
  unfold Statement; cases cw <;> (simp only [Instr.wellFormed, encode, bitC, Option.isSome, if_true]; rfl)
theorem line (x0 y0 x1 y1 : Word) (cw : Option Word) :
    Statement (.line x0 y0 x1 y1 cw) := by
  unfold Statement; cases cw <;> (simp only [Instr.wellFormed, encode, bitC, Option.isSome, if_true]; rfl)
theorem rect (x0 y0 x1 y1 : Word) (cw : Option Word) :
    Statement (.rect x0 y0 x1 y1 cw) := by
  unfold Statement; cases cw <;> (simp only [Instr.wellFormed, encode, bitC, Option.isSome, if_true]; rfl)
theorem rectfill (x0 y0 x1 y1 : Word) (cw : Option Word) :
    Statement (.rectfill x0 y0 x1 y1 cw) := by
  unfold Statement; cases cw <;> (simp only [Instr.wellFormed, encode, bitC, Option.isSome, if_true]; rfl)
theorem circ (x y r : Word) (cw : Option Word) :
    Statement (.circ x y r cw) := by
  unfold Statement; cases cw <;> (simp only [Instr.wellFormed, encode, bitC, Option.isSome, if_true]; rfl)
theorem circfill (x y r : Word) (cw : Option Word) :
    Statement (.circfill x y r cw) := by
  unfold Statement; cases cw <;> (simp only [Instr.wellFormed, encode, bitC, Option.isSome, if_true]; rfl)
theorem sget (x y : Word) :
    Statement (.sget x y) := rfl
theorem sset (x y : Word) (cw : Option Word) :
    Statement (.sset x y cw) := by
  unfold Statement; cases cw <;> (simp only [Instr.wellFormed, encode, bitC, Option.isSome, if_true]; rfl)
theorem mget (x y : Word) :
    Statement (.mget x y) := rfl
theorem mset (x y v : Word) :
    Statement (.mset x y v) := rfl
theorem fget (n : Word) :
    Statement (.fget n) := rfl
theorem fset (n v : Word) :
    Statement (.fset n v) := rfl
theorem fgetb (n b : Word) :
    Statement (.fgetb n b) := rfl
theorem fsetb (t : Bool) (n b : Word) :
    Statement (.fsetb t n b) := by cases t <;> rfl
theorem blit (flipX flipY : Bool) (sx sy w h dx dy : Word) :
    Statement (.blit flipX flipY sx sy w h dx dy) := by cases flipX <;> cases flipY <;> rfl
theorem spr (flipX flipY : Bool) (n x y w h : Word) :
    Statement (.spr flipX flipY n x y w h) := by cases flipX <;> cases flipY <;> rfl
theorem sspr (flipX flipY : Bool) (sx sy sw sh dx dy dw dh : Word) :
    Statement (.sspr flipX flipY sx sy sw sh dx dy dw dh) := by cases flipX <;> cases flipY <;> rfl
theorem map (celX celY sx sy celW celH layer : Word) :
    Statement (.map celX celY sx sy celW celH layer) := rfl
theorem getbuf :
    Statement (.getbuf) := rfl
theorem check :
    Statement (.check) := rfl
theorem gpoke (idx v : Word) :
    Statement (.gpoke idx v) := rfl

end Sys2Proof.Laws.PacketWellFormed
end

