-- ==== Sys2Proof/Tests/Slice0.lean ====
section
/-! SUPPORT. The package's own tests: ill-formed packets, every command's packet written out from 30_encoding.md R107,
one-step tests whose expected values are the examples of the commands' rules, and for every statement with hypotheses a
concrete state and operands that meet them. -/

namespace Sys2Proof.Tests

open Sys2Proof.Machine

/-! ### Ill-formed packets (30_encoding.md R108) -/

/-- (a) The all-zero word is reserved, and so are opcodes beside the map's groups. -/
theorem test_wellFormed_refuses_unknown_opcode :
    Packet.wellFormed [0x0000] = false ∧ Packet.opcodeKnown 0x0600 = false ∧ Packet.opcodeKnown 0x7200 = false ∧
      Packet.opcodeKnown 0xFF00 = false ∧ Packet.opcodeKnown 0x7F00 = true := by decide

/-- (b) X on PSET, C on CLS, V on COLOR, T on PAL, and a bit of 7:5. -/
theorem test_wellFormed_refuses_reserved_modifier :
    Packet.wellFormed [0x2202, 0, 0] = false ∧ Packet.modifiersAllowed 0x2001 = false ∧
      Packet.modifiersAllowed 0x1008 = false ∧ Packet.modifiersAllowed 0x1110 = false ∧
      Packet.modifiersAllowed 0x2280 = false ∧ Packet.modifiersAllowed 0x2201 = true := by decide

/-- (c) A colour word announced and missing, an operand missing, a word too many. -/
theorem test_wellFormed_refuses_wrong_length :
    Packet.wellFormed [0x2201, 15, 15] = false ∧ Packet.wellFormed [0x2200, 15] = false ∧
      Packet.wellFormed [0x1200, 0] = false ∧ Packet.wellFormed [0x2201, 15, 15, 2] = true ∧
      Packet.wellFormed [] = false := by decide

theorem test_decode_rejects_by_name :
    decode [0x0000] = .error (.unknownOpcode 0) ∧ decode [0x2202, 0, 0] = .error (.reservedModifier 0x2202) ∧
      decode [0x2201, 15, 15] = .error (.shortPacket 0x2201) ∧ decode [] = .error .noHeader := by decide

/-! ### Every command's packet, written out from R107 -/

theorem test_decode_address :
    decode [0x0108, 0x2000] = .ok (.rd8 true 0x2000, []) ∧ decode [0x0200, 1, 2] = .ok (.wr8 false 1 2, []) ∧
    decode [0x0300, 0xFFFE, 7] = .ok (.rd32 false 0xFFFE, [7]) ∧
    decode [0x0400, 1, 2, 3] = .ok (.wr32 false 1 2 3, []) ∧
    decode [0x0508, 1, 0xA7] = .ok (.loadb true 1 0xA7, []) := by decide

theorem test_decode_state :
    decode [0x1000, 0x21] = .ok (.color 0x21, []) ∧ decode [0x1100, 8, 12] = .ok (.pal 8 12, []) ∧
    decode [0x1200] = .ok (.palrst, []) ∧ decode [0x1310, 5] = .ok (.palt true 5, []) ∧
    decode [0x1400] = .ok (.paltrst, []) ∧ decode [0x1500, 1, 2, 3, 4] = .ok (.clip 1 2 3 4, []) ∧
    decode [0x1600] = .ok (.cliprst, []) := by decide

theorem test_decode_state_rest :
    decode [0x1700, 1, 2] = .ok (.camera 1 2, []) ∧
    decode [0x1800] = .ok (.camrst, []) ∧ decode [0x1900, 0xA5A5] = .ok (.fillp 0xA5A5, []) ∧
    decode [0x1A00] = .ok (.fillprst, []) ∧ decode [0x1B00] = .ok (.restore, []) ∧
    decode [0x1C10] = .ok (.selsheet true, []) := by decide

theorem test_decode_primitives :
    decode [0x2000, 3] = .ok (.cls 3, []) ∧ decode [0x2100, 1, 2] = .ok (.pget 1 2, []) ∧
    decode [0x2201, 15, 15, 2] = .ok (.pset 15 15 (some 2), []) ∧
    decode [0x2300, 1, 2, 3] = .ok (.hline 1 2 3 none, []) ∧
    decode [0x2401, 1, 2, 3, 4] = .ok (.vline 1 2 3 (some 4), []) ∧
    decode [0x2500, 1, 2, 3, 4] = .ok (.line 1 2 3 4 none, []) ∧
    decode [0x2601, 1, 2, 3, 4, 5] = .ok (.rect 1 2 3 4 (some 5), []) ∧
    decode [0x2700, 1, 2, 3, 4] = .ok (.rectfill 1 2 3 4 none, []) ∧
    decode [0x2801, 1, 2, 3, 4] = .ok (.circ 1 2 3 (some 4), []) ∧
    decode [0x2900, 1, 2, 3] = .ok (.circfill 1 2 3 none, []) := by decide

theorem test_decode_stores :
    decode [0x3000, 1, 2] = .ok (.sget 1 2, []) ∧ decode [0x3101, 1, 2, 3] = .ok (.sset 1 2 (some 3), []) ∧
    decode [0x3200, 1, 2] = .ok (.mget 1 2, []) ∧ decode [0x3300, 1, 2, 3] = .ok (.mset 1 2 3, []) ∧
    decode [0x3400, 1] = .ok (.fget 1, []) ∧ decode [0x3500, 1, 2] = .ok (.fset 1 2, []) ∧
    decode [0x3600, 1, 2] = .ok (.fgetb 1 2, []) ∧ decode [0x3710, 1, 2] = .ok (.fsetb true 1 2, []) := by decide

theorem test_decode_blits :
    decode [0x4002, 1, 2, 3, 4, 5, 6] = .ok (.blit true false 1 2 3 4 5 6, []) ∧
    decode [0x4104, 1, 2, 3, 4, 5] = .ok (.spr false true 1 2 3 4 5, []) ∧
    decode [0x4206, 1, 2, 3, 4, 5, 6, 7, 8] = .ok (.sspr true true 1 2 3 4 5 6 7 8, []) ∧
    decode [0x4300, 1, 2, 3, 4, 5, 6, 7] = .ok (.map 1 2 3 4 5 6 7, []) := by decide

theorem test_decode_integrity :
    decode [0x7000] = .ok (.getbuf, []) ∧ decode [0x7100] = .ok (.check, []) ∧
    decode [0x7F00, 1, 2] = .ok (.gpoke 1 2, []) := by decide

theorem test_decodeTableWord :
    decodeTableWord 32 0x20000108 = some (.rd8 true 0x2000) ∧ decodeTableWord 16 0x2200 = some (.pset 0 0 none) ∧
      decodeTableWord 16 0 = none := by decide

/-! ### One step -/

/-- The state after command `i` at `s`. -/
def after (i : Instr) (s : State) : State :=
  match exec i s with
  | .next t => t
  | .fault _ => s
  | .refused _ => s

/-- The response of command `i` at `s`. -/
def answer (i : Instr) (s : State) : Option Word32 := (after i s).resp

/-- Reset with known colours 1 and 2. -/
def base : State := { State.reset with g := { Gfx.reset with fg := 1, bg := 2 } }

/-- `base` with some bytes of one store known. -/
def holding (S : Store) (m : Memory) : State := { base with stores := Stores.empty.set S m }

/-- `base` with the framebuffer bytes of pixels (0..7, 0..3) clear. -/
def screen : State :=
  holding .fb [(0, 0), (1, 0), (2, 0), (3, 0), (64, 0), (65, 0), (66, 0), (67, 0), (128, 0), (129, 0), (130, 0),
    (131, 0), (192, 0), (193, 0), (194, 0), (195, 0)]

/-- Pixels (0..n-1, y). -/
def row (s : State) (y : Int) (n : Nat) : List Nibble := (List.range n).map (fun x => s.fbPix x y)

/-- R130's example. -/
theorem test_rd8 :
    answer (.rd8 false 0) (holding .gfxLo [(0, 0xA7)]) = some 7 ∧
      answer (.rd8 false 1) (holding .gfxLo [(0, 0xA7)]) = some 10 := by decide

/-- R66: an unmapped address, and the cell half outside its row. -/
theorem test_rd8_unmapped : answer (.rd8 false 0x5100) base = some 0 ∧ answer (.rd8 true 0x3000) base = some 0 := by
  decide

/-- R131's example. -/
theorem test_wr8 : (after (.wr8 false 1 0x3C) (holding .gfxLo [(0, 0xA7)])).byte .gfxLo 0 = 0xC7 := by decide

/-- R132's example. -/
theorem test_rd32 :
    answer (.rd32 false 0xF000) (holding .scratch [(0, 0x11), (1, 0x22), (2, 0x33), (3, 0x44)]) =
      some 0x44332211 := by decide

/-- R133's examples. -/
theorem test_wr32 : (after (.wr32 false 0xF000 0x2211 0x4433) base).stores.scratch =
    [(0, 0x11), (1, 0x22), (2, 0x33), (3, 0x44)] := by decide
theorem test_wr32_screen : row (after (.wr32 false 0x6000 0x0201 0x0403) screen) 0 4 = [1, 2, 3, 4] := by decide

/-- R138's examples. -/
theorem test_loadb :
    (after (.loadb false 0 0xA7) (holding .gfxLo [(0, 0)])).byte .gfxLo 0 = 0xA7 ∧
      answer (.loadb false 0 0xA7) base = some 2 := by decide
theorem test_loadb_linear :
    (after (.loadb false 0x4000 0xA7) base).stores.mapLo = [(0, 0xA7)] ∧
      answer (.loadb false 0x4000 0xA7) base = some 0x4001 := by decide

/-- R152 to R164: the rules' examples. -/
theorem test_color : (after (.color 0x0021) base).g.fg = 1 ∧ (after (.color 7) base).g.bg = 0 := by decide
theorem test_pal : (after (.pal 8 12) base).g.palette 8 = 12 ∧ (after (.pal 8 12) base).g.palette 7 = 7 := by decide
theorem test_palrst :
    (after .palrst (after (.palt true 5) (after (.pal 3 4) base))).g.palette 3 = 3 ∧
      (after .palrst (after (.palt true 5) base)).g.isTransparent 5 = false := by decide
theorem test_palt :
    (after (.palt true 5) base).g.isTransparent 5 = true ∧ (after (.palt false 0) base).g.isTransparent 0 = false := by
  decide
theorem test_paltrst :
    (after .paltrst (after (.palt true 5) (after (.pal 3 4) base))).g.isTransparent 5 = false ∧
      (after .paltrst (after (.pal 3 4) base)).g.palette 3 = 4 := by decide
theorem test_clip :
    (after (.clip 0xFFFB 10 200 20) base).g.clipX1 = 0 ∧ (after (.clip 0xFFFB 10 200 20) base).g.clipY1 = 10 ∧
      (after (.clip 0xFFFB 10 200 20) base).g.clipX2 = 128 ∧ (after (.clip 0xFFFB 10 200 20) base).g.clipY2 = 20 := by
  decide
theorem test_cliprst : (after .cliprst (after (.clip 0 0 0 0) base)).g.clipX2 = 128 := by decide
theorem test_camera : row (after (.pset 10 20 none) (after (.camera 10 20) screen)) 0 2 = [1, 0] := by decide
theorem test_camrst : (after .camrst (after (.camera 10 20) base)).g.cameraX = 0 := by decide
theorem test_fillp :
    (after (.fillp 0xA5A5) base).g.sel 0 0 = 2 ∧ (after (.fillp 0xA5A5) base).g.sel 1 0 = 1 ∧
      (after (.fillp 0xA5A5) base).g.sel 0 1 = 1 ∧ (after (.fillp 0xA5A5) base).g.sel 1 1 = 2 := by decide
theorem test_fillprst : (after .fillprst (after (.fillp 0xFFFF) base)).g.sel 0 0 = 1 := by decide
theorem test_restore :
    (after .restore (after (.camera 5 5) (after (.pal 1 2) base))).g.cameraX = 0 ∧
      (after .restore (after (.pal 1 2) base)).g.palette 1 = 1 := by decide
theorem test_selsheet : answer (.sget 0 0) (after (.selsheet true) (holding .font [(0, 0x3C)])) = some 12 := by decide

/-- R200's example: after PAL 0, 5, CLS 0 makes the pixels 5, the last one too. -/
theorem test_cls : ∃ t, exec (.cls 0) (after (.pal 0 5) base) = .next t ∧ t.fbPix 127 127 = 5 := by
  have hf : (after (.pal 0 5) base).fault = false := rfl
  have hp : (after (.pal 0 5) base).g.palette (lo4 0) = 5 := by decide
  generalize after (.pal 0 5) base = s at hf hp
  refine ⟨(s.fillScreen (s.g.palette (lo4 0))).complete 0, State.unlessFaulted_of_running hf _, ?_⟩
  rw [State.complete_fbPix, (draws_fillScreen _ _).drawn 127 127 (by decide) trivial, hp]

/-- R201. -/
theorem test_pget :
    answer (.pget 1 0) (holding .fb [(0, 0x21)]) = some 2 ∧ answer (.pget 128 0) base = some 0 := by decide
/-- R203's example. -/
theorem test_pset :
    (after (.pset 15 15 (some 2)) (holding .fb [(967, 0x06)])).byte .fb 967 = 0x26 ∧
      (after (.pset 0xFFFF 15 (some 2)) base).g.fg = 2 := by decide
/-- R205's example. -/
theorem test_hline : row (after (.hline 3 0xFFFC 0 (some 7)) screen) 0 6 = [7, 7, 7, 7, 0, 0] := by decide
/-- R207's example. -/
theorem test_vline :
    (after (.vline 127 126 300 (some 7)) (holding .fb [(8063, 0), (8127, 0), (8191, 0)])).stores.fb =
      [(8063, 0), (8127, 0x70), (8191, 0x70)] := by decide
/-- R208's examples. -/
theorem test_line_points :
    linePoints 0 0 5 2 = [(0, 0), (1, 0), (2, 1), (3, 1), (4, 2), (5, 2)] ∧
      linePoints 4 2 0 0 = [(4, 2), (3, 1), (2, 1), (1, 0), (0, 0)] := by decide
theorem test_line : row (after (.line 0 0 5 2 (some 7)) screen) 1 6 = [0, 0, 7, 7, 0, 0] := by decide
/-- R209's example. -/
theorem test_rect :
    row (after (.rect 1 1 3 3 (some 7)) screen) 1 5 = [0, 7, 7, 7, 0] ∧
      row (after (.rect 1 1 3 3 (some 7)) screen) 2 5 = [0, 7, 0, 7, 0] := by decide
/-- R210's checkerboard of colours 1 and 2. -/
theorem test_rectfill :
    row (after (.rectfill 1 1 0 0 (some 0x21)) (after (.fillp 0xA5A5) screen)) 0 3 = [2, 1, 0] ∧
      row (after (.rectfill 1 1 0 0 (some 0x21)) (after (.fillp 0xA5A5) screen)) 1 3 = [1, 2, 0] := by decide
/-- R211's walks. -/
theorem test_circle_walk :
    circlePoints 2 = [(-2, 0), (-2, 1), (-1, 2)] ∧
      circlePoints 5 = [(-5, 0), (-5, 1), (-5, 2), (-4, 3), (-3, 4), (-2, 5), (-1, 5)] := by decide
/-- R212's example moved to (2, 2): rows 0 and 1 of the 12 pixels; and radius 1. -/
theorem test_circ :
    row (after (.circ 2 2 2 (some 7)) screen) 0 6 = [0, 7, 7, 7, 0, 0] ∧
      row (after (.circ 2 2 2 (some 7)) screen) 1 6 = [7, 0, 0, 0, 7, 0] := by decide
theorem test_circ_one : row (after (.circ 1 1 1 (some 7)) screen) 1 4 = [7, 0, 7, 0] := by decide
/-- R213's example moved to (2, 2), and the diamond of radius 1. -/
theorem test_circfill :
    row (after (.circfill 2 2 2 (some 7)) screen) 0 6 = [0, 7, 7, 7, 0, 0] ∧
      row (after (.circfill 2 2 2 (some 7)) screen) 1 6 = [7, 7, 7, 7, 7, 0] := by decide
theorem test_circfill_one : row (after (.circfill 1 1 1 (some 7)) screen) 1 4 = [7, 7, 7, 0] := by decide

/-- R230: `SGET -1, -1` reads cell (127, 127), and the example. -/
theorem test_sget :
    answer (.sget 0xFFFF 0xFFFF) (holding .shared [(4095, 0x9A)]) = some 9 ∧
      answer (.sget 1 0) (holding .gfxLo [(0, 0xA7)]) = some 10 := by decide
/-- R231's example, and the colour byte 0x2C. -/
theorem test_sset :
    (after (.sset 129 0 (some 5)) (holding .gfxLo [(0, 0xA7)])).byte .gfxLo 0 = 0x57 ∧
      (after (.sset 0 0 (some 0x2C)) base).g.bg = 2 := by decide
/-- R233's example, and R232 outside the map. -/
theorem test_mget :
    answer (.mget 2 1) (holding .mapLo [(130, 9)]) = some 9 ∧
      answer (.mget 130 0) (holding .mapLo [(130, 9)]) = some 9 ∧ answer (.mget 0xFFFF 0) base = some 0 := by decide
/-- R234's example. -/
theorem test_mset :
    answer (.sget 0 64) (after (.mset 0 32 0xA7) base) = some 7 ∧
      answer (.sget 1 64) (after (.mset 0 32 0xA7) base) = some 10 := by decide
/-- R235 to R238: the rules' examples. -/
theorem test_fget :
    answer (.fget 17) (holding .flags [(17, 5)]) = some 5 ∧ answer (.fget 256) (holding .flags [(0, 3)]) = some 3 := by
  decide
theorem test_fset : (after (.fset 17 0x105) base).stores.flags = [(17, 5)] := by decide
theorem test_fgetb :
    answer (.fgetb 17 2) (holding .flags [(17, 5)]) = some 1 ∧
      answer (.fgetb 17 1) (holding .flags [(17, 5)]) = some 0 ∧
      answer (.fgetb 17 8) (holding .flags [(17, 5)]) = some 1 := by decide
theorem test_fsetb :
    (after (.fsetb true 17 1) (holding .flags [(17, 5)])).byte .flags 17 = 7 ∧
      (after (.fsetb false 17 0) (holding .flags [(17, 7)])).byte .flags 17 = 6 := by decide

/-- The four cells of R184's example, over a screen. -/
def fourCells : State := { screen with stores := { screen.stores with gfxLo := [(0, 0x21), (64, 0x03)] } }

/-- R184's example at (1, 0), unflipped and flipped. -/
theorem test_blit :
    row (after (.blit false false 0 0 2 2 1 0) fourCells) 0 4 = [0, 1, 2, 0] ∧
      row (after (.blit false false 0 0 2 2 1 0) fourCells) 1 4 = [0, 3, 0, 0] := by decide
theorem test_blit_flipX :
    row (after (.blit true false 0 0 2 2 1 0) fourCells) 0 4 = [0, 2, 1, 0] ∧
      row (after (.blit true false 0 0 2 2 1 0) fourCells) 1 4 = [0, 0, 3, 0] := by decide
/-- R185: sprite 17 is at sheet cell (8, 8); two pixels of it through the clip rectangle. -/
theorem test_spr :
    row (after (.spr false false 17 0 0 1 1)
      { screen with
        g := { screen.g with clipX2 := 2, clipY2 := 1 }
        stores := { screen.stores with gfxLo := [(516, 0x65)] } }) 0 3 = [5, 6, 0] := by decide
/-- R187's example at (0, 0): columns 0 and 1 show source column 0, columns 2 and 3 source column 1. -/
theorem test_sspr :
    row (after (.sspr false false 0 0 2 2 0 0 4 4) fourCells) 1 5 = [1, 1, 2, 2, 0] ∧
      row (after (.sspr false false 0 0 2 2 0 0 4 4) fourCells) 2 5 = [3, 3, 0, 0, 0] := by decide
theorem test_sspr_steps :
    [0, 1, 2, 3, 4].map (scaledSrc 0 3 5) = [0, 0, 1, 1, 2] ∧
      (after (.sspr false false 0 0 2 2 0 0 0 4) fourCells).stores = fourCells.stores := by decide
/-- R240: a cell is drawn when it is not 0 and its flags satisfy the layer; two pixels through the clip rectangle. -/
def oneTile : State :=
  { screen with
    g := { screen.g with clipX2 := 2, clipY2 := 1 }
    stores := { screen.stores with gfxLo := [(4, 0x65)], mapLo := [(0, 1)], flags := [(1, 0x01)] } }
theorem test_map : row (after (.map 0 0 0 0 1 1 0) oneTile) 0 3 = [5, 6, 0] := by decide
theorem test_map_layer : (after (.map 0 0 0 0 1 1 2) oneTile).stores = oneTile.stores := by decide

/-- R250, R251: after reset GETBUF answers 0x00800080 and CHECK 1; after `GPOKE 0, 1` both raise. -/
theorem test_getbuf :
    answer .getbuf State.reset = some 0x00800080 ∧ (after .getbuf (after (.gpoke 0 1) State.reset)).fault = true := by
  decide
theorem test_check :
    answer .check State.reset = some 1 ∧ answer .check (after (.gpoke 0 1) State.reset) = none ∧
      (after .check (after (.gpoke 0 1) State.reset)).fault = true := by decide
/-- R252's examples. -/
theorem test_gpoke :
    (after (.gpoke 8192 0xFF) State.reset).byte .g2 0 = 0xFF ∧
      (after (.gpoke 300 44) State.reset).stores = State.reset.stores ∧
      (after (.gpoke 16384 1) State.reset).stores = State.reset.stores := by decide

/-- R264: while the latch is set a packet is consumed and ignored. -/
theorem test_faulted_ignores :
    (after (.wr8 false 0xF000 1) { base with fault := true }).stores = base.stores ∧
      answer (.wr8 false 0xF000 1) { base with fault := true } = none := by decide

/-- The step takes one packet and leaves the next; a reserved packet is refused (R100, R108). -/
theorem test_step :
    step { State.reset with input := [.word 0x1700, .word 5, .word 6, .word 0x1800] } =
      exec (.camera 5 6) { State.reset with input := [.word 0x1800] } := rfl
theorem test_step_refuses : step { State.reset with input := [.word 0x0000] } = .refused (.unknownOpcode 0) := rfl
theorem test_withFetchWord :
    step (State.reset.withFetchWord 32 0x20000108) = exec (.rd8 true 0x2000) State.reset := rfl

/-! ### For every statement with hypotheses, a state and operands that meet them -/

/-- The latch is clear and the clip rectangle legal at reset: the hypotheses of every drawing command's statement. -/
theorem reset_draws : State.reset.fault = false ∧ State.reset.g.clipOk := ⟨rfl, by decide⟩

/-- Intact guards at reset. -/
theorem reset_guards : State.reset.GuardsHold := fun _ _ => ⟨rfl, rfl⟩

theorem witness_StepRunsTheDecodedCommand :
    decode [0x1200, 0x1600] = .ok (.palrst, [0x1600]) ∧
      ({ State.reset with input := [.word 0x1200, .word 0x1600, .reset] } : State).input =
        presentWords [0x1200, 0x1600] ++ [.reset] := ⟨by decide, rfl⟩

theorem witness_EncodeOfDecode : decode [0x2201, 15, 15, 2, 7] = .ok (.pset 15 15 (some 2), [7]) := by decide

/-- Both ends of every range of R108 (a) and the opcodes beside them. -/
theorem witness_ReservedPacketsAreRefused_opcodes :
    (∀ op ∈ [0x00, 0x06, 0x0F, 0x1D, 0x1F, 0x2A, 0x2F, 0x38, 0x3F, 0x44, 0x6F, 0x72, 0x7E, 0x80, 0xFF],
      reservedOpcode op) ∧
    (∀ op ∈ [0x01, 0x05, 0x10, 0x1C, 0x20, 0x29, 0x30, 0x37, 0x40, 0x43, 0x70, 0x71, 0x7F], ¬ reservedOpcode op) := by
  decide

/-- Clause (b): a known opcode with bit 1 and with bit 7. Clause (c): one word and all words but one. -/
theorem witness_ReservedPacketsAreRefused :
    (¬ reservedOpcode ((0x2202 : Word).toNat / 256) ∧ (0x2202 : Word).getLsbD 1 = true ∧
      ¬ modifierAllowed ((0x2202 : Word).toNat / 256) 1) ∧
    (¬ reservedOpcode ((0x4280 : Word).toNat / 256) ∧ (0x4280 : Word).getLsbD 7 = true ∧
      ¬ modifierAllowed ((0x4280 : Word).toNat / 256) 7) ∧
    (1 < (encode (.pset 15 15 (some 2))).length ∧ 3 < (encode (.pset 15 15 (some 2))).length) := by decide

theorem witness_StepKeepsInvariant :
    State.reset.Inv ∧ step { State.reset with input := [.reset] } = .next (State.reset.applyReset []) :=
  ⟨⟨by decide, fun S => by cases S <;> rfl⟩, rfl⟩

/-- A reset alone, and one after all words of a packet but the last. -/
theorem witness_ResetEvent :
    (0 < (encode (.color 1)).length ∧ 1 < (encode (.color 1)).length) ∧
      presentWords ((encode (.color 1)).take 0) ++ [.reset] = [HostEvent.reset] ∧
      presentWords ((encode (.color 1)).take 1) ++ [.reset] = [HostEvent.word 0x1000, .reset] :=
  ⟨by decide, rfl, rfl⟩

theorem witness_IdleStepHoldsTheState : State.reset.input = [] := rfl

theorem witness_EveryCommandCompletes : State.reset.fault = false ∧ State.reset.GuardsHold := ⟨rfl, reset_guards⟩

theorem witness_IntactGuardsPassTheCheck : State.reset.fault = false ∧ State.reset.GuardsHold := ⟨rfl, reset_guards⟩

/-- The first byte of `G1` and the last of `G2` differ. -/
theorem witness_ADifferingGuardByteRaises :
    (holding .g1 [(0, 1)]).fault = false ∧ (holding .g1 [(0, 1)]).byte .g1 0 ≠ BitVec.ofNat 8 0 ∧
      (holding .g2 [(8191, 1)]).byte .g2 8191 ≠ BitVec.ofNat 8 8191 := by decide

/-- The ends of the three ranges of the index. -/
theorem witness_GpokeResult :
    State.reset.fault = false ∧ (0 : Word).toNat ≤ 8191 ∧ (8191 : Word).toNat ≤ 8191 ∧
      (8192 ≤ (8192 : Word).toNat ∧ (8192 : Word).toNat ≤ 16383) ∧
      (8192 ≤ (16383 : Word).toNat ∧ (16383 : Word).toNat ≤ 16383) ∧ 16384 ≤ (16384 : Word).toNat ∧
      16384 ≤ (65535 : Word).toNat := by decide

/-- A corrupting value and the expected one at the last index. -/
theorem witness_OneCorruptedByteIsDetected :
    State.reset.fault = false ∧ State.reset.GuardsHold ∧ (16383 : Word).toNat ≤ 16383 ∧
      (0x00 : Word).extractLsb' 0 8 ≠ (16383 : Word).extractLsb' 0 8 ∧
      (0xFF : Word).extractLsb' 0 8 = (16383 : Word).extractLsb' 0 8 := ⟨rfl, reset_guards, by decide⟩

theorem witness_OnlyGpokeWritesTheGuards :
    (∀ idx v, Instr.wr8 false 0xF000 1 ≠ .gpoke idx v) ∧
      exec (.wr8 false 0xF000 1) State.reset = .next (after (.wr8 false 0xF000 1) State.reset) :=
  ⟨fun _ _ h => by (cases h), rfl⟩

theorem witness_LatchSetOnlyByAFailedCheck :
    (holding .g1 [(0, 1)]).fault = false ∧
      exec .check (holding .g1 [(0, 1)]) = .next (holding .g1 [(0, 1)]).raiseIntegrityFault := ⟨rfl, rfl⟩

theorem witness_WithoutGpokeNoStepFaults :
    State.reset.GuardsHold ∧ State.reset.fault = false ∧
      (∀ idx v rest, decode (fetchWords State.reset.input).1 ≠ .ok (.gpoke idx v, rest)) ∧
      step State.reset = .next State.reset := ⟨reset_guards, rfl, fun _ _ _ h => by (cases h), rfl⟩

theorem witness_FaultedBlockIgnoresEveryCommand :
    ({ State.reset with fault := true, input := [.word 0x1200, .reset] } : State).input =
      presentWords (encode .palrst) ++ [.reset] := rfl

/-- One step of each kind: a packet ignored, and the reset. -/
theorem witness_FaultedUntilReset :
    step { State.reset with fault := true, input := [.word 0x1200] } = .next { State.reset with fault := true } ∧
      step { State.reset with fault := true, input := [.reset] } = .next (State.reset.applyReset []) := ⟨rfl, rfl⟩

/-- A clear latch at reset, for the statements that ask for no more (`Rd8Result` to `FlagCommandsResult`). -/
theorem witness_clearLatch : State.reset.fault = false := rfl

/-- The ends of a nibble row, and a pair. -/
theorem witness_NibbleWriteThenRead :
    (holding .gfxLo [(0, 0xA7)]).fault = false ∧ addressTarget false (0 : Word).toNat = some (.nibble, .gfxLo, 0) ∧
      addressTarget true (0x1FFF : Word).toNat = some (.nibble, .gfxLo, 8191) ∧
      State.Answers (holding .gfxLo [(0, 0xA7)]) (.rd8 false (0 ^^^ 1)) 10 :=
  ⟨rfl, rfl, rfl, ⟨_, rfl, rfl, by decide⟩⟩

/-- LOADB's last clause at both ends of a nibble row. -/
theorem witness_LoadbResult :
    addressTarget false (0x2000 : Word).toNat = some (.nibble, .shared, 0) ∧ (0x2000 : Word).toNat % 2 = 0 ∧
      addressTarget false (0x3FFE : Word).toNat = some (.nibble, .shared, 8190) ∧ (0x3FFE : Word).toNat % 2 = 0 := by
  decide

theorem witness_DualMappedViewsAlias : State.reset.fault = false ∧ State.reset.g.sheetSel = false ∧ 4095 < 4096 :=
  ⟨rfl, rfl, by decide⟩

/-- Operands for the first and the last pixel, rows at the ends of the clauses, both sheets. -/
theorem witness_GridCellsByAddress :
    State.reset.fault = false ∧ (0 : Word).toInt - State.reset.g.cameraX.toInt = ((0 : Nat) : Int) ∧
      (127 : Word).toInt - State.reset.g.cameraY.toInt = ((127 : Nat) : Int) ∧ State.reset.g.sheetSel = false ∧
      (after (.selsheet true) State.reset).g.sheetSel = true ∧ (after (.selsheet true) State.reset).fault = false ∧
      ((31 : Nat) ≤ 31 ∧ (32 : Nat) ≤ 32 ∧ (63 : Nat) ≤ 63) := by decide

theorem witness_DitherSelection :
    (0 : Int) ≤ 0 ∧ (after .fillprst base).g.pattern = 0x0000 ∧ (after (.fillp 0xFFFF) base).g.pattern = 0xFFFF := by
  decide

/-- PSET, HLINE, VLINE, LINE, RECT, RECTFILL, CIRC, CIRCFILL, BLIT, SPR, SSPR: any operands at reset. -/
theorem witness_drawing : State.reset.fault = false ∧ State.reset.g.clipOk := reset_draws

/-- Two consecutive points of a line along x, and of one along y. -/
theorem witness_LineWalkReachesBothEnds :
    (linePoints 0 0 5 2)[1]? = some (1, 0) ∧ (linePoints 0 0 5 2)[1 + 1]? = some (2, 1) ∧
      (linePoints 0 0 1 3)[2]? = some (1, 2) ∧ (linePoints 0 0 1 3)[2 + 1]? = some (1, 3) := by decide

/-- The least radius of the walk, two consecutive points and the last one. -/
theorem witness_CircleWalkEndsInItsQuadrant :
    (2 : Int) ≤ 2 ∧ (circlePoints 2)[0]? = some (-2, 0) ∧ (circlePoints 2)[0 + 1]? = some (-2, 1) ∧
      (circlePoints 2).getLast? = some (-1, 2) := by decide

/-- A meaning that is "unless faulted" answers a next state at reset. -/
theorem running {t : State} (f : State → Host.Outcome State Fault Refusal)
    (h : f State.reset = State.reset.unlessFaulted t) : f State.reset = .next t :=
  h.trans (State.unlessFaulted_of_running rfl t)

/-- A primitive and a blit that answer a next state at reset. -/
theorem witness_DrawingStaysInsideTheClipRectangle :
    State.reset.g.clipOk ∧ isPrimitive (.pset 0 0 none) = true ∧ isBlit (.blit false false 0 0 1 1 0 0) = true ∧
      (∃ t, exec (.pset 0 0 none) State.reset = .next t) ∧
      (∃ t, exec (.blit false false 0 0 1 1 0 0) State.reset = .next t) :=
  ⟨by decide, rfl, rfl, ⟨_, running (execPset 0 0 none) rfl⟩, ⟨_, running (execBlit false false 0 0 1 1 0 0) rfl⟩⟩

theorem witness_EngineProperties :
    State.reset.g.clipOk ∧ isBlit (.spr true false 1 0 0 1 1) = true ∧
      (∃ t, exec (.spr true false 1 0 0 1 1) State.reset = .next t) :=
  ⟨by decide, rfl, ⟨_, running (execSpr true false 1 0 0 1 1) rfl⟩⟩

/-- The first and last index of each half of the map. -/
theorem witness_MgetAndMsetResult :
    State.reset.fault = false ∧ (0 : Word).toInt * 128 + (0 : Word).toInt = ((0 : Nat) : Int) ∧
      (31 : Word).toInt * 128 + (127 : Word).toInt = ((4095 : Nat) : Int) ∧
      (32 : Word).toInt * 128 + (0 : Word).toInt = ((4096 : Nat) : Int) ∧
      (63 : Word).toInt * 128 + (127 : Word).toInt = ((8191 : Nat) : Int) ∧ 8191 ≤ 8191 := by decide

/-- Indices next to the map on both sides, a block wholly outside, and one of two cells across the map's edge (8191 and
8192). -/
theorem witness_MapIndexOutsideTheMap :
    State.reset.fault = false ∧ State.reset.g.clipOk ∧
      (63 : Word).toInt * 128 + (127 : Word).toInt = 8191 ∧ (63 : Word).toInt * 128 + (127 + 1 : Word).toInt = 8192 ∧
      (0 : Word).toInt * 128 + (0xFFFF : Word).toInt < 0 ∧
      8191 < (64 : Word).toInt * 128 + (0 : Word).toInt ∧
      (∀ i j : Int, 0 ≤ i → i < (1 : Word).toInt → 0 ≤ j → j < (1 : Word).toInt →
        ((64 : Word).toInt + j) * 128 + ((0 : Word).toInt + i) < 0 ∨
          8191 < ((64 : Word).toInt + j) * 128 + ((0 : Word).toInt + i)) := by
  refine ⟨rfl, by decide, by decide, by decide, by decide, by decide, fun i j h1 _ h2 _ => ?_⟩
  have e1 : (64 : Word).toInt = 64 := by decide
  have e2 : (0 : Word).toInt = 0 := by decide
  omega

/-- A block of one cell, the last of the map. -/
theorem witness_MapResult :
    State.reset.fault = false ∧ State.reset.g.clipOk ∧
      (∀ i j : Int, 0 ≤ i → i < (1 : Word).toInt → 0 ≤ j → j < (1 : Word).toInt →
        0 ≤ ((63 : Word).toInt + j) * 128 + ((127 : Word).toInt + i) ∧
          ((63 : Word).toInt + j) * 128 + ((127 : Word).toInt + i) ≤ 8191) := by
  refine ⟨rfl, by decide, fun i j h1 h2 h3 h4 => ?_⟩
  have e0 : (1 : Word).toInt = 1 := by decide
  have e1 : (63 : Word).toInt = 63 := by decide
  have e2 : (127 : Word).toInt = 127 := by decide
  omega

theorem witness_Rd8Result : State.reset.fault = false := witness_clearLatch
theorem witness_Wr8Result : State.reset.fault = false := witness_clearLatch
theorem witness_Rd32Result : State.reset.fault = false := witness_clearLatch
theorem witness_Wr32Result : State.reset.fault = false := witness_clearLatch
theorem witness_ColorResult : State.reset.fault = false := witness_clearLatch
theorem witness_PaletteResult : State.reset.fault = false := witness_clearLatch
theorem witness_TransparencyResult : State.reset.fault = false := witness_clearLatch
theorem witness_ClipResult : State.reset.fault = false := witness_clearLatch
theorem witness_CameraAndPatternResult : State.reset.fault = false := witness_clearLatch
theorem witness_RestoreAndSelsheetResult : State.reset.fault = false := witness_clearLatch
theorem witness_ClsResult : State.reset.fault = false := witness_clearLatch
theorem witness_PgetResult : State.reset.fault = false := witness_clearLatch
theorem witness_SgetAndSsetResult : State.reset.fault = false := witness_clearLatch
theorem witness_FlagCommandsResult : State.reset.fault = false := witness_clearLatch
theorem witness_PsetResult : State.reset.fault = false ∧ State.reset.g.clipOk := witness_drawing
theorem witness_HlineResult : State.reset.fault = false ∧ State.reset.g.clipOk := witness_drawing
theorem witness_VlineResult : State.reset.fault = false ∧ State.reset.g.clipOk := witness_drawing
theorem witness_LineResult : State.reset.fault = false ∧ State.reset.g.clipOk := witness_drawing
theorem witness_RectResult : State.reset.fault = false ∧ State.reset.g.clipOk := witness_drawing
theorem witness_RectfillResult : State.reset.fault = false ∧ State.reset.g.clipOk := witness_drawing
theorem witness_CircResult : State.reset.fault = false ∧ State.reset.g.clipOk := witness_drawing
theorem witness_CircfillResult : State.reset.fault = false ∧ State.reset.g.clipOk := witness_drawing
theorem witness_BlitResult : State.reset.fault = false ∧ State.reset.g.clipOk := witness_drawing
theorem witness_SprResult : State.reset.fault = false ∧ State.reset.g.clipOk := witness_drawing
theorem witness_SsprResult : State.reset.fault = false ∧ State.reset.g.clipOk := witness_drawing

end Sys2Proof.Tests
end

/-! The statements of 10_state.md: what reset leaves, the element codec, and the invariants that every step keeps. One
relation, `State.Edits`, says what a command other than GPOKE can do to the state; `exec_ends` and `step_cases` say once
how a command and a step end, and the invariants follow from these. -/

namespace Sys2Proof.Machine

/-! ### Reset (R51) -/

theorem Gfx.clipOk_reset : Gfx.reset.clipOk := by decide

/-- With nothing listed every byte is the unlisted one. -/
theorem State.byte_of_empty {s : State} (h : s.stores = Stores.empty) (S : Store) (i : Nat) :
    s.byte S i = s.unlisted S i := by
  simp [State.byte, h, Memory.lookup]

/-- The guard pattern is what the guard arrays hold where nothing is listed (R46, R51). -/
theorem State.guardsHold_of_empty {s : State} (h : s.stores = Stores.empty) : s.GuardsHold := fun i _ =>
  ⟨State.byte_of_empty h .g1 i, State.byte_of_empty h .g2 i⟩

theorem State.inv_applyReset (s : State) (es : List HostEvent) : (s.applyReset es).Inv :=
  ⟨Gfx.clipOk_reset, wf_empty⟩

theorem palette_reset (c : Nibble) : Gfx.reset.palette c = c := by
  revert c
  decide

theorem isTransparent_reset (c : Nibble) : Gfx.reset.isTransparent c = true ↔ c = 0 := by
  revert c
  decide

/-- The stores other than the guard arrays are unspecified after reset (R51). -/
theorem resetByte_bulk {S : Store} (h1 : S ≠ .g1) (h2 : S ≠ .g2) (i : Nat) : resetByte S i = none := by
  cases S with
  | g1 => exact absurd rfl h1
  | g2 => exact absurd rfl h2
  | _ => rfl

/-- Settles O7: the graphics state field by field, the stores through `State.byte_of_empty`. -/
theorem resetValues : Obligations.ResetValues := by
  refine ⟨⟨rfl, rfl, rfl⟩, ⟨rfl, rfl, rfl, rfl⟩, ⟨rfl, rfl, rfl⟩, palette_reset, isTransparent_reset, rfl,
    State.guardsHold_of_empty rfl, fun S i h1 h2 => ?_⟩
  rw [State.byte_of_empty rfl, State.unlisted, resetByte_bulk h1 h2]
  rfl

/-- Settles O8: the full clip rectangle is legal, and empty lists are canonical. -/
theorem resetMeetsInvariant : Obligations.ResetMeetsInvariant := ⟨Gfx.clipOk_reset, wf_empty⟩

/-! ### The element codec (R40, R41) -/

/-- Element `e` of a byte as a shift by whole nibbles (R40). -/
theorem nibOfByte_eq_shift (b : Byte) (e : Nat) : nibOfByte b e = (b >>> (4 * (e % 2))).setWidth 4 := by
  rcases Nat.mod_two_eq_zero_or_one e with h | h <;>
    exact BitVec.eq_of_getLsbD_eq fun k hk => by simp [nibOfByte, loNibble, hiNibble, h, hk]

theorem hiNibble_append_eq_mask (b : Byte) (v : Nibble) :
    (hiNibble b ++ v : Byte) = (b &&& 0xF0) ||| v.setWidth 8 := by
  refine BitVec.eq_of_getLsbD_eq fun k hk => ?_
  rw [getLsbD_nibbles]
  interval_cases k <;> simp [hiNibble]

theorem append_loNibble_eq_mask (b : Byte) (v : Nibble) :
    (v ++ loNibble b : Byte) = (b &&& 0x0F) ||| (v.setWidth 8 <<< 4) := by
  refine BitVec.eq_of_getLsbD_eq fun k hk => ?_
  rw [getLsbD_nibbles]
  interval_cases k <;> simp [loNibble]

/-- What an element write makes of a byte, as a mask and an or (R41). -/
theorem setNibOfByte_eq_mask (b : Byte) (e : Nat) (v : Nibble) :
    setNibOfByte b e v =
      if e % 2 = 0 then (b &&& 0xF0) ||| v.setWidth 8 else (b &&& 0x0F) ||| (v.setWidth 8 <<< 4) := by
  rw [setNibOfByte, hiNibble_append_eq_mask, append_loNibble_eq_mask]

/-- Settles O22: the codec on the byte, then the frame of an element write. -/
theorem elementReadAndWrite : Obligations.ElementReadAndWrite := by
  intro s S e v
  have other : ¬(S = S ∧ e ^^^ 1 = e) := by simp
  exact ⟨nibOfByte_eq_shift _ _, (State.byte_setByte_same ..).trans (setNibOfByte_eq_mask _ _ _),
    fun T k h => State.byte_setNib s S T e k v h, State.nib_setNib_same s S e v,
    (State.nib_setNib s S S e _ v).trans (if_neg other)⟩

/-! ### Drawing touches the framebuffer only, whatever the clip rectangle -/

theorem sameButFb_ite {s t : State} {p : Prop} [Decidable p] (h : SameButFb s t) :
    SameButFb s (if p then t else s) := by
  split
  · exact h
  · exact SameButFb.refl s

theorem SameButFb.forCount {f : Int → State → State} (hf : ∀ i t, SameButFb t (f i t)) (n : Nat) (a : Int)
    (s : State) : SameButFb s (forCount n a f s) := by
  induction n generalizing a s with
  | zero => exact SameButFb.refl s
  | succ n ih => exact (hf a s).trans (ih (a + 1) (f a s))

theorem SameButFb.forRange {f : Int → State → State} (hf : ∀ i t, SameButFb t (f i t)) (a b : Int) (s : State) :
    SameButFb s (forRange a b f s) := SameButFb.forCount hf _ a s

theorem SameButFb.foldl {α : Type} {f : State → α → State} (hf : ∀ t p, SameButFb t (f t p)) (ps : List α)
    (s : State) : SameButFb s (ps.foldl f s) := by
  induction ps generalizing s with
  | nil => exact SameButFb.refl s
  | cons p ps ih => exact (hf s p).trans (ih (f s p))

theorem sameButFb_plot (s : State) (x y : Int) : SameButFb s (s.plot x y) := sameButFb_setFbPix s x y _

theorem sameButFb_psetI (s : State) (x y : Int) : SameButFb s (s.psetI x y) := sameButFb_ite (sameButFb_plot s x y)

theorem sameButFb_hlineI (s : State) (xa xb y : Int) : SameButFb s (s.hlineI xa xb y) := by
  unfold State.hlineI
  split
  · exact SameButFb.refl s
  · exact SameButFb.forRange (fun x t => sameButFb_plot t x y) _ _ s

theorem sameButFb_vlineI (s : State) (x ya yb : Int) : SameButFb s (s.vlineI x ya yb) := by
  unfold State.vlineI
  split
  · exact SameButFb.refl s
  · exact SameButFb.forRange (fun y t => sameButFb_plot t x y) _ _ s

theorem sameButFb_rectfillI (s : State) (x0 y0 x1 y1 : Int) : SameButFb s (s.rectfillI x0 y0 x1 y1) :=
  SameButFb.forRange (fun y t => SameButFb.forRange (fun x u => sameButFb_plot u x y) _ _ t) _ _ s

theorem sameButFb_rectI (s : State) (x0 y0 x1 y1 : Int) : SameButFb s (s.rectI x0 y0 x1 y1) :=
  (((sameButFb_hlineI s x0 x1 y0).trans (sameButFb_hlineI _ x0 x1 y1)).trans (sameButFb_vlineI _ x0 y0 y1)).trans
    (sameButFb_vlineI _ x1 y0 y1)

/-- A walk of clipped pixels: LINE and CIRC (R208, R212). -/
theorem sameButFb_points (s : State) (ps : List (Int × Int)) :
    SameButFb s (ps.foldl (fun t p => t.psetI p.1 p.2) s) :=
  SameButFb.foldl (fun t p => sameButFb_psetI t p.1 p.2) ps s

theorem sameButFb_circI (s : State) (xm ym r : Int) : SameButFb s (s.circI xm ym r) := by
  rw [circI_eq]
  exact sameButFb_points s _

theorem sameButFb_circfillVisit (xm ym : Int) (s : State) (p : Int × Int) : SameButFb s (s.circfillVisit xm ym p) :=
  (sameButFb_hlineI s _ _ _).trans (sameButFb_hlineI _ _ _ _)

theorem sameButFb_circfillI (s : State) (xm ym r : Int) : SameButFb s (s.circfillI xm ym r) := by
  unfold State.circfillI
  split_ifs
  · exact SameButFb.refl s
  · exact sameButFb_psetI s xm ym
  · exact ((sameButFb_psetI s _ _).trans (sameButFb_hlineI _ _ _ _)).trans (sameButFb_psetI _ _ _)
  · exact SameButFb.foldl (sameButFb_circfillVisit xm ym) _ s

theorem sameButFb_put (s : State) (x y : Int) (c : Nibble) : SameButFb s (s.put x y c) := by
  unfold State.put
  split
  · exact SameButFb.refl s
  · exact sameButFb_setFbPix s x y _

theorem sameButFb_blitter (s : State) (scrX scrY sprX sprY w h : Int) (fx fy : Bool) :
    SameButFb s (s.blitter scrX scrY sprX sprY w h fx fy) := by
  rw [blitter_eq_window]
  exact SameButFb.forRange (fun y t => SameButFb.forRange (fun x u => sameButFb_put u x y _) _ _ t) _ _ s

theorem sameButFb_stretch (s : State) (sprX sprY sprW sprH scrX scrY scrW scrH : Int) (fx fy : Bool) :
    SameButFb s (s.stretch sprX sprY sprW sprH scrX scrY scrW scrH fx fy) := by
  unfold State.stretch
  split
  · exact SameButFb.refl s
  · exact SameButFb.forRange (fun y t => SameButFb.forRange (fun x u => sameButFb_put u x y _) _ _ t) _ _ s

theorem sameButFb_mapDrawCell (s : State) (cell layer : Byte) (px py : Int) :
    SameButFb s (s.mapDrawCell cell layer px py) := sameButFb_ite (sameButFb_blitter s _ _ _ _ _ _ _ _)

theorem sameButFb_mapBlock (s : State) (celX celY px py celW celH : Int) (layer : Byte) :
    SameButFb s (s.mapBlock celX celY px py celW celH layer) :=
  SameButFb.forRange (fun _ t => SameButFb.forRange (fun _ u => sameButFb_mapDrawCell u _ layer _ _) _ _ t) _ _ s

/-! ### What a command other than GPOKE can do to the state -/

/-- The two guard arrays (R46). -/
abbrev IsGuard (S : Store) : Prop := S = .g1 ∨ S = .g2

/-- `t` comes from `s` by writes that leave both guard arrays and the latch alone and keep the invariant. -/
structure State.Edits (s t : State) : Prop where
  guards : ∀ S k, IsGuard S → t.byte S k = s.byte S k
  fault : t.fault = s.fault
  inv : s.Inv → t.Inv

theorem State.Edits.refl (s : State) : s.Edits s := ⟨fun _ _ _ => rfl, rfl, id⟩

theorem State.Edits.trans {s t u : State} (h : s.Edits t) (h' : t.Edits u) : s.Edits u :=
  ⟨fun S k hS => (h'.guards S k hS).trans (h.guards S k hS), h'.fault.trans h.fault, h'.inv ∘ h.inv⟩

theorem State.Edits.complete {s t : State} (h : s.Edits t) (r : Word32) : s.Edits (t.complete r) :=
  ⟨h.guards, h.fault, h.inv⟩

/-- A new graphics state whose clip rectangle is legal when the old one is. -/
theorem edits_withG (s : State) {g : Gfx} (hg : s.g.clipOk → g.clipOk) : s.Edits (s.withG g) :=
  ⟨fun _ _ _ => rfl, rfl, fun h => ⟨hg h.1, h.2⟩⟩

theorem edits_color (s : State) (c : Byte) : s.Edits (s.color c) := edits_withG s id

theorem edits_colorWord (s : State) (cw : Option Word) : s.Edits (s.colorWord cw) := by
  cases cw with
  | none => exact .refl s
  | some w => exact edits_color s _

theorem edits_setByte (s : State) {S : Store} {i : Nat} (hS : ¬ IsGuard S) (hi : i < S.size) (v : Byte) :
    s.Edits (s.setByte S i v) where
  guards _ k hT := State.byte_setByte_store s i k v (fun e => hS (e ▸ hT))
  fault := rfl
  inv h := ⟨h.1, wf_setByte h.2 hi v⟩

theorem srcElem_not_guard (sel : Bool) (x y : Int) : ¬ IsGuard (srcElem sel x y).1 := by
  unfold srcElem
  dsimp only
  split_ifs <;> simp

theorem edits_setSrc (s : State) (x y : Int) (c : Nibble) : s.Edits (s.setSrc x y c) :=
  edits_setByte s (srcElem_not_guard _ _ _) (srcElem_lt _ _ _) _

theorem mapElem_not_guard {i : Int} {S : Store} {k : Nat} (h : mapElem i = some (S, k)) : ¬ IsGuard S := by
  unfold mapElem at h
  split_ifs at h <;> (cases h; decide)

theorem edits_setMapCell (s : State) (i : Int) (v : Byte) : s.Edits (s.setMapCell i v) := by
  unfold State.setMapCell
  cases h : mapElem i with
  | none => exact .refl s
  | some p => exact edits_setByte s (mapElem_not_guard h) (mapElem_lt h) v

theorem edits_setFlags (s : State) (n v : Byte) : s.Edits (s.setByte .flags n.toNat v) :=
  edits_setByte s (by decide) n.isLt v

theorem routingTable_not_guard : ∀ v, ∀ r ∈ routingTable v, ¬ IsGuard r.store := by decide

theorem addressTarget_not_guard {v : Bool} {a : Word} {p : Packing} {S : Store} {e : Nat}
    (h : addressTarget v (u16 a) = some (p, S, e)) : ¬ IsGuard S := by
  rw [← route_target, Option.map_eq_some_iff] at h
  obtain ⟨r, hr, ht⟩ := h
  cases ht
  exact routingTable_not_guard v r (List.mem_of_find?_eq_some hr)

/-- No address leads to a guard byte, since no row of the routing table shows a guard array (R62). -/
theorem addressByte_not_guard {v : Bool} {a : Word} {S : Store} {i : Nat}
    (h : addressByte v (u16 a) = some (S, i)) : ¬ IsGuard S := by
  unfold addressByte at h
  split at h <;> cases h <;> exact addressTarget_not_guard ‹_›

theorem edits_memWrite8 (s : State) (v : Bool) (a : Word) (d : Byte) : s.Edits (s.memWrite8 v a d) where
  guards S k hS := byte_memWrite8 s v a d S k (fun h => addressByte_not_guard h hS)
  fault := memWrite8_fault s v a d
  inv h := ⟨(memWrite8_g s v a d).symm ▸ h.1, wf_memWrite8 h.2 v a d⟩

theorem edits_memWrite32 (s : State) (v : Bool) (a : Word) (d : Word32) : s.Edits (s.memWrite32 v a d) :=
  (((edits_memWrite8 s v _ _).trans (edits_memWrite8 _ v _ _)).trans (edits_memWrite8 _ v _ _)).trans
    (edits_memWrite8 _ v _ _)

theorem edits_loadByte (s : State) (v : Bool) (a : Word) (b : Byte) : s.Edits (s.loadByte v a b) := by
  unfold State.loadByte
  split
  · exact (edits_memWrite8 s v _ _).trans (edits_memWrite8 _ v _ _)
  · exact edits_memWrite8 s v a b

/-- A drawing: it touches the framebuffer only, and under a legal clip rectangle it stays on the screen. -/
theorem edits_of_draws {s t : State} {D : Int → Int → Prop} {v : Int → Int → Nibble} (hfb : SameButFb s t)
    (hd : s.g.clipOk → Draws s t D v) : s.Edits t where
  guards S k hS := hfb.byte (by rintro rfl; revert hS; decide) k
  fault := hfb.fault
  inv h := ⟨hfb.g.symm ▸ h.1, (hd h.1).wf h.2⟩

/-- A drawing after the optional colour word (R104). -/
theorem edits_of_draws_colored {s t : State} {cw : Option Word} {D : Int → Int → Prop} {v : Int → Int → Nibble}
    (hfb : SameButFb (s.colorWord cw) t) (hd : (s.colorWord cw).g.clipOk → Draws (s.colorWord cw) t D v) :
    s.Edits t := (edits_colorWord s cw).trans (edits_of_draws hfb hd)

/-- Clamped clip fields are legal (R157). -/
theorem clamp_clip_range (v : Int) : 0 ≤ clamp v 0 128 ∧ clamp v 0 128 ≤ 128 := by
  unfold clamp
  omega

/-! ### How a command and a step end -/

/-- The ends of a command other than GPOKE: its packet is ignored while the latch is set, or it completes after edits,
or the guard check fails and raises IntegrityFault (60_exceptions.md R260, R264). -/
inductive State.Ends (s : State) : State → Prop where
  | ignored (hf : s.fault = true) : s.Ends s.ignored
  | completes {t : State} (hf : s.fault = false) (h : s.Edits t) (r : Word32) : s.Ends (t.complete r)
  | raises (hf : s.fault = false) (hg : ¬ s.GuardsHold) : s.Ends s.raiseIntegrityFault

theorem ends_of_edits {s t u : State} {r : Word32} (he : s.Edits t)
    (h : s.unlessFaulted (t.complete r) = .next u) : s.Ends u := by
  rcases State.unlessFaulted_cases h with ⟨hf, rfl⟩ | ⟨hf, rfl⟩
  · exact .ignored hf
  · exact .completes hf he r

theorem ends_of_gfx {s u : State} {g : Gfx} (h : s.unlessFaulted ((s.withG g).complete 0) = .next u)
    (hg : s.g.clipOk → g.clipOk) : s.Ends u := ends_of_edits (edits_withG s hg) h

theorem ends_of_check {s u : State} {r : Word32}
    (h : s.unlessFaulted (if s.guardsIntact then s.complete r else s.raiseIntegrityFault) = .next u) : s.Ends u := by
  rcases State.unlessFaulted_cases h with ⟨hf, rfl⟩ | ⟨hf, rfl⟩
  · exact .ignored hf
  · split
    · exact .completes hf (.refl s) r
    · rename_i hg
      exact .raises hf (fun h => hg ((guardsIntact_iff s).mpr h))

/-- Every command but GPOKE ends in one of the three ways of `State.Ends`. -/
theorem exec_ends {i : Instr} {s t : State} (hi : ∀ idx v, i ≠ .gpoke idx v) (h : exec i s = .next t) :
    s.Ends t := by
  cases i with
  | rd8 v addr => exact ends_of_edits (.refl s) h
  | wr8 v addr data => exact ends_of_edits (edits_memWrite8 s v addr _) h
  | rd32 v addr => exact ends_of_edits (.refl s) h
  | wr32 v addr lo hi => exact ends_of_edits (edits_memWrite32 s v addr _) h
  | loadb v addr data => exact ends_of_edits (edits_loadByte s v addr _) h
  | color c => exact ends_of_edits (edits_color s _) h
  | pal c0 c1 => exact ends_of_gfx h id
  | palrst => exact ends_of_gfx h id
  | palt t c => exact ends_of_gfx h id
  | paltrst => exact ends_of_gfx h id
  | clip x1 y1 x2 y2 =>
    exact ends_of_gfx h fun _ =>
      ⟨clamp_clip_range _, clamp_clip_range _, clamp_clip_range _, clamp_clip_range _⟩
  | cliprst => exact ends_of_gfx h fun _ => Gfx.clipOk_reset
  | camera x y => exact ends_of_gfx h id
  | camrst => exact ends_of_gfx h id
  | fillp p => exact ends_of_gfx h id
  | fillprst => exact ends_of_gfx h id
  | restore => exact ends_of_gfx h fun _ => Gfx.clipOk_reset
  | selsheet t => exact ends_of_gfx h id
  | cls c =>
    have hd := draws_fillScreen s (s.g.palette (lo4 c))
    exact ends_of_edits (edits_of_draws hd.same fun _ => hd) h
  | pget x y => exact ends_of_edits (.refl s) h
  | pset x y cw =>
    exact ends_of_edits (edits_of_draws_colored (sameButFb_psetI _ _ _) fun hg => draws_psetI hg _ _) h
  | hline x0 x1 y cw =>
    exact ends_of_edits (edits_of_draws_colored (sameButFb_hlineI _ _ _ _) fun hg => draws_hlineI hg _ _ _) h
  | vline x y0 y1 cw =>
    exact ends_of_edits (edits_of_draws_colored (sameButFb_vlineI _ _ _ _) fun hg => draws_vlineI hg _ _ _) h
  | line x0 y0 x1 y1 cw =>
    exact ends_of_edits (edits_of_draws_colored (sameButFb_points _ _) fun hg => draws_points hg _) h
  | rect x0 y0 x1 y1 cw =>
    exact ends_of_edits (edits_of_draws_colored (sameButFb_rectI _ _ _ _ _) fun hg => draws_rectI hg _ _ _ _) h
  | rectfill x0 y0 x1 y1 cw =>
    exact ends_of_edits
      (edits_of_draws_colored (sameButFb_rectfillI _ _ _ _ _) fun hg => draws_rectfillI hg _ _ _ _) h
  | circ x y r cw =>
    exact ends_of_edits (edits_of_draws_colored (sameButFb_circI _ _ _ _) fun hg => draws_circI hg _ _ _) h
  | circfill x y r cw =>
    exact ends_of_edits (edits_of_draws_colored (sameButFb_circfillI _ _ _ _) fun hg => draws_circfillI hg _ _ _) h
  | sget x y => exact ends_of_edits (.refl s) h
  | sset x y cw => exact ends_of_edits ((edits_colorWord s cw).trans (edits_setSrc _ _ _ _)) h
  | mget x y => exact ends_of_edits (.refl s) h
  | mset x y v => exact ends_of_edits (edits_setMapCell s _ _) h
  | fget n => exact ends_of_edits (.refl s) h
  | fset n v => exact ends_of_edits (edits_setFlags s _ _) h
  | fgetb n b => exact ends_of_edits (.refl s) h
  | fsetb t n b => exact ends_of_edits (edits_setFlags s _ _) h
  | blit fx fy sx sy w h' dx dy =>
    exact ends_of_edits
      (edits_of_draws (sameButFb_blitter s _ _ _ _ _ _ _ _) fun hg => draws_blitter hg _ _ _ _ _ _ _ _) h
  | spr fx fy n x y w h' =>
    exact ends_of_edits
      (edits_of_draws (sameButFb_blitter s _ _ _ _ _ _ _ _) fun hg => draws_blitter hg _ _ _ _ _ _ _ _) h
  | sspr fx fy sx sy sw sh dx dy dw dh =>
    exact ends_of_edits
      (edits_of_draws (sameButFb_stretch s _ _ _ _ _ _ _ _ _ _) fun hg => draws_stretch hg _ _ _ _ _ _ _ _ _ _) h
  | map cx cy sx sy cw ch layer =>
    exact ends_of_edits
      (edits_of_draws (sameButFb_mapBlock s _ _ _ _ _ _ _) fun hg => draws_mapBlock hg _ _ _ _ _ _ _) h
  | getbuf => exact ends_of_check h
  | check => exact ends_of_check h
  | gpoke idx v => exact absurd rfl (hi idx v)

/-- A rejected packet has a step only when a reset cuts it short (R280). -/
theorem rejected_cases {s t : State} {e : DecodeError} {es : List HostEvent} (h : s.rejected e es = .next t) :
    ∃ rest, es = .reset :: rest ∧ t = s.applyReset rest := by
  unfold State.rejected at h
  split at h
  · exact ⟨_, rfl, by cases h; rfl⟩
  · cases h

/-- All a step can do: hold the state with nothing presented, apply the reset that comes next, or execute the command
that the presented words decode to (30_encoding.md R100, 60_exceptions.md R272, 70_reset_and_hazards.md R280). -/
theorem step_cases {s t : State} (h : step s = .next t) :
    (s.input = [] ∧ t = s) ∨ (∃ es, (fetchWords s.input).2 = .reset :: es ∧ t = s.applyReset es) ∨
      ∃ i ws, decode (fetchWords s.input).1 = .ok (i, ws) ∧
        exec i { s with input := presentWords ws ++ (fetchWords s.input).2 } = .next t := by
  unfold step at h
  split at h
  · rename_i hin
    exact .inl ⟨hin, by cases h; rfl⟩
  · rename_i es hin
    exact .inr (.inl ⟨es, by rw [hin]; rfl, by cases h; rfl⟩)
  · rename_i w es hin
    rw [hin]
    split at h
    · rename_i i ws hd
      exact .inr (.inr ⟨i, ws, hd, h⟩)
    · exact .inr (.inl (rejected_cases h))

/-! ### The invariants -/

theorem State.Ends.guards {s t : State} (h : s.Ends t) {S : Store} (hS : IsGuard S) (k : Nat) :
    t.byte S k = s.byte S k := by
  cases h with
  | ignored _ => rfl
  | completes _ he r => exact (he.complete r).guards S k hS
  | raises _ _ => rfl

theorem State.Ends.inv {s t : State} (h : s.Ends t) (hs : s.Inv) : t.Inv := by
  cases h with
  | ignored _ => exact hs
  | completes _ he r => exact (he.complete r).inv hs
  | raises _ _ => exact hs

/-- With intact guards no command other than GPOKE sets the latch. -/
theorem State.Ends.fault {s t : State} (h : s.Ends t) (hg : s.GuardsHold) : t.fault = s.fault := by
  cases h with
  | ignored _ => rfl
  | completes _ he r => exact (he.complete r).fault
  | raises _ hn => exact absurd hg hn

theorem State.Ends.guardsHold {s t : State} (h : s.Ends t) (hg : s.GuardsHold) : t.GuardsHold := fun i hi =>
  ⟨(h.guards (.inl rfl) i).trans (hg i hi).1, (h.guards (.inr rfl) i).trans (hg i hi).2⟩

theorem execGpoke_keeps_inv {idx v : Word} {s t : State} (hs : s.Inv) (h : exec (.gpoke idx v) s = .next t) :
    t.Inv := by
  rcases State.unlessFaulted_cases h with ⟨_, rfl⟩ | ⟨_, rfl⟩
  · exact hs
  · exact ⟨(pokeGuard_g s (u16 idx) (lo8 v)).symm ▸ hs.1, wf_pokeGuard hs.2 _ _⟩

theorem exec_keeps_inv {i : Instr} {s t : State} (hs : s.Inv) (h : exec i s = .next t) : t.Inv := by
  by_cases hi : ∃ idx v, i = .gpoke idx v
  · obtain ⟨idx, v, rfl⟩ := hi
    exact execGpoke_keeps_inv hs h
  · exact (exec_ends (fun idx v e => hi ⟨idx, v, e⟩) h).inv hs

/-- Settles O9: by the cases of a step, where a command keeps the invariant by `exec_keeps_inv`. -/
theorem stepKeepsInvariant : Obligations.StepKeepsInvariant := by
  intro s t hs h
  rcases step_cases h with ⟨_, rfl⟩ | ⟨es, _, rfl⟩ | ⟨i, ws, _, hx⟩
  · exact hs
  · exact State.inv_applyReset s es
  · refine exec_keeps_inv ?_ hx
    exact hs

/-- Settles O17: the frame of the guard arrays holds at each of the three ends of a command. -/
theorem onlyGpokeWritesTheGuards : Obligations.OnlyGpokeWritesTheGuards := fun _ _ _ k hi h =>
  ⟨(exec_ends hi h).guards (.inl rfl) k, (exec_ends hi h).guards (.inr rfl) k⟩

/-- Settles O19: by the cases of a step; only a failed check would set the latch, and the guards hold. -/
theorem withoutGpokeNoStepFaults : Obligations.WithoutGpokeNoStepFaults := by
  intro s t hg hf hgp h
  rcases step_cases h with ⟨_, rfl⟩ | ⟨es, _, rfl⟩ | ⟨i, ws, hd, hx⟩
  · exact ⟨hg, hf⟩
  · exact ⟨State.guardsHold_of_empty rfl, rfl⟩
  · have he := exec_ends (fun idx v e => hgp idx v ws (e ▸ hd)) hx
    exact ⟨he.guardsHold hg, (he.fault hg).trans hf⟩

end Sys2Proof.Machine

/-! The statements of 20_memory.md. First the routing table: its rows are apart, so an address in a row is routed to it.
Then one rule per access command, by where its address or cell leads; the two paths of R61 agree because both lead to
the same element. -/

namespace Sys2Proof.Machine

/-! ### The rows of the routing table (R62, R63, R71) -/

theorem Region.holds_iff (r : Region) (n : Nat) : r.holds n = true ↔ r.base ≤ n ∧ n < r.base + r.size := by
  simp [Region.holds]

/-- Two rows contain no common address. -/
abbrev Region.Apart (r q : Region) : Prop := ∀ a, ¬(r.holds a = true ∧ q.holds a = true)

theorem Region.apart_of_le {r q : Region} (h : r.base + r.size ≤ q.base) : r.Apart q := by
  rintro a ⟨hr, hq⟩
  rw [Region.holds_iff] at hr hq
  omega

/-- Each half lists its rows in rising order (R62). -/
theorem routingTable_rising : ∀ v, (routingTable v).Pairwise (fun r q => r.base + r.size ≤ q.base) := by decide

theorem routingTable_apart (v : Bool) : (routingTable v).Pairwise Region.Apart :=
  (routingTable_rising v).imp Region.apart_of_le

/-- The dual-mapped row lies inside 0x2000..0x3FFF in both halves (R62, R63). -/
theorem dualRegion_holds_false {n : Nat} (h : ¬(0x2000 ≤ n ∧ n ≤ 0x3FFF)) (v : Bool) :
    (dualRegion v).holds n = false := by
  rw [Bool.eq_false_iff, Ne, Region.holds_iff]
  cases v <;> simp only [dualRegion, if_true, if_false, Bool.false_eq_true] <;> omega

/-- Settles O23: the rows rise, and the halves differ in the dual-mapped row alone. -/
theorem routingTableRowsDoNotOverlap : Obligations.RoutingTableRowsDoNotOverlap := by
  refine ⟨routingTable_apart, fun a ha => ?_⟩
  simp only [route, routingTable, List.find?_cons, u16, dualRegion_holds_false ha]

theorem mem_of_route {v : Bool} {a : Word} {r : Region} (h : route v a = some r) :
    r ∈ routingTable v ∧ r.holds (u16 a) = true :=
  ⟨List.mem_of_find?_eq_some h, List.find?_some (p := fun q : Region => q.holds (u16 a)) h⟩

/-- Since rows are apart, the row that contains an address is the one it is routed to (R66). -/
theorem route_of_mem {v : Bool} {r : Region} {a : Word} (hr : r ∈ routingTable v) (ha : r.holds (u16 a) = true) :
    route v a = some r := by
  have symm : Std.Symm Region.Apart := ⟨fun _ _ h b hb => h b hb.symm⟩
  have found : (route v a).isSome = true := List.find?_isSome.mpr ⟨r, hr, ha⟩
  obtain ⟨q, hq⟩ := Option.isSome_iff_exists.mp found
  obtain ⟨hmem, hholds⟩ := mem_of_route hq
  have same : q = r := by
    by_contra hne
    exact (routingTable_apart v).forall hmem hr hne _ ⟨hholds, ha⟩
  exact same ▸ hq

/-! ### Where an address leads -/

theorem u16_ofNat {n : Nat} (h : n < 65536) : u16 (BitVec.ofNat 16 n) = n := by
  simpa [u16] using h

theorem routingTable_end : ∀ v, ∀ r ∈ routingTable v, r.base + r.size ≤ 65536 := by decide

/-- Address `n`, `e` into a row, leads to element or byte `e` of the row's store (R64, R65). -/
theorem addressTarget_of_mem {v : Bool} {r : Region} (hr : r ∈ routingTable v) {n e : Nat} (hn : n = r.base + e)
    (he : e < r.size) : addressTarget v (u16 (BitVec.ofNat 16 n)) = some (r.packing, r.store, e) := by
  have hend := routingTable_end v r hr
  have hu : u16 (BitVec.ofNat 16 n) = n := u16_ofNat (by omega)
  have hroute : route v (BitVec.ofNat 16 n) = some r := route_of_mem hr ((r.holds_iff _).mpr (by omega))
  have hsub : n - r.base = e := by omega
  rw [← route_target, hroute, Option.map_some, Region.target, hu, hsub]

/-- The dual-mapped row seen as pixels: an element of `SHARED` (R63, R69). -/
theorem addressTarget_pixelView {n e : Nat} (hn : n = 0x2000 + e) (he : e < 0x2000) :
    addressTarget false (u16 (BitVec.ofNat 16 n)) = some (.nibble, .shared, e) :=
  addressTarget_of_mem (r := dualRegion false) (by decide) hn he

/-- The dual-mapped row seen as cells: a byte of `SHARED` (R63, R69). -/
theorem addressTarget_cellView {n k : Nat} (hn : n = 0x2000 + k) (hk : k < 0x1000) :
    addressTarget true (u16 (BitVec.ofNat 16 n)) = some (.linear, .shared, k) :=
  addressTarget_of_mem (r := dualRegion true) (by decide) hn hk

/-- A nibble row has an even base and an even size (R62): the addresses of a byte's two elements are both in it. -/
theorem nibbleRow_even : ∀ v, ∀ r ∈ routingTable v, r.packing = .nibble → r.base % 2 = 0 ∧ r.size % 2 = 0 := by
  decide

theorem xor_one_eq (n : Nat) : n ^^^ 1 = n + 1 - 2 * (n % 2) := by
  rcases Nat.even_or_odd n with h | h
  · rw [Nat.xor_one_of_even h, Nat.even_iff.mp h]
    rfl
  · rw [Nat.xor_one_of_odd h, Nat.odd_iff.mp h]
    omega

theorem u16_xor_one (a : Word) : u16 (a ^^^ 1) = u16 a ^^^ 1 := by simp [u16]

/-- The paired address leads to the paired element (R64). -/
theorem addressTarget_paired {v : Bool} {a : Word} {S : Store} {e : Nat}
    (h : addressTarget v (u16 a) = some (.nibble, S, e)) :
    addressTarget v (u16 (a ^^^ 1)) = some (.nibble, S, e ^^^ 1) := by
  rw [← route_target, Option.map_eq_some_iff] at h
  obtain ⟨r, hroute, ht⟩ := h
  simp only [Region.target, Prod.mk.injEq] at ht
  obtain ⟨hp, rfl, rfl⟩ := ht
  obtain ⟨hr, hholds⟩ := mem_of_route hroute
  rw [Region.holds_iff] at hholds
  have heven := nibbleRow_even v r hr hp
  have hpair : u16 (a ^^^ 1) = u16 a + 1 - 2 * (u16 a % 2) := (u16_xor_one a).trans (xor_one_eq _)
  have hroute' : route v (a ^^^ 1) = some r := route_of_mem hr ((r.holds_iff _).mpr (by omega))
  have helem : u16 (a ^^^ 1) - r.base = (u16 a - r.base) ^^^ 1 := by
    rw [hpair, xor_one_eq]
    omega
  rw [← route_target, hroute', Option.map_some, Region.target, hp, helem]

/-! ### Where a cell leads (R42 to R44) -/

theorem s16_ofNat {n : Nat} (h : n < 32768) : s16 (BitVec.ofNat 16 n) = n := by
  have hn : (BitVec.ofNat 16 n).toNat = n := u16_ofNat (by omega)
  rw [s16, BitVec.toInt_eq_toNat_of_lt (by omega), hn]

/-- A pixel of the 128 by 128 grid is its own wrapped pixel. -/
theorem srcElem_ofNat (sel : Bool) {x y : Nat} (hx : x < 128) (hy : y < 128) :
    srcElem sel (s16 (BitVec.ofNat 16 x)) (s16 (BitVec.ofNat 16 y)) =
      if sel then (.font, y * 128 + x)
      else if y * 128 + x < 8192 then (.gfxLo, y * 128 + x) else (.shared, y * 128 + x - 8192) := by
  have he : ((y : Int) % 128 * 128 + (x : Int) % 128).toNat = y * 128 + x := by omega
  rw [s16_ofNat (by omega), s16_ofNat (by omega), srcElem, he]

theorem srcElem_sheet_upper {x y : Nat} (hx : x < 128) (hy : y ≤ 63) :
    srcElem false (s16 (BitVec.ofNat 16 x)) (s16 (BitVec.ofNat 16 y)) = (.gfxLo, y * 128 + x) := by
  rw [srcElem_ofNat false hx (by omega), if_neg Bool.false_ne_true, if_pos (by omega)]

theorem srcElem_sheet_lower {x y : Nat} (hx : x < 128) (hy : 64 ≤ y) (hy' : y < 128) :
    srcElem false (s16 (BitVec.ofNat 16 x)) (s16 (BitVec.ofNat 16 y)) = (.shared, (y - 64) * 128 + x) := by
  have he : y * 128 + x - 8192 = (y - 64) * 128 + x := by omega
  rw [srcElem_ofNat false hx hy', if_neg Bool.false_ne_true, if_neg (by omega), he]

theorem srcElem_font {x y : Nat} (hx : x < 128) (hy : y < 128) :
    srcElem true (s16 (BitVec.ofNat 16 x)) (s16 (BitVec.ofNat 16 y)) = (.font, y * 128 + x) :=
  srcElem_ofNat true hx hy

theorem mapElem_ofNat {x y : Nat} (hx : x < 128) (hy : y ≤ 63) :
    mapElem (mapIndex (s16 (BitVec.ofNat 16 x)) (s16 (BitVec.ofNat 16 y))) =
      some (if y ≤ 31 then (.mapLo, y * 128 + x) else (.shared, (y - 32) * 128 + x)) := by
  have hlo : ((y : Int) * 128 + x).toNat = y * 128 + x := by omega
  rw [s16_ofNat (by omega), s16_ofNat (by omega), mapElem, mapIndex, if_pos (by omega), hlo]
  split
  next hrow => rw [if_pos (by omega)]
  next hrow =>
    have hhi : ((y : Int) * 128 + x - 4096).toNat = (y - 32) * 128 + x := by omega
    rw [if_neg (by omega), hhi]

/-! ### What a query answers, by where its operands lead -/

theorem State.answers_of_complete {s : State} {i : Instr} {r : Word32} (hs : s.fault = false)
    (h : exec i s = s.unlessFaulted (s.complete r)) : s.Answers i r :=
  ⟨s.complete r, h.trans (State.unlessFaulted_of_running hs _), hs, rfl⟩

theorem State.Answers.unique {s : State} {i : Instr} {r q : Word32} (h : s.Answers i r) (h' : s.Answers i q) :
    r = q := by
  obtain ⟨t, ht, -, hr⟩ := h
  obtain ⟨u, hu, -, hq⟩ := h'
  cases ht.symm.trans hu
  exact Option.some.inj (hr.symm.trans hq)

section
variable {s : State} (hs : s.fault = false)
include hs

theorem answers_rd8_nibble {v : Bool} {a : Word} {S : Store} {e : Nat} {c : Nibble}
    (ht : addressTarget v (u16 a) = some (.nibble, S, e)) (hc : s.nib S e = c) :
    s.Answers (.rd8 v a) (c.setWidth 32) := by
  have hread : (s.memRead8 v a).setWidth 32 = c.setWidth 32 := by
    rw [memRead8_eq, ht, State.readTarget, hc]
    exact BitVec.setWidth_setWidth (by decide)
  exact hread ▸ State.answers_of_complete hs rfl

theorem answers_rd8_linear {v : Bool} {a : Word} {S : Store} {k : Nat} {b : Byte}
    (ht : addressTarget v (u16 a) = some (.linear, S, k)) (hb : s.byte S k = b) :
    s.Answers (.rd8 v a) (b.setWidth 32) := by
  have hread : s.memRead8 v a = b := by rw [memRead8_eq, ht, State.readTarget, hb]
  exact hread ▸ State.answers_of_complete hs rfl

theorem answers_sget {x y : Word} {S : Store} {e : Nat} {c : Nibble}
    (ht : srcElem s.g.sheetSel (s16 x) (s16 y) = (S, e)) (hc : s.nib S e = c) :
    s.Answers (.sget x y) (c.setWidth 32) := by
  have hread : s.src (s16 x) (s16 y) = c := by rw [State.src, ht, hc]
  exact hread ▸ State.answers_of_complete hs rfl

theorem answers_mget {x y : Word} {S : Store} {k : Nat} {b : Byte}
    (ht : mapElem (mapIndex (s16 x) (s16 y)) = some (S, k)) (hb : s.byte S k = b) :
    s.Answers (.mget x y) (b.setWidth 32) := by
  have hread : s.mapCell (mapIndex (s16 x) (s16 y)) = b := by simp only [State.mapCell, ht, hb]
  exact hread ▸ State.answers_of_complete hs rfl

theorem answers_pget {wx wy : Word} {x y : Nat} (hx : x < 128) (hy : y < 128)
    (hwx : wx.toInt - s.g.cameraX.toInt = x) (hwy : wy.toInt - s.g.cameraY.toInt = y) :
    s.Answers (.pget wx wy) ((s.nib .fb (y * 128 + x)).setWidth 32) := by
  have hcam : s.camX (s16 wx) = x ∧ s.camY (s16 wy) = y := ⟨hwx, hwy⟩
  have he : fbElem x y = y * 128 + x := by
    rw [fbElem]
    omega
  have hread : s.pixelAt (s.camX (s16 wx)) (s.camY (s16 wy)) = s.nib .fb (y * 128 + x) := by
    rw [hcam.1, hcam.2, State.pixelAt, if_pos (by omega), State.fbPix, he]
  exact hread ▸ State.answers_of_complete hs rfl

theorem answers_fget {n : Nat} (hn : n < 256) :
    s.Answers (.fget (BitVec.ofNat 16 n)) ((s.byte .flags n).setWidth 32) := by
  have hid : (lo8 (BitVec.ofNat 16 n)).toNat = n := by
    rw [lo8_toNat, BitVec.toNat_ofNat]
    omega
  have hread : s.byte .flags (lo8 (BitVec.ofNat 16 n)).toNat = s.byte .flags n := by rw [hid]
  exact hread ▸ State.answers_of_complete hs rfl

/-! ### What a write does, by where its operands lead -/

theorem exec_wr8_nibble {v : Bool} {a : Word} {S : Store} {e : Nat}
    (ht : addressTarget v (u16 a) = some (.nibble, S, e)) (d : Word) :
    exec (.wr8 v a d) s = .next ((s.setNib S e (d.extractLsb' 0 4)).complete 0) := by
  have hwrite : s.memWrite8 v a (lo8 d) = s.setNib S e (d.extractLsb' 0 4) := by
    rw [memWrite8_eq, ht, State.writeTarget, loNibble_lo8]
  exact hwrite ▸ State.unlessFaulted_of_running hs _

theorem exec_wr8_linear {v : Bool} {a : Word} {S : Store} {k : Nat}
    (ht : addressTarget v (u16 a) = some (.linear, S, k)) (d : Word) :
    exec (.wr8 v a d) s = .next ((s.setByte S k (lo8 d)).complete 0) := by
  have hwrite : s.memWrite8 v a (lo8 d) = s.setByte S k (lo8 d) := by rw [memWrite8_eq, ht, State.writeTarget]
  exact hwrite ▸ State.unlessFaulted_of_running hs _

theorem exec_mset {x y : Word} {S : Store} {k : Nat} (ht : mapElem (mapIndex (s16 x) (s16 y)) = some (S, k))
    (d : Word) : exec (.mset x y d) s = .next ((s.setByte S k (lo8 d)).complete 0) := by
  have hwrite : s.setMapCell (mapIndex (s16 x) (s16 y)) (lo8 d) = s.setByte S k (lo8 d) := by
    simp only [State.setMapCell, ht]
  exact hwrite ▸ State.unlessFaulted_of_running hs _

theorem exec_sset {x y : Word} {S : Store} {e : Nat} (ht : srcElem s.g.sheetSel (s16 x) (s16 y) = (S, e)) :
    exec (.sset x y none) s = .next ((s.setNib S e s.g.fg).complete 0) := by
  have hwrite : s.setSrc (s16 x) (s16 y) s.g.fg = s.setNib S e s.g.fg := by rw [State.setSrc, ht]
  exact hwrite ▸ State.unlessFaulted_of_running hs _

theorem running_setByte (S : Store) (k : Nat) (b : Byte) (r : Word32) :
    ((s.setByte S k b).complete r).fault = false := hs

theorem running_setNib (S : Store) (e : Nat) (c : Nibble) (r : Word32) :
    ((s.setNib S e c).complete r).fault = false := hs

end

/-- Settles O26: the paired address leads to the paired element, which an element write keeps (R67, R64). -/
theorem nibbleWriteThenRead : Obligations.NibbleWriteThenRead := by
  intro s v a d S e r hs ht hr
  have hpair := addressTarget_paired ht
  have hold : r = (s.nib S (e ^^^ 1)).setWidth 32 := hr.unique (answers_rd8_nibble hs hpair rfl)
  have hrun := running_setNib hs S e (d.extractLsb' 0 4) 0
  refine ⟨_, exec_wr8_nibble hs ht d, answers_rd8_nibble hrun ht ?written,
    hold ▸ answers_rd8_nibble hrun hpair ?kept⟩
  case written => rw [State.complete_nib, State.nib_setNib_same]
  case kept => rw [State.complete_nib, State.nib_setNib, if_neg (by simp)]

/-! ### The two views of `SHARED` (R69) -/

/-- A byte written shows its two nibbles as elements (R40). -/
theorem nib_setByte_even (s : State) (S : Store) (k : Nat) (d : Word) :
    (s.setByte S k (lo8 d)).nib S (2 * k) = d.extractLsb' 0 4 := by
  have hbyte : 2 * k / 2 = k := by omega
  rw [State.nib, hbyte, State.byte_setByte_same, nibOfByte, if_pos (by omega), loNibble_lo8]

theorem nib_setByte_odd (s : State) (S : Store) (k : Nat) (d : Word) :
    (s.setByte S k (lo8 d)).nib S (2 * k + 1) = d.extractLsb' 4 4 := by
  have hbyte : (2 * k + 1) / 2 = k := by omega
  rw [State.nib, hbyte, State.byte_setByte_same, nibOfByte, if_neg (by omega), hiNibble_lo8]

/-- An element written changes its four bits of the byte (R41). -/
theorem byte_setNib_even (s : State) (S : Store) (k : Nat) (c : Nibble) :
    (s.setNib S (2 * k) c).byte S k = (s.byte S k &&& 0xF0) ||| c.setWidth 8 := by
  have hbyte : 2 * k / 2 = k := by omega
  rw [State.setNib, hbyte, State.byte_setByte_same, setNibOfByte_eq_mask, if_pos (by omega)]

theorem byte_setNib_odd (s : State) (S : Store) (k : Nat) (c : Nibble) :
    (s.setNib S (2 * k + 1) c).byte S k = (s.byte S k &&& 0x0F) ||| (c.setWidth 8 <<< 4) := by
  have hbyte : (2 * k + 1) / 2 = k := by omega
  rw [State.setNib, hbyte, State.byte_setByte_same, setNibOfByte_eq_mask, if_neg (by omega)]

/-- The map cell that holds byte `k` of `SHARED` (R44). -/
theorem mapElem_shared {k : Nat} (hk : k < 4096) :
    mapElem (mapIndex (s16 (BitVec.ofNat 16 (k % 128))) (s16 (BitVec.ofNat 16 (32 + k / 128)))) =
      some (.shared, k) := by
  have hcell : (32 + k / 128 - 32) * 128 + k % 128 = k := by omega
  rw [mapElem_ofNat (by omega) (by omega), if_neg (by omega), hcell]

/-- The sheet pixels that hold the two elements of byte `k` of `SHARED` (R42). -/
theorem srcElem_shared_even {k : Nat} (hk : k < 4096) :
    srcElem false (s16 (BitVec.ofNat 16 (2 * (k % 64)))) (s16 (BitVec.ofNat 16 (64 + k / 64))) = (.shared, 2 * k) := by
  have hcell : (64 + k / 64 - 64) * 128 + 2 * (k % 64) = 2 * k := by omega
  rw [srcElem_sheet_lower (by omega) (by omega) (by omega), hcell]

theorem srcElem_shared_odd {k : Nat} (hk : k < 4096) :
    srcElem false (s16 (BitVec.ofNat 16 (2 * (k % 64) + 1))) (s16 (BitVec.ofNat 16 (64 + k / 64))) =
      (.shared, 2 * k + 1) := by
  have hcell : (64 + k / 64 - 64) * 128 + (2 * (k % 64) + 1) = 2 * k + 1 := by omega
  rw [srcElem_sheet_lower (by omega) (by omega) (by omega), hcell]

/-- Settles O30: on either path one view leads to byte `k` of `SHARED`, the other to its elements `2k` and `2k + 1`. -/
theorem dualMappedViewsAlias : Obligations.DualMappedViewsAlias := by
  intro s d k hs hk
  have cell := addressTarget_cellView (n := 0x2000 + k) rfl hk
  have even := addressTarget_pixelView (n := 0x2000 + 2 * k) rfl (by omega)
  have odd := addressTarget_pixelView (n := 0x2000 + 2 * k + 1) (Nat.add_assoc ..) (by omega)
  have mapCell := mapElem_shared hk
  have byteRun := running_setByte hs .shared k (lo8 d) 0
  refine ⟨⟨_, exec_wr8_linear hs cell d, ?_, ?_⟩, ⟨_, exec_wr8_nibble hs even d, ?_⟩,
    ⟨_, exec_wr8_nibble hs odd d, ?_⟩, fun hsel => ?_⟩
  · exact answers_rd8_nibble byteRun even (by rw [State.complete_nib, nib_setByte_even])
  · exact answers_rd8_nibble byteRun odd (by rw [State.complete_nib, nib_setByte_odd])
  · exact answers_rd8_linear (running_setNib hs ..) cell (by rw [State.complete_byte, byte_setNib_even])
  · exact answers_rd8_linear (running_setNib hs ..) cell (by rw [State.complete_byte, byte_setNib_odd])
  · have sheetEven := hsel ▸ srcElem_shared_even hk
    have sheetOdd := hsel ▸ srcElem_shared_odd hk
    refine ⟨⟨_, exec_mset hs mapCell d, ?_, ?_⟩, ⟨_, exec_sset hs sheetEven, ?_⟩,
      ⟨_, exec_sset hs sheetOdd, ?_⟩⟩
    · exact answers_sget byteRun sheetEven (by rw [State.complete_nib, nib_setByte_even])
    · exact answers_sget byteRun sheetOdd (by rw [State.complete_nib, nib_setByte_odd])
    · exact answers_mget (running_setNib hs ..) mapCell (by rw [State.complete_byte, byte_setNib_even])
    · exact answers_mget (running_setNib hs ..) mapCell (by rw [State.complete_byte, byte_setNib_odd])

/-! ### The address of a grid cell (R70) -/

/-- Settles O31: row by row of the table, the address and the cell lead to the same element or byte of a store. -/
theorem gridCellsByAddress : Obligations.GridCellsByAddress := by
  intro s x y hs hx hy
  have inGrid : y * 128 + x < 0x4000 := by omega
  refine ⟨fun wx wy hwx hwy => ?fb, fun hsel => ?sheet, fun hsel => ?font, fun hrow => ?mapUpper,
    fun hrow hrow' => ?mapLower, fun n hn => ?flags⟩
  case fb =>
    have addr := addressTarget_of_mem (v := false) (r := ⟨0x6000, 0x4000, .nibble, .fb⟩) (by decide)
      (Nat.add_assoc 0x6000 (y * 128) x) inGrid
    exact ⟨_, answers_rd8_nibble hs addr rfl, answers_pget hs hx hy hwx hwy⟩
  case sheet =>
    split
    next hrow =>
      have inRow : y * 128 + x < 0x2000 := by omega
      have addr := addressTarget_of_mem (v := false) (r := ⟨0x0000, 0x2000, .nibble, .gfxLo⟩) (by decide)
        (Nat.zero_add (y * 128 + x)).symm inRow
      exact ⟨_, answers_rd8_nibble hs addr rfl, answers_sget hs (hsel ▸ srcElem_sheet_upper hx hrow) rfl⟩
    next hrow =>
      have addr := addressTarget_pixelView (Nat.add_assoc 0x2000 ((y - 64) * 128) x) (by omega)
      exact ⟨_, answers_rd8_nibble hs addr rfl, answers_sget hs (hsel ▸ srcElem_sheet_lower hx (by omega) hy) rfl⟩
  case font =>
    have addr := addressTarget_of_mem (v := false) (r := ⟨0xA000, 0x4000, .nibble, .font⟩) (by decide)
      (Nat.add_assoc 0xA000 (y * 128) x) inGrid
    exact ⟨_, answers_rd8_nibble hs addr rfl, answers_sget hs (hsel ▸ srcElem_font hx hy) rfl⟩
  case mapUpper =>
    have inRow : y * 128 + x < 0x1000 := by omega
    have addr := addressTarget_of_mem (v := false) (r := ⟨0x4000, 0x1000, .linear, .mapLo⟩) (by decide)
      (Nat.add_assoc 0x4000 (y * 128) x) inRow
    have cell := (mapElem_ofNat hx (by omega)).trans (congrArg some (if_pos hrow))
    exact ⟨_, answers_rd8_linear hs addr rfl, answers_mget hs cell rfl⟩
  case mapLower =>
    have addr := addressTarget_cellView (Nat.add_assoc 0x2000 ((y - 32) * 128) x) (by omega)
    have cell := (mapElem_ofNat hx hrow').trans (congrArg some (if_neg (by omega)))
    exact ⟨_, answers_rd8_linear hs addr rfl, answers_mget hs cell rfl⟩
  case flags =>
    have addr := addressTarget_of_mem (v := false) (r := ⟨0x5000, 0x0100, .linear, .flags⟩) (by decide) rfl hn
    exact ⟨_, answers_rd8_linear hs addr rfl, answers_fget hs hn⟩

end Sys2Proof.Machine

/-! The statements of 30_encoding.md. The round trips rest on `decode_encode`, by the modifier bits of each command, and
on `encode_of_buildInstr`, row by row of the opcode map; from `decode_inv` both read off the parts of a packet. Then how
a step ends when the presented words decode and when they do not, and that every command completes. -/

namespace Sys2Proof

/-! ### Modifier bytes (R102) -/

theorem bitC_some (w : Word) : bitC (some w) = 0x01 := rfl

/-! What the encoder writes of the bits that the decoder reads is those bits, masked out of the modifier byte. -/

theorem bitV_modV : ∀ m : BitVec 8, bitV (modV m) = m &&& 0x08#8 := by decide
theorem bitT_modT : ∀ m : BitVec 8, bitT (modT m) = m &&& 0x10#8 := by decide
theorem bitsXY_modXY : ∀ m : BitVec 8, bitsXY (modX m) (modY m) = m &&& 0x06#8 := by decide
theorem bit_modC : ∀ m : BitVec 8, (if modC m then 0x01#8 else 0x00#8) = m &&& 0x01#8 := by decide

theorem bitC_of_isSome {cw : Option Word} {m : BitVec 8} (h : cw.isSome = modC m) : bitC cw = m &&& 0x01#8 := by
  rw [bitC, h]
  exact bit_modC m

/-- What passes check (b) of R108 sets allowed bits only. -/
theorem bit_allowed {m mods : BitVec 8} (h : m &&& ~~~mods = 0) {k : Nat} (hk : k < 8) (hset : m.getLsbD k = true) :
    mods.getLsbD k = true := by
  have hbit : (m &&& ~~~mods).getLsbD k = false := by simp [h]
  simpa [hk, hset] using hbit

theorem and_mods {m mods : BitVec 8} (h : m &&& ~~~mods = 0) : m &&& mods = m :=
  BitVec.eq_of_getLsbD_eq fun k hk => by simpa using bit_allowed h hk

/-! ### The round trips (R102, R103, R105, R107) -/

/-- The modifier bits alone decide how a packet is read, so once they are known (`V`, `T`, the flips, `C`, or none) the
decoder computes on any operands and any rest. -/
theorem decode_encode (i : Instr) (rest : List Word) : decode (encode i ++ rest) = .ok (i, rest) := by
  cases i with
  | rd8 v | wr8 v | rd32 v | wr32 v | loadb v => cases v <;> rfl
  | palt t | selsheet t | fsetb t => cases t <;> rfl
  | blit fx fy | spr fx fy | sspr fx fy => cases fx <;> cases fy <;> rfl
  | pset _ _ cw | sset _ _ cw | hline _ _ _ cw | vline _ _ _ cw | line _ _ _ _ cw | rect _ _ _ _ cw
  | rectfill _ _ _ _ cw | circ _ _ _ cw | circfill _ _ _ cw =>
    cases cw with
    | none => rfl
    | some w =>
      rw [encode, bitC_some]
      rfl
  | _ => rfl

/-- What the encoder writes for a command that row `r` of the map builds: the modifier bits that the row allows, and the
colour word where `C` is one of them. -/
theorem encode_of_buildInstr {r : OpRow} (hr : r ∈ opTable) {m : BitVec 8} {ops : List Word} {cw : Option Word}
    (hC : cw.isSome = modC m) {i : Instr} (h : buildInstr r.opcode m ops cw = some i) :
    encode i = header r.code (m &&& r.mods) :: (ops ++ if modC r.mods then cw.toList else []) := by
  fin_cases hr
  all_goals
    simp only [buildInstr] at h
    split at h <;> cases h
    simp [encode, bitV_modV, bitT_modT, bitsXY_modXY, bitC_of_isSome hC, modC]

/-- No colour word where the row does not allow `C` (R104). -/
theorem colour_of_mods {m mods : BitVec 8} {cw : Option Word} (hm : m &&& ~~~mods = 0) (hC : cw.isSome = modC m) :
    (if modC mods then cw.toList else []) = cw.toList := by
  cases cw with
  | none => simp
  | some w => exact if_pos (bit_allowed hm (by decide) hC.symm)

/-- The parts of a packet that the decoder accepts are what the encoder writes. -/
theorem encode_of_parts {hd : Word} {r : OpRow} {ops : List Word} {cw : Option Word} {i : Instr}
    (hr : findRow hd = some r) (hm : modField hd &&& ~~~r.mods = 0) (hC : cw.isSome = modC (modField hd))
    (h : buildInstr r.opcode (modField hd) ops cw = some i) : encode i = hd :: (ops ++ cw.toList) := by
  obtain ⟨hrow, hcode⟩ := mem_of_findRow hr
  rw [encode_of_buildInstr hrow hC h, and_mods hm, colour_of_mods hm hC, hcode, header_fields]

/-- The parts of a command's packet. -/
theorem encode_parts (i : Instr) :
    ∃ hd r ws, encode i = hd :: ws ∧ findRow hd = some r ∧ modField hd &&& ~~~r.mods = 0 ∧
      ws.length = r.operands + if modC (modField hd) then 1 else 0 := by
  obtain ⟨hd, r, ops, cw, -, hr, hm, hlen, hC, hi⟩ := decode_inv (decode_encode i [])
  refine ⟨hd, r, _, encode_of_parts hr hm hC hi, hr, hm, ?_⟩
  rw [List.length_append, hlen, ← hC]
  cases cw <;> rfl

theorem wellFormed_encode (i : Instr) : Packet.wellFormed (encode i) = true := by
  obtain ⟨hd, r, ws, he, hr, hm, hlen⟩ := encode_parts i
  rw [he]
  exact (Packet.wellFormed_cons hd ws).mpr ⟨r, hr, hm, hlen⟩

/-- Settles O2, by `decode_encode`. -/
theorem decodeOfEncode : Obligations.DecodeOfEncode := decode_encode

/-- Settles O3: the decoder's parts of the stream are the parts of the command's packet. -/
theorem encodeOfDecode : Obligations.EncodeOfDecode := by
  intro ws i rest h
  obtain ⟨hd, r, ops, cw, rfl, hr, hm, -, hC, hi⟩ := decode_inv h
  rw [encode_of_parts hr hm hC hi, List.cons_append, List.append_assoc]

/-! ### Acceptance (R108, R109) -/

/-- The words after a header are operand words and, when `C` is set, one colour word (R103). -/
theorem exists_operands_colour {ws : List Word} {n : Nat} {c : Bool} (h : ws.length = n + if c then 1 else 0) :
    ∃ ops cw, ws = ops ++ Option.toList cw ∧ ops.length = n ∧ cw.isSome = c := by
  cases c with
  | false => exact ⟨ws, none, by simp, h, rfl⟩
  | true =>
    rcases List.eq_nil_or_concat ws with rfl | ⟨ops, w, rfl⟩
    · simp at h
    · exact ⟨ops, some w, by simp, by simpa using h, rfl⟩

theorem decode_of_wellFormed {p : List Word} (h : Packet.wellFormed p = true) (rest : List Word) :
    ∃ i, decode (p ++ rest) = .ok (i, rest) := by
  cases p with
  | nil => cases h
  | cons hd ws =>
    obtain ⟨r, hr, hm, hlen⟩ := (Packet.wellFormed_cons hd ws).mp h
    obtain ⟨ops, cw, rfl, hops, hC⟩ := exists_operands_colour hlen
    rw [List.cons_append, List.append_assoc]
    exact decode_of_parts hr hm rest hops hC

/-- Settles O4: what is accepted begins with the packet of its command, and a packet that passes the checks has the
parts that the decoder reads. -/
theorem decodeAcceptsWellFormedPackets : Obligations.DecodeAcceptsWellFormedPackets := by
  refine fun ws => ⟨fun ⟨i, rest, h⟩ => ?_, fun ⟨p, rest, hws, hp⟩ => ?_⟩
  · exact ⟨encode i, rest, encodeOfDecode ws i rest h, wellFormed_encode i⟩
  · obtain ⟨i, hi⟩ := decode_of_wellFormed hp rest
    exact ⟨i, rest, hws ▸ hi⟩

/-! ### Rejection (R102, R108) -/

theorem decode_unknownOpcode {hd : Word} (h : findRow hd = none) (ws : List Word) :
    decode (hd :: ws) = .error (.unknownOpcode hd) := by
  simp only [decode, h]

theorem decode_reservedModifier {hd : Word} {r : OpRow} (hr : findRow hd = some r)
    (hm : modField hd &&& ~~~r.mods ≠ 0) (ws : List Word) : decode (hd :: ws) = .error (.reservedModifier hd) := by
  simp only [decode, hr, if_neg hm]

/-- A packet cut after its header and before its length is short. -/
theorem decode_take_encode {i : Instr} {k : Nat} (hpos : 0 < k) (hk : k < (encode i).length) :
    ∃ ws, (encode i).take k = (encode i).headD 0 :: ws ∧
      decode ((encode i).headD 0 :: ws) = .error (.shortPacket ((encode i).headD 0)) := by
  obtain ⟨hd, r, ws, he, hr, hm, hlen⟩ := encode_parts i
  obtain ⟨n, rfl⟩ := Nat.exists_eq_add_one.mpr hpos
  rw [he, List.length_cons] at hk
  rw [he, List.headD_cons]
  refine ⟨ws.take n, List.take_succ_cons, decode_short hr hm ?_⟩
  rw [← hlen, List.length_take]
  omega

/-- The map's opcodes are those outside the reserved ranges of R108 (a). -/
theorem opTable_not_reserved : ∀ r ∈ opTable, ¬ Machine.reservedOpcode r.code.toNat := by decide

theorem opTable_complete : ∀ c : BitVec 8, ¬ Machine.reservedOpcode c.toNat → ∃ r ∈ opTable, r.code = c := by decide

/-- The modifier masks of the map are the table of R102. -/
theorem opTable_modifiers :
    ∀ r ∈ opTable, ∀ k < 8, r.mods.getLsbD k = true → Machine.modifierAllowed r.code.toNat k := by decide

theorem row_code_toNat {hd : Word} {r : OpRow} (hr : findRow hd = some r) : r.code.toNat = hd.toNat / 256 := by
  rw [(mem_of_findRow hr).2, opcodeField_toNat]

theorem findRow_of_reserved {hd : Word} (h : Machine.reservedOpcode (hd.toNat / 256)) : findRow hd = none := by
  cases hr : findRow hd with
  | none => rfl
  | some r => exact absurd (row_code_toNat hr ▸ h) (opTable_not_reserved r (mem_of_findRow hr).1)

theorem findRow_of_not_reserved {hd : Word} (h : ¬ Machine.reservedOpcode (hd.toNat / 256)) :
    ∃ r, findRow hd = some r := by
  obtain ⟨r, hr, hcode⟩ := opTable_complete (opcodeField hd) (opcodeField_toNat hd ▸ h)
  exact Option.isSome_iff_exists.mp (List.find?_isSome.mpr ⟨r, hr, by simp [hcode]⟩)

/-- A set bit that the table of R102 does not allow fails check (b). -/
theorem mods_of_forbidden_bit {hd : Word} {r : OpRow} (hr : findRow hd = some r) {k : Nat} (hk : k < 8)
    (hset : hd.getLsbD k = true) (hforbidden : ¬ Machine.modifierAllowed (hd.toNat / 256) k) :
    modField hd &&& ~~~r.mods ≠ 0 := fun hm =>
  have hallowed := bit_allowed hm hk ((modField_bit hd hk).trans hset)
  hforbidden (row_code_toNat hr ▸ opTable_modifiers r (mem_of_findRow hr).1 k hk hallowed)

end Sys2Proof

namespace Sys2Proof.Machine

/-! ### The step on presented words (R100, R108) -/

/-- Where a word is fetched first, a word is presented first. -/
theorem input_of_fetchWords {input es : List HostEvent} {w : Word} {ws : List Word}
    (h : fetchWords input = (w :: ws, es)) : ∃ later, input = .word w :: later ∧ fetchWords later = (ws, es) := by
  rcases input with _ | ⟨_ | _, later⟩
  · cases h
  · cases h
    exact ⟨later, rfl, rfl⟩
  · cases h

theorem step_of_decode_ok {s : State} {ws rest : List Word} {es : List HostEvent} {i : Instr}
    (hfetch : fetchWords s.input = (ws, es)) (h : decode ws = .ok (i, rest)) :
    step s = exec i { s with input := presentWords rest ++ es } := by
  cases ws with
  | nil => cases h
  | cons w ws =>
    obtain ⟨later, hin, hlater⟩ := input_of_fetchWords hfetch
    simp only [step, hin, hlater, h]

theorem step_of_decode_error {s : State} {w : Word} {ws : List Word} {es : List HostEvent} {e : DecodeError}
    (hfetch : fetchWords s.input = (w :: ws, es)) (h : decode (w :: ws) = .error e) : step s = s.rejected e es := by
  obtain ⟨later, hin, hlater⟩ := input_of_fetchWords hfetch
  simp only [step, hin, hlater, h]

/-- Settles O1: up to the next reset or the end exactly the presented words are fetched. -/
theorem stepRunsTheDecodedCommand : Obligations.StepRunsTheDecodedCommand := by
  intro s ws rest i es hd hes hin
  exact step_of_decode_ok (hin ▸ fetchWords_until hes) hd

/-- Settles O5: the decoder's three rejections, by the opcode, by the forbidden bit and by the length. -/
theorem reservedPacketsAreRefused : Obligations.ReservedPacketsAreRefused := by
  refine ⟨fun s h es hin => ?header, fun s i k hpos hk hin => ?short⟩
  case header =>
    have hfetch : fetchWords s.input = (h :: (fetchWords es).1, (fetchWords es).2) := hin ▸ rfl
    refine ⟨fun hop => ?unknown, fun hop ⟨k, hk, hset, hforbidden⟩ => ?modifier⟩
    case unknown => exact step_of_decode_error hfetch (decode_unknownOpcode (findRow_of_reserved hop) _)
    case modifier =>
      obtain ⟨r, hr⟩ := findRow_of_not_reserved hop
      exact step_of_decode_error hfetch (decode_reservedModifier hr (mods_of_forbidden_bit hr hk hset hforbidden) _)
  case short =>
    obtain ⟨ws, hcut, hdec⟩ := decode_take_encode hpos hk
    have hfetch : fetchWords s.input = ((encode i).headD 0 :: ws, []) := by
      rw [hin, hcut, ← List.append_nil (presentWords _), fetchWords_until (.inl rfl)]
    exact step_of_decode_error hfetch hdec

/-- Settles O6: each list of words is the packet of its command. -/
theorem decodeOfWordsOfTheSpec : Obligations.DecodeOfWordsOfTheSpec :=
  ⟨decode_encode (.pset 15 15 (some 2)) [], decode_encode (.pset 15 15 none) [], decode_encode (.rd8 true 0x2000) [],
    decode_encode (.palt true 3) [], decode_encode (.fsetb true 17 1) [],
    decode_encode (.spr true false 1 10 10 1 1) [], decode_encode (.sspr false true 0 0 2 2 20 20 4 4) [],
    decode_encode (.gpoke 0x2000 0xFF) []⟩

/-! ### Every command completes (R106, R109, R110) -/

/-- From `s` to `t` the fields that say where the block stands among its packets are unchanged: the latch, what is
presented, the index and the epoch. -/
structure State.KeepsControl (s t : State) : Prop where
  fault : t.fault = s.fault
  input : t.input = s.input
  epoch : t.epoch = s.epoch
  ci : t.ci = s.ci

theorem State.KeepsControl.refl (s : State) : s.KeepsControl s := ⟨rfl, rfl, rfl, rfl⟩

theorem State.KeepsControl.trans {s t u : State} (h : s.KeepsControl t) (h' : t.KeepsControl u) : s.KeepsControl u :=
  ⟨h'.fault.trans h.fault, h'.input.trans h.input, h'.epoch.trans h.epoch, h'.ci.trans h.ci⟩

theorem SameButFb.keepsControl {s t : State} (h : SameButFb s t) : s.KeepsControl t :=
  ⟨h.fault, h.input, h.epoch, h.ci⟩

theorem keepsControl_withG (s : State) (g : Gfx) : s.KeepsControl (s.withG g) := ⟨rfl, rfl, rfl, rfl⟩

theorem keepsControl_setByte (s : State) (S : Store) (i : Nat) (v : Byte) : s.KeepsControl (s.setByte S i v) :=
  ⟨rfl, rfl, rfl, rfl⟩

theorem keepsControl_colorWord (s : State) (cw : Option Word) : s.KeepsControl (s.colorWord cw) :=
  ⟨s.colorWord_fault cw, s.colorWord_input cw, s.colorWord_epoch cw, s.colorWord_ci cw⟩

theorem keepsControl_memWrite8 (s : State) (v : Bool) (a : Word) (d : Byte) : s.KeepsControl (s.memWrite8 v a d) :=
  ⟨memWrite8_fault s v a d, memWrite8_input s v a d, memWrite8_epoch s v a d, memWrite8_ci s v a d⟩

theorem keepsControl_memWrite32 (s : State) (v : Bool) (a : Word) (d : Word32) :
    s.KeepsControl (s.memWrite32 v a d) :=
  (((keepsControl_memWrite8 s v _ _).trans (keepsControl_memWrite8 _ v _ _)).trans
    (keepsControl_memWrite8 _ v _ _)).trans (keepsControl_memWrite8 _ v _ _)

theorem keepsControl_loadByte (s : State) (v : Bool) (a : Word) (b : Byte) : s.KeepsControl (s.loadByte v a b) := by
  unfold State.loadByte
  split
  · exact (keepsControl_memWrite8 s v _ _).trans (keepsControl_memWrite8 _ v _ _)
  · exact keepsControl_memWrite8 s v a b

theorem keepsControl_setMapCell (s : State) (i : Int) (v : Byte) : s.KeepsControl (s.setMapCell i v) :=
  ⟨setMapCell_fault s i v, setMapCell_input s i v, setMapCell_epoch s i v, setMapCell_ci s i v⟩

theorem keepsControl_pokeGuard (s : State) (i : Nat) (v : Byte) : s.KeepsControl (s.pokeGuard i v) :=
  ⟨pokeGuard_fault s i v, pokeGuard_input s i v, pokeGuard_epoch s i v, pokeGuard_ci s i v⟩

/-- At `s`, command `i` completes, with response 0 unless it is one with a result. -/
def State.Finishes (s : State) (i : Instr) : Prop :=
  ∃ t r, exec i s = .next (t.complete r) ∧ s.KeepsControl t ∧ (hasResult i = false → r = 0)

section
variable {s : State} (hs : s.fault = false) {i : Instr}
include hs

/-- A command without a result. -/
theorem finishes_of_action {t : State} (h : exec i s = s.unlessFaulted (t.complete 0)) (hk : s.KeepsControl t) :
    s.Finishes i := ⟨t, 0, h.trans (State.unlessFaulted_of_running hs _), hk, fun _ => rfl⟩

/-- A command with a result. -/
theorem finishes_of_result {t : State} {r : Word32} (h : exec i s = s.unlessFaulted (t.complete r))
    (hk : s.KeepsControl t) (hr : hasResult i = true) : s.Finishes i :=
  ⟨t, r, h.trans (State.unlessFaulted_of_running hs _), hk, fun hn => absurd (hn.symm.trans hr) Bool.false_ne_true⟩

theorem finishes_of_query {r : Word32} (h : exec i s = s.unlessFaulted (s.complete r)) (hr : hasResult i = true) :
    s.Finishes i := finishes_of_result hs h (.refl s) hr

theorem finishes_of_gfx {g : Gfx} (h : exec i s = s.unlessFaulted ((s.withG g).complete 0)) : s.Finishes i :=
  finishes_of_action hs h (keepsControl_withG s g)

theorem finishes_of_drawing {t : State} (h : exec i s = s.unlessFaulted (t.complete 0)) (hfb : SameButFb s t) :
    s.Finishes i := finishes_of_action hs h hfb.keepsControl

/-- A drawing after the optional colour word (R104). -/
theorem finishes_of_colored {t : State} (cw : Option Word) (h : exec i s = s.unlessFaulted (t.complete 0))
    (hfb : SameButFb (s.colorWord cw) t) : s.Finishes i :=
  finishes_of_action hs h ((keepsControl_colorWord s cw).trans hfb.keepsControl)

theorem finishes_of_check {r : Word32}
    (h : exec i s = s.unlessFaulted (if s.guardsIntact then s.complete r else s.raiseIntegrityFault))
    (hg : s.GuardsHold) (hr : hasResult i = true) : s.Finishes i :=
  finishes_of_query hs (h.trans (congrArg _ (if_pos ((guardsIntact_iff s).mpr hg)))) hr

theorem exec_finishes (i : Instr) (hg : (i = .check ∨ i = .getbuf) → s.GuardsHold) : s.Finishes i := by
  cases i with
  | rd8 | rd32 | pget | sget | mget | fget | fgetb => exact finishes_of_query hs rfl rfl
  | color | pal | palrst | palt | paltrst | clip | cliprst | camera | camrst | fillp | fillprst | restore
  | selsheet => exact finishes_of_gfx hs rfl
  | wr8 => exact finishes_of_action hs rfl (keepsControl_memWrite8 ..)
  | wr32 => exact finishes_of_action hs rfl (keepsControl_memWrite32 ..)
  | loadb => exact finishes_of_result hs rfl (keepsControl_loadByte ..) rfl
  | mset => exact finishes_of_action hs rfl (keepsControl_setMapCell ..)
  | fset | fsetb => exact finishes_of_action hs rfl (keepsControl_setByte ..)
  | gpoke => exact finishes_of_action hs rfl (keepsControl_pokeGuard ..)
  | sset => exact finishes_of_action hs rfl ((keepsControl_colorWord ..).trans (keepsControl_setByte ..))
  | cls c => exact finishes_of_drawing hs rfl (draws_fillScreen s (s.g.palette (lo4 c))).same
  | pset _ _ cw => exact finishes_of_colored hs cw rfl (sameButFb_psetI ..)
  | hline _ _ _ cw => exact finishes_of_colored hs cw rfl (sameButFb_hlineI ..)
  | vline _ _ _ cw => exact finishes_of_colored hs cw rfl (sameButFb_vlineI ..)
  | line _ _ _ _ cw => exact finishes_of_colored hs cw rfl (sameButFb_points ..)
  | rect _ _ _ _ cw => exact finishes_of_colored hs cw rfl (sameButFb_rectI ..)
  | rectfill _ _ _ _ cw => exact finishes_of_colored hs cw rfl (sameButFb_rectfillI ..)
  | circ _ _ _ cw => exact finishes_of_colored hs cw rfl (sameButFb_circI ..)
  | circfill _ _ _ cw => exact finishes_of_colored hs cw rfl (sameButFb_circfillI ..)
  | blit | spr => exact finishes_of_drawing hs rfl (sameButFb_blitter ..)
  | sspr => exact finishes_of_drawing hs rfl (sameButFb_stretch ..)
  | map => exact finishes_of_drawing hs rfl (sameButFb_mapBlock ..)
  | getbuf => exact finishes_of_check hs rfl (hg (.inr rfl)) rfl
  | check => exact finishes_of_check hs rfl (hg (.inl rfl)) rfl

end

/-- Settles O12: at a clear latch every command finishes, by what its operation keeps. -/
theorem everyCommandCompletes : Obligations.EveryCommandCompletes := by
  intro i s hs hg
  obtain ⟨t, r, hexec, hk, hr⟩ := exec_finishes hs i hg
  exact ⟨t.complete r, r, hexec, hk.fault.trans hs, hk.input, hk.epoch, congrArg (· + 1) hk.ci, rfl, hr⟩

end Sys2Proof.Machine

/-! The statements of 40_address_space.md. Each command is its router operation and the end of a command; what is left is
what the router operations keep, and which bytes the operand words hold. -/

namespace Sys2Proof.Machine

/-! ### Bytes of operand words (R101, R132, R133) -/

/-- A value of at most 16 bits presented as an operand word is read back as its byte. -/
theorem lo8_setWidth {n : Nat} (x : BitVec n) : lo8 (x.setWidth 16) = x.setWidth 8 := by
  rw [lo8, ← BitVec.setWidth_eq_extractLsb' (by decide), BitVec.setWidth_setWidth_of_le x (by decide)]

/-- A byte of WR32's data comes from the low or the high data word (R133). -/
theorem byteOf_append_lo (hi lo : Word) {i : Nat} (h : i < 2) : byteOf (hi ++ lo) i = lo.extractLsb' (8 * i) 8 :=
  BitVec.extractLsb'_append_eq_of_add_le (by omega)

theorem byteOf_append_hi (hi lo : Word) {i : Nat} (h : 2 ≤ i) :
    byteOf (hi ++ lo) i = hi.extractLsb' (8 * i - 16) 8 :=
  BitVec.extractLsb'_append_eq_of_le (by omega)

theorem addrPlus_zero (a : Word) : addrPlus a 0 = a := BitVec.add_zero a

/-- Byte `k` of a 32-bit read is the byte read `k` addresses on (R74). -/
theorem byteOf_memRead32 (s : State) (v : Bool) (a : Word) {k : Nat} (hk : k < 4) :
    byteOf (s.memRead32 v a) k = s.memRead8 v (addrPlus a k) := by
  obtain ⟨h0, h1, h2, h3⟩ := byteOf_word32Of (s.memRead8 v a) (s.memRead8 v (addrPlus a 1))
    (s.memRead8 v (addrPlus a 2)) (s.memRead8 v (addrPlus a 3))
  match k, hk with
  | 0, _ => exact h0.trans (by rw [addrPlus_zero])
  | 1, _ => exact h1
  | 2, _ => exact h2
  | 3, _ => exact h3

/-! ### What the router's writes keep -/

/-- The router does not look at how the last command ended. -/
theorem memWrite8_complete (s : State) (r : Word32) (v : Bool) (a : Word) (d : Byte) :
    (s.complete r).memWrite8 v a d = (s.memWrite8 v a d).complete r := by
  rw [memWrite8_eq, memWrite8_eq]
  rcases addressTarget v (u16 a) with _ | ⟨_ | _, _, _⟩ <;> rfl

theorem memWrite32_g (s : State) (v : Bool) (a : Word) (d : Word32) : (s.memWrite32 v a d).g = s.g := by
  simp only [State.memWrite32, memWrite8_g]

theorem loadByte_g (s : State) (v : Bool) (a : Word) (b : Byte) : (s.loadByte v a b).g = s.g := by
  unfold State.loadByte
  split <;> simp only [memWrite8_g]

theorem State.KeepsControl.completes {s t : State} (h : s.KeepsControl t) (hg : t.g = s.g) (r : Word32) :
    s.Completes (t.complete r) s.g r :=
  ⟨hg, h.fault, h.input, h.epoch, rfl, congrArg (· + 1) h.ci⟩

theorem State.KeepsBytes.trans {s t u : State} {P Q : Store → Nat → Prop} (h : s.KeepsBytes t P)
    (h' : t.KeepsBytes u Q) : s.KeepsBytes u (fun S i => P S i ∨ Q S i) := fun S i hi =>
  (h' S i (fun hq => hi (.inr hq))).trans (h S i (fun hp => hi (.inl hp)))

theorem State.KeepsBytes.mono {s t : State} {P Q : Store → Nat → Prop} (h : s.KeepsBytes t P)
    (hPQ : ∀ S i, P S i → Q S i) : s.KeepsBytes t Q := fun S i hi => h S i (fun hp => hi (hPQ S i hp))

theorem keepsBytes_memWrite8 (s : State) (v : Bool) (a : Word) (d : Byte) :
    s.KeepsBytes (s.memWrite8 v a d) (fun S i => addressByte v (u16 a) = some (S, i)) :=
  byte_memWrite8 s v a d

/-- Four byte writes touch the bytes their four addresses lead to (R75). -/
theorem keepsBytes_memWrite32 (s : State) (v : Bool) (a : Word) (d : Word32) :
    s.KeepsBytes (s.memWrite32 v a d)
      (fun S i => ∃ k, k < 4 ∧ addressByte v (u16 (addrPlus a k)) = some (S, i)) := by
  refine ((((keepsBytes_memWrite8 s v _ _).trans (keepsBytes_memWrite8 _ v _ _)).trans
    (keepsBytes_memWrite8 _ v _ _)).trans (keepsBytes_memWrite8 _ v _ _)).mono ?_
  rintro S i (((h | h) | h) | h)
  · exact ⟨0, by decide, (addrPlus_zero a).symm ▸ h⟩
  · exact ⟨1, by decide, h⟩
  · exact ⟨2, by decide, h⟩
  · exact ⟨3, by decide, h⟩

/-! ### Reading and writing one byte (R130, R131) -/

section
variable {s : State} (hs : s.fault = false)
include hs

theorem exec_rd8 (v : Bool) (a : Word) :
    exec (.rd8 v a) s = .next (s.complete ((s.memRead8 v a).setWidth 32)) := State.unlessFaulted_of_running hs _

theorem exec_wr8 (v : Bool) (a : Word) {d : Word} {b : Byte} (hd : lo8 d = b) :
    exec (.wr8 v a d) s = .next ((s.memWrite8 v a b).complete 0) := hd ▸ State.unlessFaulted_of_running hs _

theorem running_memWrite8 (v : Bool) (a : Word) (b : Byte) (r : Word32) :
    ((s.memWrite8 v a b).complete r).fault = false := (memWrite8_fault s v a b).trans hs

end

/-- Settles O24: the read follows the ranges of R62, and widening an element to a byte loses nothing. -/
theorem rd8Result : Obligations.Rd8Result := by
  intro s v a hs
  refine ⟨by cases v <;> rfl, (exec_rd8 hs v a).trans ?_⟩
  rw [memRead8_eq, u16]
  match addressTarget v a.toNat with
  | some (.nibble, S, e) =>
    have widen : ((s.nib S e).setWidth 8).setWidth 32 = (s.nib S e).setWidth 32 := BitVec.setWidth_setWidth (by decide)
    exact congrArg (fun r : Word32 => Host.Outcome.next (s.complete r)) widen
  | some (.linear, S, k) => rfl
  | none => rfl

/-- Settles O25: the write changes the element or byte its address leads to. -/
theorem wr8Result : Obligations.Wr8Result := by
  intro s v a d hs
  refine ⟨by cases v <;> rfl, _, exec_wr8 hs v a rfl,
    (keepsControl_memWrite8 s v a _).completes (memWrite8_g s v a _) 0, keepsBytes_memWrite8 s v a _, ?_⟩
  rw [memWrite8_eq, u16]
  match addressTarget v a.toNat with
  | some (.nibble, S, e) =>
    refine ⟨?written, ?paired⟩
    case written => exact (State.nib_setNib_same s S e _).trans (loNibble_lo8 d)
    case paired => exact (State.nib_setNib s S S e (e ^^^ 1) _).trans (if_neg (by simp))
  | some (.linear, S, k) => exact State.byte_setByte_same s S k (lo8 d)
  | none => rfl

/-! ### Reading and writing 32 bits (R132, R133) -/

/-- Settles O27: byte by byte the response is the byte read at the address. -/
theorem rd32Result : Obligations.Rd32Result := by
  intro s v a hs
  refine ⟨by cases v <;> rfl, s.memRead32 v a, State.unlessFaulted_of_running hs _, fun k hk => ?_⟩
  have hbyte : (s.memRead32 v a).extractLsb' (8 * k) 8 = s.memRead8 v (addrPlus a k) := byteOf_memRead32 s v a hk
  exact hbyte ▸ State.answers_of_complete hs rfl

/-- Settles O28: the four byte writes in a row, each reading its byte of the data from its operand word. -/
theorem wr32Result : Obligations.Wr32Result := by
  intro s v a lo hi hs
  have operand (w : Word) (i : Nat) : lo8 ((w.extractLsb' i 8).setWidth 16) = w.extractLsb' i 8 :=
    (lo8_setWidth _).trans (BitVec.setWidth_eq _)
  have run1 := running_memWrite8 hs v a (lo.extractLsb' 0 8) 0
  have run2 := running_memWrite8 run1 v (a + 1) (lo.extractLsb' 8 8) 0
  have run3 := running_memWrite8 run2 v (a + 2) (hi.extractLsb' 0 8) 0
  refine ⟨by cases v <;> rfl, _, _, _, _, _, exec_wr8 hs v a (operand lo 0), exec_wr8 run1 v (a + 1) (operand lo 8),
    exec_wr8 run2 v (a + 2) (operand hi 0), exec_wr8 run3 v (a + 3) (operand hi 8),
    State.unlessFaulted_of_running hs _, ?stores,
    (keepsControl_memWrite32 s v a _).completes (memWrite32_g s v a _) 0, keepsBytes_memWrite32 s v a _⟩
  case stores =>
    simp only [memWrite8_complete, State.complete_stores, State.memWrite32, byteOf_append_lo hi lo (i := 0) (by decide),
      byteOf_append_lo hi lo (i := 1) (by decide), byteOf_append_hi hi lo (i := 2) (by decide),
      byteOf_append_hi hi lo (i := 3) (by decide)]
    rfl

/-! ### The bulk-load step (R138) -/

/-- The two elements of a byte, written low nibble first, make the byte (R40, R41). -/
theorem byte_setNib_both (s : State) (S : Store) {e : Nat} (he : e % 2 = 0) (b : Byte) :
    ((s.setNib S e (loNibble b)).setNib S (e + 1) (hiNibble b)).byte S (e / 2) = b := by
  have hbyte : (e + 1) / 2 = e / 2 := by omega
  simp only [State.setNib, hbyte, State.byte_setByte_same, setNibOfByte, if_pos he,
    if_neg (show ¬ (e + 1) % 2 = 0 by omega), loNibble_nibbles, nibbles_eq]

section
variable {s : State} {v : Bool} {a : Word}

theorem loadByte_nibbleRow (h : nibbleRouted v a = true) (b : Byte) :
    s.loadByte v a b = (s.memWrite8 v a ((loNibble b).setWidth 8)).memWrite8 v (a + 1) ((hiNibble b).setWidth 8) :=
  if_pos h

theorem loadByte_otherRow (h : ¬ nibbleRouted v a = true) (b : Byte) : s.loadByte v a b = s.memWrite8 v a b :=
  if_neg h

theorem loadNext_nibbleRow (h : nibbleRouted v a = true) : loadNext v a = a + 2 := if_pos h

theorem loadNext_otherRow (h : ¬ nibbleRouted v a = true) : loadNext v a = a + 1 := if_neg h

theorem keepsBytes_loadByte_nibbleRow (h : nibbleRouted v a = true) (b : Byte) :
    s.KeepsBytes (s.loadByte v a b)
      (fun S i => addressByte v (u16 a) = some (S, i) ∨ addressByte v (u16 (a + 1)) = some (S, i)) :=
  loadByte_nibbleRow h b ▸ (keepsBytes_memWrite8 s v a _).trans (keepsBytes_memWrite8 _ v (a + 1) _)

theorem keepsBytes_loadByte_otherRow (h : ¬ nibbleRouted v a = true) (b : Byte) :
    s.KeepsBytes (s.loadByte v a b) (fun S i => addressByte v (u16 a) = some (S, i)) :=
  loadByte_otherRow h b ▸ keepsBytes_memWrite8 s v a b

theorem completes_loadByte (b : Byte) {n : Word} (hn : loadNext v a = n) :
    s.Completes ((s.loadByte v a b).complete ((loadNext v a).setWidth 32)) s.g (n.setWidth 32) :=
  hn ▸ (keepsControl_loadByte s v a b).completes (loadByte_g s v a b) _

/-- A nibble row has an even base (R62), so element and address are even together. -/
theorem addressTarget_nibble_mod_two {S : Store} {e : Nat} (h : addressTarget v (u16 a) = some (.nibble, S, e)) :
    e % 2 = u16 a % 2 := by
  rw [← route_target, Option.map_eq_some_iff] at h
  obtain ⟨r, hroute, ht⟩ := h
  simp only [Region.target, Prod.mk.injEq] at ht
  obtain ⟨hp, -, rfl⟩ := ht
  obtain ⟨hr, hholds⟩ := mem_of_route hroute
  have hbase := (nibbleRow_even v r hr hp).1
  rw [Region.holds_iff] at hholds
  omega

/-- From an even address of a nibble row the next address leads to the next element, the other half of the byte. -/
theorem addressTarget_succ_of_even {S : Store} {e : Nat} (ha : u16 a % 2 = 0)
    (h : addressTarget v (u16 a) = some (.nibble, S, e)) :
    addressTarget v (u16 (a + 1)) = some (.nibble, S, e + 1) := by
  have he := addressTarget_nibble_mod_two h
  have hnext : a + 1 = a ^^^ 1 := by
    apply BitVec.eq_of_toNat_eq
    have hxor : (a ^^^ 1).toNat = u16 a ^^^ 1 := u16_xor_one a
    have hlt : u16 a < 65536 := a.isLt
    have hadd : (a + 1).toNat = (u16 a + 1) % 65536 := BitVec.toNat_add a 1
    rw [hxor, hadd, xor_one_eq]
    omega
  have helem : e ^^^ 1 = e + 1 := by
    rw [xor_one_eq]
    omega
  rw [hnext, ← helem]
  exact addressTarget_paired h

theorem addressByte_of_nibble {n : Nat} {S : Store} {e : Nat} (h : addressTarget v n = some (.nibble, S, e)) :
    addressByte v n = some (S, e / 2) := by
  rw [addressByte, h]

theorem memWrite8_nibble {S : Store} {e : Nat} (h : addressTarget v (u16 a) = some (.nibble, S, e)) (c : Nibble) :
    s.memWrite8 v a (c.setWidth 8) = s.setNib S e c := by
  have hlow : loNibble (c.setWidth 8) = c :=
    (BitVec.extractLsb'_setWidth_of_le (by decide)).trans BitVec.extractLsb'_eq_self
  rw [memWrite8_eq, h, State.writeTarget, hlow]

/-- At an even address of a nibble row the packed byte is stored unchanged. -/
theorem byte_loadByte_of_even {S : Store} {e : Nat} (ha : u16 a % 2 = 0)
    (h : addressTarget v (u16 a) = some (.nibble, S, e)) (b : Byte) : (s.loadByte v a b).byte S (e / 2) = b := by
  have he : e % 2 = 0 := (addressTarget_nibble_mod_two h).trans ha
  rw [loadByte_nibbleRow ((nibbleRouted_eq v a).mpr ⟨S, e, h⟩), memWrite8_nibble h,
    memWrite8_nibble (addressTarget_succ_of_even ha h), byte_setNib_both s S he]

theorem keepsBytes_loadByte_of_even {S : Store} {e : Nat} (ha : u16 a % 2 = 0)
    (h : addressTarget v (u16 a) = some (.nibble, S, e)) (b : Byte) :
    s.KeepsBytes (s.loadByte v a b) (fun T k => T = S ∧ k = e / 2) := by
  have he : e % 2 = 0 := (addressTarget_nibble_mod_two h).trans ha
  have hbyte : (e + 1) / 2 = e / 2 := by omega
  refine (keepsBytes_loadByte_nibbleRow ((nibbleRouted_eq v a).mpr ⟨S, e, h⟩) b).mono fun T k hk => ?_
  rw [addressByte_of_nibble h, addressByte_of_nibble (addressTarget_succ_of_even ha h), hbyte, or_self] at hk
  cases hk
  exact ⟨rfl, rfl⟩

end

/-- Settles O29: in a nibble row two byte writes, elsewhere one; an even address and the next lead to the two elements of
one byte. -/
theorem loadbResult : Obligations.LoadbResult := by
  intro s v a d hs
  refine ⟨by cases v <;> rfl, _, State.unlessFaulted_of_running hs _, ?rows, fun S e ha h =>
    ⟨byte_loadByte_of_even ha h (lo8 d), keepsBytes_loadByte_of_even ha h (lo8 d)⟩⟩
  case rows =>
    split
    next S e h =>
      have hrow : nibbleRouted v a = true := (nibbleRouted_eq v a).mpr ⟨S, e, h⟩
      have lower : lo8 ((d.extractLsb' 0 4).setWidth 16) = (loNibble (lo8 d)).setWidth 8 := by
        rw [lo8_setWidth, loNibble_lo8]
      have upper : lo8 ((d.extractLsb' 4 4).setWidth 16) = (hiNibble (lo8 d)).setWidth 8 := by
        rw [lo8_setWidth, hiNibble_lo8]
      refine ⟨completes_loadByte (lo8 d) (loadNext_nibbleRow hrow), keepsBytes_loadByte_nibbleRow hrow (lo8 d),
        _, _, exec_wr8 hs v a lower, exec_wr8 (running_memWrite8 hs ..) v (a + 1) upper, ?_⟩
      simp only [loadByte_nibbleRow hrow, memWrite8_complete, State.complete_stores]
    next h =>
      have hrow : ¬ nibbleRouted v a = true := fun hn =>
        have ⟨S, e, ht⟩ := (nibbleRouted_eq v a).mp hn
        h S e ht
      refine ⟨completes_loadByte (lo8 d) (loadNext_otherRow hrow), keepsBytes_loadByte_otherRow hrow (lo8 d),
        _, exec_wr8 hs v a rfl, ?_⟩
      simp only [loadByte_otherRow hrow, State.complete_stores]

end Sys2Proof.Machine

/-! The statements of 41_graphics_state.md. A command of this family replaces the graphics state and completes, which
`exec_of_withG` says once; what is left is the two tables read entry by entry, and the dither selection. -/

namespace Sys2Proof.Machine

/-! ### The dither selection (R165) -/

theorem patternBit_lt (x y : Int) : patternBit x y < 16 := by
  unfold patternBit
  omega

theorem patternBit_of_nonneg {x y : Int} (hx : 0 ≤ x) (hy : 0 ≤ y) :
    patternBit x y = (3 - x.toNat % 4) + (3 - y.toNat % 4) * 4 := by
  unfold patternBit
  omega

theorem Gfx.sel_of_zero {g : Gfx} (h : g.pattern = 0x0000) (x y : Int) : g.sel x y = g.fg := if_pos h

theorem Gfx.sel_of_allOnes {g : Gfx} (h : g.pattern = 0xFFFF) (x y : Int) : g.sel x y = g.bg := by
  have hz : g.pattern ≠ 0x0000 := h ▸ by decide
  rw [Gfx.sel, if_neg hz, if_pos h]

/-- The two end cases are the general case with every pattern bit 0 and every pattern bit 1. -/
theorem Gfx.sel_eq_patternBit (g : Gfx) (x y : Int) :
    g.sel x y = if g.pattern.getLsbD (patternBit x y) then g.bg else g.fg := by
  by_cases hz : g.pattern = 0x0000
  · have hbit : ¬ g.pattern.getLsbD (patternBit x y) = true := by simp [hz]
    rw [g.sel_of_zero hz, if_neg hbit]
  by_cases ho : g.pattern = 0xFFFF
  · have hbit : g.pattern.getLsbD (patternBit x y) = true := by
      have hones : g.pattern = BitVec.allOnes 16 := ho
      rw [hones, BitVec.getLsbD_allOnes, decide_eq_true (patternBit_lt x y)]
    rw [g.sel_of_allOnes ho, if_pos hbit]
  · rw [Gfx.sel, if_neg hz, if_neg ho]

/-- Settles O38: the end cases agree with the pattern bit, whose index is the same over the natural numbers. -/
theorem ditherSelection : Obligations.DitherSelection := by
  intro g x y hx hy
  exact ⟨fun h => g.sel_of_zero h x y, fun h => g.sel_of_allOnes h x y,
    patternBit_of_nonneg hx hy ▸ g.sel_eq_patternBit x y⟩

/-! ### The palette and the transparency, entry by entry (R153 to R156) -/

/-- A write to a table of 16 entries, indexed by a colour. -/
theorem getElem_set_colour {α : Type} (table : Vector α 16) (c0 c : Nibble) (v : α) :
    (table.set c0.toNat v c0.isLt)[c.toNat]'c.isLt = if c = c0 then v else table[c.toNat]'c.isLt := by
  rw [Vector.getElem_set]
  exact if_congr (BitVec.toNat_inj.trans eq_comm) rfl rfl

theorem palette_set (g : Gfx) (c0 c1 c : Nibble) :
    Gfx.palette { g with paletteMap := g.paletteMap.set c0.toNat c1 c0.isLt } c = if c = c0 then c1 else g.palette c :=
  getElem_set_colour g.paletteMap c0 c c1

theorem isTransparent_set (g : Gfx) (c0 c : Nibble) (b : Bool) :
    Gfx.isTransparent { g with transparent := g.transparent.set c0.toNat b c0.isLt } c =
      if c = c0 then b else g.isTransparent c :=
  getElem_set_colour g.transparent c0 c b

/-! ### What each command leaves (R152 to R164) -/

section
variable {s : State} (hs : s.fault = false)
include hs

/-- A command that replaces the graphics state by `g` and does nothing else but complete. -/
theorem exec_of_withG {i : Instr} {g : Gfx} (h : exec i s = s.unlessFaulted ((s.withG g).complete 0)) :
    exec i s = .next { s with g := g, resp := some 0, ci := s.ci + 1 } :=
  h.trans (State.unlessFaulted_of_running hs _)

theorem exec_color (c : Word) :
    exec (.color c) s = .next
      { s with g := { s.g with fg := c.extractLsb' 0 4, bg := c.extractLsb' 4 4 }
               resp := some 0, ci := s.ci + 1 } := by
  rw [← loNibble_lo8, ← hiNibble_lo8]
  exact exec_of_withG hs rfl

end

/-- Settles O32: the nibbles of the colour byte are the low two of the word. -/
theorem colorResult : Obligations.ColorResult := fun _ c hs => ⟨rfl, exec_color hs c⟩

/-- Settles O33: PAL by the table write, PALRST by the palette and the transparency of reset. -/
theorem paletteResult : Obligations.PaletteResult := by
  intro s c0 c1 hs
  refine ⟨rfl, rfl, ⟨_, exec_of_withG hs rfl, ?pal, rfl⟩,
    ⟨_, exec_of_withG hs rfl, ?identity, ?transparent, rfl⟩⟩
  case pal => exact palette_set s.g (lo4 c0) (lo4 c1)
  case identity => exact palette_reset
  case transparent => exact isTransparent_reset

/-- Settles O34: PALT by the table write, PALTRST by the transparency of reset. -/
theorem transparencyResult : Obligations.TransparencyResult := by
  intro s b w hs
  refine ⟨by cases b <;> rfl, rfl, ⟨_, exec_of_withG hs rfl, ?palt, rfl⟩,
    ⟨_, exec_of_withG hs rfl, ?paltrst, rfl⟩⟩
  case palt => exact fun c => isTransparent_set s.g (lo4 w) c b
  case paltrst => exact isTransparent_reset

/-- Settles O35: each command replaces the clip rectangle, CLIP by the clamped operands. -/
theorem clipResult : Obligations.ClipResult := fun _ _ _ _ _ hs =>
  ⟨rfl, rfl, exec_of_withG hs rfl, exec_of_withG hs rfl⟩

/-- Settles O36: each command replaces the camera or the pattern. -/
theorem cameraAndPatternResult : Obligations.CameraAndPatternResult := fun _ _ _ _ hs =>
  ⟨⟨rfl, rfl, rfl, rfl⟩, exec_of_withG hs rfl, exec_of_withG hs rfl, exec_of_withG hs rfl, exec_of_withG hs rfl⟩

/-- Settles O37: RESTORE replaces the whole graphics state by that of reset, SELSHEET its sheet select. -/
theorem restoreAndSelsheetResult : Obligations.RestoreAndSelsheetResult := fun _ b hs =>
  ⟨rfl, by cases b <;> rfl, exec_of_withG hs rfl, exec_of_withG hs rfl⟩

end Sys2Proof.Machine

/-! The statements of 42_blit.md. `draws_blitter` and `draws_stretch` say what the two blits draw; what is left is the
end of a drawing command, the operand words, and that the scaled blit of equal sizes is the fixed one. -/

namespace Sys2Proof.Machine

/-! ### From a drawing to its command -/

/-- A drawing command without a colour word, at a clear latch: it completes, and paints what its operation draws. -/
theorem exec_of_draws {s t : State} {i : Instr} {D : Int → Int → Prop} {v : Int → Int → Nibble}
    (hs : s.fault = false) (h : exec i s = s.unlessFaulted (t.complete 0)) (hd : Draws s t D v) :
    ∃ u, exec i s = .next u ∧ s.Completes u s.g 0 ∧ s.Paints u D v :=
  ⟨t.complete 0, h.trans (State.unlessFaulted_of_running hs _), hd.completes 0, hd.paints.complete 0⟩

/-- The source of SPR is the sprite's top-left cell, by the low byte of its operand (R185, 10_state.md R42). -/
theorem exec_spr (s : State) (fx fy : Bool) (n x y w h : Word) :
    exec (.spr fx fy n x y w h) s = s.unlessFaulted
      ((s.blitter (s.camX (s16 x)) (s.camY (s16 y)) (8 * (n.toNat % 16 : Nat)) (8 * (n.toNat % 256 / 16 : Nat))
        (8 * s16 w) (8 * s16 h) fx fy).complete 0) := by
  rw [← spriteX_lo8, ← spriteY_lo8]
  rfl

/-- Settles O52: what the fixed blit draws, at the operands of BLIT. -/
theorem blitResult : Obligations.BlitResult := fun _ fx fy _ _ _ _ _ _ hs hg =>
  ⟨by cases fx <;> cases fy <;> rfl, exec_of_draws hs rfl (draws_blitter hg _ _ _ _ _ _ fx fy)⟩

/-- Settles O53: what the fixed blit draws, from the sprite's cell. -/
theorem sprResult : Obligations.SprResult := fun s fx fy n x y w h hs hg =>
  ⟨by cases fx <;> cases fy <;> rfl,
    exec_of_draws hs (exec_spr s fx fy n x y w h) (draws_blitter hg _ _ _ _ _ _ fx fy)⟩

/-- Settles O54: what the scaled blit draws, at the operands of SSPR. -/
theorem ssprResult : Obligations.SsprResult := fun _ fx fy _ _ _ _ _ _ _ _ hs hg =>
  ⟨by cases fx <;> cases fy <;> rfl, exec_of_draws hs rfl (draws_stretch hg _ _ _ _ _ _ _ _ fx fy)⟩

/-! ### No blit leaves the clip rectangle (R188 (a)) -/

/-- All a blit can do: its packet is ignored while the latch is set, else it draws palette entries inside the clip
rectangle. -/
theorem exec_blit_draws {s : State} {i : Instr} (hg : s.g.clipOk) (hi : isBlit i = true) :
    ∃ (t : State) (D : Int → Int → Prop) (c : Int → Int → Nibble),
      exec i s = s.unlessFaulted (t.complete 0) ∧
        Draws s t (fun a b => s.g.inClip a b ∧ D a b) (fun a b => s.g.palette (c a b)) := by
  cases i with
  | blit | spr => exact ⟨_, _, _, rfl, draws_blitter hg ..⟩
  | sspr => exact ⟨_, _, _, rfl, draws_stretch hg ..⟩
  | map => exact ⟨_, _, _, rfl, draws_mapBlock hg ..⟩
  | _ => cases hi

/-- A drawing inside the clip rectangle keeps every pixel outside it, and every byte that holds none of its pixels. -/
theorem Draws.keeps_outside_clip {s t : State} {D : Int → Int → Prop} {v : Int → Int → Nibble}
    (h : Draws s t (fun a b => s.g.inClip a b ∧ D a b) v) :
    (∀ x y, onScreen x y → ¬ s.g.inClip x y → t.fbPix x y = s.fbPix x y) ∧
      s.KeepsBytes t (fun S k => S = .fb ∧ ∃ x y, onScreen x y ∧ s.g.inClip x y ∧ k = fbElem x y / 2) := by
  refine ⟨fun x y hxy hout => h.kept x y hxy fun hd => hout hd.1, h.paints.bytes.mono ?_⟩
  rintro S k ⟨hS, x, y, hxy, ⟨hin, _⟩, hk⟩
  exact ⟨hS, x, y, hxy, hin, hk⟩

/-! ### The scaled blit of equal sizes is the fixed blit (R188 (b)) -/

/-- The fixed blit of an empty rectangle draws nothing. -/
theorem blitter_of_empty (s : State) {w h : Int} (hempty : w ≤ 0 ∨ h ≤ 0) (scrX scrY sprX sprY : Int)
    (fx fy : Bool) : s.blitter scrX scrY sprX sprY w h fx fy = s := by
  rw [blitter_eq_window]
  rcases hempty with hw | hh
  · have hrow : min (scrX + w) s.g.clipX2 - 1 < max scrX s.g.clipX1 := by omega
    simp only [forRange_empty hrow, forRange_id]
  · exact forRange_empty (by omega) _ s

/-- Without flips and with equal sizes, both blits look at the same source cell for each pixel of the same window. -/
theorem stretch_eq_blitter (s : State) (sprX sprY w h scrX scrY : Int) :
    s.stretch sprX sprY w h scrX scrY w h false false = s.blitter scrX scrY sprX sprY w h false false := by
  by_cases hempty : w ≤ 0 ∨ h ≤ 0
  · have hextent : w ≤ 0 ∨ h ≤ 0 ∨ w ≤ 0 ∨ h ≤ 0 := by omega
    rw [blitter_of_empty s hempty, State.stretch, if_pos hextent]
  · have hextent : ¬ (w ≤ 0 ∨ h ≤ 0 ∨ w ≤ 0 ∨ h ≤ 0) := by omega
    have hX (k : Int) : scaledSrc sprX w w k = sprX + k := scaledSrc_unit sprX w k (by omega)
    have hY (k : Int) : scaledSrc sprY h h k = sprY + k := scaledSrc_unit sprY h k (by omega)
    simp only [blitter_eq_window, State.stretch, if_neg hextent, windowSrc_unflipped, flipped, Bool.false_eq_true,
      if_false, hX, hY]

/-- Settles O55: (a) by what a blit draws, or by the ignored packet; (b) by the two blits' equality. -/
theorem engineProperties : Obligations.EngineProperties := by
  refine ⟨fun s t i hg hi h => ?clip, fun s sx sy w h dx dy => ?equalSizes⟩
  case clip =>
    obtain ⟨u, D, c, hexec, hd⟩ := exec_blit_draws hg hi
    rcases State.unlessFaulted_cases (hexec.symm.trans h) with ⟨_, rfl⟩ | ⟨_, rfl⟩
    · exact ⟨fun _ _ _ _ => rfl, fun _ _ _ => rfl⟩
    · exact hd.keeps_outside_clip
  case equalSizes =>
    exact congrArg (fun t : State => s.unlessFaulted (t.complete 0)) (stretch_eq_blitter s ..)

end Sys2Proof.Machine

/-! The statements of 43_primitives.md. What each primitive draws is said in its `draws_` lemma; what is left for the
commands is the colour word and the camera. The two walks are followed point by point, each with its error term in
closed form, so that a walk is known by the steps already taken. -/

namespace Sys2Proof.Machine

/-! ### The whole screen and one pixel read (R200, R201) -/

/-- Settles O39: what clearing draws, at the palette entry of the operand's low nibble. -/
theorem clsResult : Obligations.ClsResult := fun s c hs =>
  ⟨rfl, exec_of_draws hs rfl (draws_fillScreen s (s.g.palette (lo4 c)))⟩

/-- Settles O40: the read tests the camera-adjusted point against the screen. -/
theorem pgetResult : Obligations.PgetResult := by
  intro s x y hs
  refine ⟨rfl, (State.unlessFaulted_of_running hs _).trans ?_⟩
  have hread (px py : Int) : (s.pixelAt px py).setWidth 32 =
      if onScreen px py then (s.fbPix px py).setWidth 32 else (0 : Word32) := apply_ite (BitVec.setWidth 32) _ _ _
  rw [hread]
  rfl

/-! ### The primitives (R203 to R213) -/

/-- The header of a packet with an optional colour word has the modifier bit `C` when the word is there (R104). -/
theorem packet_colored {op : BitVec 8} {on off : Word} (hon : header op 0x01 = on) (hoff : header op 0x00 = off)
    (ops : List Word) (cw : Option Word) :
    header op (bitC cw) :: ops ++ cw.toList = (if cw.isSome then on else off) :: ops ++ cw.toList := by
  rw [bitC, apply_ite (header op), hon, hoff]

/-- A drawing command with an optional colour word, at a clear latch: it completes with the colours the word leaves, and
paints what its operation draws. -/
theorem exec_of_draws_colored {s t : State} {i : Instr} {cw : Option Word} {P Q : Int → Int → Prop}
    (hs : s.fault = false) (h : exec i s = s.unlessFaulted (t.complete 0))
    (hd : Draws (s.colorWord cw) t (fun a b => (s.colorWord cw).g.inClip a b ∧ P a b) (s.colorWord cw).g.sel)
    (hPQ : ∀ a b, Q a b ↔ P a b) :
    ∃ u, exec i s = .next u ∧ s.Completes u (s.g.colored cw) 0 ∧
      s.Paints u (fun a b => s.g.inClip a b ∧ Q a b) (s.g.colored cw).sel :=
  ⟨t.complete 0, h.trans (State.unlessFaulted_of_running hs _), draws_after_colorWord hd hPQ⟩

/-- The camera moves both ends of a run alike (R150). -/
theorem camera_run (u v k a : Int) :
    (min u v - k ≤ a ∧ a ≤ max u v - k) ↔ (min (u - k) (v - k) ≤ a ∧ a ≤ max (u - k) (v - k)) := by omega

/-- Settles O41: what the clipped pixel draws. -/
theorem psetResult : Obligations.PsetResult := fun _ _ _ cw hs hg =>
  ⟨packet_colored rfl rfl _ cw, exec_of_draws_colored hs rfl (draws_psetI (clipOk_colorWord hg cw) _ _)
    fun _ _ => Iff.rfl⟩

/-- Settles O42: what the clipped run draws, its ends moved by the camera. -/
theorem hlineResult : Obligations.HlineResult := fun _ _ _ _ cw hs hg =>
  ⟨packet_colored rfl rfl _ cw, exec_of_draws_colored hs rfl (draws_hlineI (clipOk_colorWord hg cw) _ _ _)
    fun a _ => and_congr_right' (camera_run _ _ _ a)⟩

/-- Settles O43: what the clipped run draws, its ends moved by the camera. -/
theorem vlineResult : Obligations.VlineResult := fun _ _ _ _ cw hs hg =>
  ⟨packet_colored rfl rfl _ cw, exec_of_draws_colored hs rfl (draws_vlineI (clipOk_colorWord hg cw) _ _ _)
    fun _ b => and_congr_right' (camera_run _ _ _ b)⟩

/-- Settles O44: what a list of clipped pixels draws. -/
theorem lineResult : Obligations.LineResult := fun _ _ _ _ _ cw hs hg =>
  ⟨packet_colored rfl rfl _ cw, exec_of_draws_colored hs rfl (draws_points (clipOk_colorWord hg cw) _)
    fun _ _ => Iff.rfl⟩

/-- Settles O46: what the four clipped runs draw, the corners moved by the camera. -/
theorem rectResult : Obligations.RectResult := fun _ _ _ _ _ cw hs hg =>
  ⟨packet_colored rfl rfl _ cw, exec_of_draws_colored hs rfl (draws_rectI (clipOk_colorWord hg cw) _ _ _ _)
    fun a b => and_assoc.symm.trans (and_congr_left' (and_congr (camera_run _ _ _ a) (camera_run _ _ _ b)))⟩

/-- Settles O47: what the clipped rectangle draws, the corners moved by the camera. -/
theorem rectfillResult : Obligations.RectfillResult := fun _ _ _ _ _ cw hs hg =>
  ⟨packet_colored rfl rfl _ cw, exec_of_draws_colored hs rfl (draws_rectfillI (clipOk_colorWord hg cw) _ _ _ _)
    fun a b => and_congr (camera_run _ _ _ a) (camera_run _ _ _ b)⟩

/-- Settles O48: what the clipped points of the outline draw. -/
theorem circResult : Obligations.CircResult := fun _ _ _ _ cw hs hg =>
  ⟨packet_colored rfl rfl _ cw, exec_of_draws_colored hs rfl (draws_circI (clipOk_colorWord hg cw) _ _ _)
    fun _ _ => Iff.rfl⟩

/-- Settles O49: what the clipped pixel, diamond or pairs of spans draw. -/
theorem circfillResult : Obligations.CircfillResult := fun _ _ _ _ cw hs hg =>
  ⟨packet_colored rfl rfl _ cw, exec_of_draws_colored hs rfl (draws_circfillI (clipOk_colorWord hg cw) _ _ _)
    fun _ _ => Iff.rfl⟩

/-! ### Walks -/

/-- `ps` is a walk from `p`: it begins there, each point leads to the next by `R`, and `E` holds where it ends. -/
structure IsWalk (R : Int × Int → Int × Int → Prop) (E : Int × Int → Prop) (p : Int × Int)
    (ps : List (Int × Int)) : Prop where
  head : ps.head? = some p
  chain : ps.IsChain R
  last : ∃ q, ps.getLast? = some q ∧ E q

section
variable {R : Int × Int → Int × Int → Prop} {E : Int × Int → Prop} {p q : Int × Int} {ps : List (Int × Int)}

theorem isWalk_single (h : E p) : IsWalk R E p [p] := ⟨rfl, .singleton p, p, rfl, h⟩

theorem IsWalk.cons (h : IsWalk R E q ps) (hpq : R p q) : IsWalk R E p (p :: ps) := by
  obtain ⟨qs, rfl⟩ : ∃ qs, ps = q :: qs := List.head?_eq_some_iff.mp h.head
  exact ⟨rfl, .cons_cons hpq h.chain, by simpa using h.last⟩

theorem IsWalk.next (h : IsWalk R E p ps) {k : Nat} {a b : Int × Int} (ha : ps[k]? = some a)
    (hb : ps[k + 1]? = some b) : R a b := by
  obtain ⟨hk, rfl⟩ := List.getElem?_eq_some_iff.mp hb
  obtain ⟨-, rfl⟩ := List.getElem?_eq_some_iff.mp ha
  exact h.chain.getElem k hk

end

/-! ### The line walk (R208) -/

/-- The error term of R208 after `i` steps in x and `j` in y, in closed form. -/
def LineCtx.err (c : LineCtx) (i j : Nat) : Int := c.dx * (1 + j) + c.dy * (1 + i)

/-- The steps in x after R208's test for x. -/
def LineCtx.nextI (c : LineCtx) (i j : Nat) : Nat := if c.dy ≤ 2 * c.err i j then i + 1 else i

/-- The steps in y after R208's test for y. -/
def LineCtx.nextJ (c : LineCtx) (i j : Nat) : Nat := if 2 * c.err i j ≤ c.dx then j + 1 else j

theorem LineCtx.nextI_of_step {c : LineCtx} {i j : Nat} (h : c.dy ≤ 2 * c.err i j) : c.nextI i j = i + 1 := if_pos h

theorem LineCtx.nextJ_of_step {c : LineCtx} {i j : Nat} (h : 2 * c.err i j ≤ c.dx) : c.nextJ i j = j + 1 := if_pos h

/-- The point `i` steps in x and `j` in y from `(x0, y0)`. -/
def LineCtx.point (c : LineCtx) (x0 y0 : Int) (i j : Nat) : Int × Int := (x0 + c.sx * i, y0 + c.sy * j)

/-- How far y is ahead of the line: `dx` times the steps in y, less `-dy` times the steps in x. -/
def LineCtx.drift (c : LineCtx) (i j : Nat) : Int := c.dx * j + c.dy * i

theorem LineCtx.err_eq_drift (c : LineCtx) (i j : Nat) : c.err i j = c.dx + c.dy + c.drift i j := by
  unfold LineCtx.err LineCtx.drift
  ring

theorem LineCtx.drift_next (c : LineCtx) (i j : Nat) :
    c.drift (c.nextI i j) (c.nextJ i j) =
      c.drift i j + (if c.dy ≤ 2 * c.err i j then c.dy else 0) + (if 2 * c.err i j ≤ c.dx then c.dx else 0) := by
  unfold LineCtx.drift LineCtx.nextI LineCtx.nextJ
  split <;> split <;> push_cast <;> ring

theorem LineCtx.point_next_fst (c : LineCtx) (x0 y0 : Int) (i j : Nat) :
    (c.point x0 y0 (c.nextI i j) (c.nextJ i j)).1 =
      if c.dy ≤ 2 * c.err i j then (c.point x0 y0 i j).1 + c.sx else (c.point x0 y0 i j).1 := by
  unfold LineCtx.point LineCtx.nextI
  split <;> push_cast <;> ring

theorem LineCtx.point_next_snd (c : LineCtx) (x0 y0 : Int) (i j : Nat) :
    (c.point x0 y0 (c.nextI i j) (c.nextJ i j)).2 =
      if 2 * c.err i j ≤ c.dx then (c.point x0 y0 i j).2 + c.sy else (c.point x0 y0 i j).2 := by
  unfold LineCtx.point LineCtx.nextJ
  split <;> push_cast <;> ring

theorem LineCtx.err_next (c : LineCtx) (i j : Nat) :
    c.err (c.nextI i j) (c.nextJ i j) =
      c.err i j + (if c.dy ≤ 2 * c.err i j then c.dy else 0) + (if 2 * c.err i j ≤ c.dx then c.dx else 0) := by
  rw [c.err_eq_drift (c.nextI i j), c.drift_next, c.err_eq_drift]
  ring

/-- The walk from a point with the error term of that point goes on with the error term of the next. -/
theorem lineWalk_succ (c : LineCtx) (x0 y0 : Int) (n i j : Nat) :
    lineWalk c (n + 1) (c.point x0 y0 i j).1 (c.point x0 y0 i j).2 (c.err i j) =
      if c.point x0 y0 i j = (c.x1, c.y1) then [c.point x0 y0 i j]
      else c.point x0 y0 i j ::
        lineWalk c n (c.point x0 y0 (c.nextI i j) (c.nextJ i j)).1 (c.point x0 y0 (c.nextI i j) (c.nextJ i j)).2
          (c.err (c.nextI i j) (c.nextJ i j)) := by
  simp only [lineWalk, c.point_next_fst, c.point_next_snd, c.err_next, Prod.ext_iff]

/-- How many points of the walk come after this one: the steps left on the longer axis. -/
def LineCtx.left (c : LineCtx) (i j : Nat) : Int := if -c.dy ≤ c.dx then c.dx - i else -c.dy - j

/-- The walk stays within half a step of the line. -/
def LineCtx.OnTrack (c : LineCtx) (i j : Nat) : Prop := |2 * c.drift i j| ≤ max c.dx (-c.dy)

/-! Where the walk starts. -/

theorem LineCtx.point_zero (c : LineCtx) (x0 y0 : Int) : c.point x0 y0 0 0 = (x0, y0) := by simp [LineCtx.point]

theorem LineCtx.err_zero (c : LineCtx) : c.err 0 0 = c.dx + c.dy := by simp [LineCtx.err]

theorem LineCtx.left_zero (c : LineCtx) : c.left 0 0 = max c.dx (-c.dy) := by
  unfold LineCtx.left
  split <;> omega

theorem LineCtx.onTrack_zero {c : LineCtx} (hdx : 0 ≤ c.dx) : c.OnTrack 0 0 := by
  have hdrift : c.drift 0 0 = 0 := by simp [LineCtx.drift]
  rw [LineCtx.OnTrack, hdrift, mul_zero, abs_zero]
  exact le_max_of_le_left hdx

/-- A multiple of `a` within half of `a` is zero. -/
theorem eq_zero_of_abs_two_mul_le {a k : Int} (ha : 0 < a) (h : |2 * (a * k)| ≤ a) : k = 0 := by
  rw [abs_le] at h
  have hlt : k < 1 := by nlinarith
  have hgt : -1 < k := by nlinarith
  omega

section
variable {c : LineCtx} {i j : Nat} (h : c.OnTrack i j)
include h

/-- Every step advances along the longer axis. -/
theorem LineCtx.longer_axis_steps : if -c.dy ≤ c.dx then c.dy ≤ 2 * c.err i j else 2 * c.err i j ≤ c.dx := by
  unfold LineCtx.OnTrack at h
  rw [abs_le] at h
  rw [c.err_eq_drift]
  split <;> omega

theorem LineCtx.left_next : c.left (c.nextI i j) (c.nextJ i j) = c.left i j - 1 := by
  have hsteps := c.longer_axis_steps h
  unfold LineCtx.left
  split at hsteps
  next hlong =>
    rw [if_pos hlong, if_pos hlong, LineCtx.nextI_of_step hsteps]
    omega
  next hlong =>
    rw [if_neg hlong, if_neg hlong, LineCtx.nextJ_of_step hsteps]
    omega

/-- A step brings the walk back: x lowers the drift unless it is low already, y raises it unless it is
high. -/
theorem LineCtx.onTrack_next (hdx : 0 ≤ c.dx) (hdy : c.dy ≤ 0) : c.OnTrack (c.nextI i j) (c.nextJ i j) := by
  unfold LineCtx.OnTrack at h ⊢
  rw [c.drift_next, c.err_eq_drift]
  rw [abs_le] at h ⊢
  split <;> split <;> omega

/-- With no step left on the longer axis, half a step off the line is on it: both axes are done. -/
theorem LineCtx.left_eq_zero_iff (hpos : 0 < max c.dx (-c.dy)) :
    c.left i j = 0 ↔ (i : Int) = c.dx ∧ (j : Int) = -c.dy := by
  unfold LineCtx.OnTrack at h
  unfold LineCtx.left
  split
  next hlong =>
    refine ⟨fun hleft => ?_, fun hdone => by omega⟩
    have hi : (i : Int) = c.dx := by omega
    have hdrift : c.drift i j = c.dx * (j + c.dy) := by
      rw [LineCtx.drift, hi]
      ring
    rw [max_eq_left hlong] at h hpos
    have hj := eq_zero_of_abs_two_mul_le hpos (hdrift ▸ h)
    omega
  next hlong =>
    refine ⟨fun hleft => ?_, fun hdone => by omega⟩
    have hj : (j : Int) = -c.dy := by omega
    have hdrift : c.drift i j = -c.dy * (c.dx - i) := by
      rw [LineCtx.drift, hj]
      ring
    rw [max_eq_right (by omega)] at h hpos
    have hi := eq_zero_of_abs_two_mul_le hpos (hdrift ▸ h)
    omega

end

/-! The set-up of R208: the signs lead from the start to the end. -/

/-- On one axis of the line the step sign leads from `a` to `b` in `|b - a|` steps. -/
theorem axis_reaches_iff (a b : Int) (k : Nat) : a + (if a < b then 1 else -1) * k = b ↔ (k : Int) = |b - a| := by
  split
  next h =>
    rw [abs_of_pos (by omega)]
    omega
  next h =>
    rw [abs_of_nonpos (by omega)]
    omega

/-- On one axis of the line the distance from the start counts the steps. -/
theorem abs_axis_sub (a b : Int) (k : Nat) : |a + (if a < b then 1 else -1) * k - a| = (k : Int) := by
  split <;> simp

section
variable (x0 y0 x1 y1 : Int)

theorem lineCtx_dx_nonneg : 0 ≤ (lineCtx x0 y0 x1 y1).dx := abs_nonneg _

theorem lineCtx_dy_nonpos : (lineCtx x0 y0 x1 y1).dy ≤ 0 := neg_nonpos.mpr (abs_nonneg _)

theorem abs_lineCtx_sx : |(lineCtx x0 y0 x1 y1).sx| = 1 := by
  simp only [lineCtx]
  split <;> rfl

theorem abs_lineCtx_sy : |(lineCtx x0 y0 x1 y1).sy| = 1 := by
  simp only [lineCtx]
  split <;> rfl

theorem lineCtx_point_eq_iff (i j : Nat) :
    (lineCtx x0 y0 x1 y1).point x0 y0 i j = (x1, y1) ↔
      (i : Int) = (lineCtx x0 y0 x1 y1).dx ∧ (j : Int) = -(lineCtx x0 y0 x1 y1).dy := by
  have hy : -(lineCtx x0 y0 x1 y1).dy = |y1 - y0| := neg_neg _
  rw [hy, Prod.ext_iff]
  exact and_congr (axis_reaches_iff x0 x1 i) (axis_reaches_iff y0 y1 j)

/-- What R208 says of consecutive points: an advance along the longer axis, by the choice at the error term of the
steps already taken. -/
def LineStep (p q : Int × Int) : Prop :=
  let c := lineCtx x0 y0 x1 y1
  let err := c.dx * (1 + |p.2 - y0|) + c.dy * (1 + |p.1 - x0|)
  (if -c.dy ≤ c.dx then |q.1 - p.1| = 1 ∧ |q.2 - p.2| ≤ 1 else |q.1 - p.1| ≤ 1 ∧ |q.2 - p.2| = 1) ∧
    q = (if c.dy ≤ 2 * err then p.1 + c.sx else p.1, if 2 * err ≤ c.dx then p.2 + c.sy else p.2)

end

section
variable {x0 y0 x1 y1 : Int} {c : LineCtx} (hc : lineCtx x0 y0 x1 y1 = c) {i j : Nat} (h : c.OnTrack i j)
include hc h

theorem lineStep_next : LineStep x0 y0 x1 y1 (c.point x0 y0 i j) (c.point x0 y0 (c.nextI i j) (c.nextJ i j)) := by
  have hi : |(c.point x0 y0 i j).1 - x0| = (i : Int) := hc ▸ abs_axis_sub x0 x1 i
  have hj : |(c.point x0 y0 i j).2 - y0| = (j : Int) := hc ▸ abs_axis_sub y0 y1 j
  have hsx : |c.sx| = 1 := hc ▸ abs_lineCtx_sx x0 y0 x1 y1
  have hsy : |c.sy| = 1 := hc ▸ abs_lineCtx_sy x0 y0 x1 y1
  have hsteps := LineCtx.longer_axis_steps h
  simp only [LineStep, hc, hi, hj]
  refine ⟨?advance, Prod.ext (c.point_next_fst ..) (c.point_next_snd ..)⟩
  rw [c.point_next_fst, c.point_next_snd]
  split
  next hlong =>
    rw [if_pos hlong] at hsteps
    rw [if_pos hsteps]
    refine ⟨by simpa using hsx, ?_⟩
    split <;> simp [hsy]
  next hlong =>
    rw [if_neg hlong] at hsteps
    rw [if_pos hsteps]
    refine ⟨?_, by simpa using hsy⟩
    split <;> simp [hsx]

/-- From a point on the track, with room for the points left, the walk goes by R208's choice to the end point, in as
many points as the longer axis has steps left, and one. -/
theorem lineWalk_isWalk (hpos : 0 < max c.dx (-c.dy)) {n : Nat} (hleft : 0 ≤ c.left i j) (hn : c.left i j < n) :
    IsWalk (LineStep x0 y0 x1 y1) (· = (x1, y1)) (c.point x0 y0 i j)
        (lineWalk c n (c.point x0 y0 i j).1 (c.point x0 y0 i j).2 (c.err i j)) ∧
      ((lineWalk c n (c.point x0 y0 i j).1 (c.point x0 y0 i j).2 (c.err i j)).length : Int) = c.left i j + 1 := by
  induction n generalizing i j with
  | zero => omega
  | succ n ih =>
    have hend : c.point x0 y0 i j = (x1, y1) ↔ c.left i j = 0 :=
      (hc ▸ lineCtx_point_eq_iff x0 y0 x1 y1 i j).trans (LineCtx.left_eq_zero_iff h hpos).symm
    have hxy : c.x1 = x1 ∧ c.y1 = y1 := hc ▸ ⟨rfl, rfl⟩
    have hdx : 0 ≤ c.dx := hc ▸ lineCtx_dx_nonneg x0 y0 x1 y1
    have hdy : c.dy ≤ 0 := hc ▸ lineCtx_dy_nonpos x0 y0 x1 y1
    have hnext := LineCtx.left_next h
    rw [lineWalk_succ, hxy.1, hxy.2]
    split
    next hp => exact ⟨isWalk_single hp, by simp [hend.mp hp]⟩
    next hp =>
      have hgo : c.left i j ≠ 0 := fun h0 => hp (hend.mpr h0)
      obtain ⟨walk, len⟩ := ih (LineCtx.onTrack_next h hdx hdy) (by omega) (by omega)
      refine ⟨walk.cons (lineStep_next hc h), ?_⟩
      rw [List.length_cons]
      push_cast
      omega

end

/-- A line from a point to itself is that point. -/
theorem linePoints_self (x y : Int) : linePoints x y x y = [(x, y)] := by simp [linePoints, lineCtx, lineWalk]

/-- LINE's points: a walk by R208's choice between the ends, of one point more than the longer axis has steps. -/
theorem linePoints_isWalk {x0 y0 x1 y1 : Int} {c : LineCtx} (hc : lineCtx x0 y0 x1 y1 = c) :
    IsWalk (LineStep x0 y0 x1 y1) (· = (x1, y1)) (x0, y0) (linePoints x0 y0 x1 y1) ∧
      ((linePoints x0 y0 x1 y1).length : Int) = max c.dx (-c.dy) + 1 := by
  have hdx : 0 ≤ c.dx := hc ▸ lineCtx_dx_nonneg x0 y0 x1 y1
  have hdy : c.dy ≤ 0 := hc ▸ lineCtx_dy_nonpos x0 y0 x1 y1
  by_cases hpos : 0 < max c.dx (-c.dy)
  case pos =>
    have walk := lineWalk_isWalk hc (LineCtx.onTrack_zero hdx) hpos (n := (c.dx - c.dy + 1).toNat)
      (by rw [c.left_zero]; omega) (by rw [c.left_zero]; omega)
    rw [c.point_zero, c.err_zero, c.left_zero] at walk
    simpa only [linePoints, hc] using walk
  case neg =>
    have hend := hc ▸ lineCtx_point_eq_iff x0 y0 x1 y1 0 0
    rw [c.point_zero] at hend
    obtain ⟨rfl, rfl⟩ := Prod.mk.inj (hend.mpr ⟨by push_cast; omega, by push_cast; omega⟩)
    rw [linePoints_self, List.length_singleton]
    exact ⟨isWalk_single rfl, by push_cast; omega⟩

/-- Settles O45: the points are a walk by R208's choice from the start to the end. -/
theorem lineWalkReachesBothEnds : Obligations.LineWalkReachesBothEnds := by
  intro x0 y0 x1 y1
  obtain ⟨walk, length⟩ := linePoints_isWalk (x0 := x0) (y0 := y0) (x1 := x1) (y1 := y1) rfl
  obtain ⟨q, last, rfl⟩ := walk.last
  exact ⟨walk.head, last, length, fun k p q => walk.next⟩

/-! ### The circle walk (R211) -/

/-- The error term of R211 at a point, in closed form. -/
def circleErr (r : Int) (p : Int × Int) : Int := (p.1 + 1) ^ 2 + (p.2 + 1) ^ 2 - r ^ 2

/-- R211's step from a point. -/
def circleStep (r : Int) (p : Int × Int) : Int × Int :=
  (p.1 + (if p.1 < circleErr r p then 1 else 0), p.2 + (if circleErr r p ≤ p.2 then 1 else 0))

/-- The quadrant of the walk, within the radius. -/
def InQuadrant (r : Int) (p : Int × Int) : Prop := (-r ≤ p.1 ∧ p.1 < 0) ∧ (0 ≤ p.2 ∧ p.2 ≤ r)

/-- The walk from a point with the error term of that point goes on with the error term of the next. -/
theorem circleWalk_succ (r : Int) (n : Nat) (p : Int × Int) :
    circleWalk (n + 1) p.1 p.2 (circleErr r p) =
      p :: if 0 ≤ (circleStep r p).1 then []
        else circleWalk n (circleStep r p).1 (circleStep r p).2 (circleErr r (circleStep r p)) := by
  have hx : (if p.1 < circleErr r p then p.1 + 1 else p.1) = (circleStep r p).1 := by
    unfold circleStep
    split <;> simp
  have hy : (if circleErr r p ≤ p.2 then p.2 + 1 else p.2) = (circleStep r p).2 := by
    unfold circleStep
    split <;> simp
  have herr : circleErr r p + (if p.1 < circleErr r p then 2 * (circleStep r p).1 + 1 else 0) +
      (if circleErr r p ≤ p.2 then 2 * (circleStep r p).2 + 1 else 0) = circleErr r (circleStep r p) := by
    by_cases hstepX : p.1 < circleErr r p <;> by_cases hstepY : circleErr r p ≤ p.2 <;>
      simp only [circleStep, hstepX, hstepY, if_true, if_false] <;> unfold circleErr <;> ring
  simp only [circleWalk, hx, hy, herr]

section
variable {r : Int} {p : Int × Int} (hp : InQuadrant r p)
include hp

/-- In the quadrant `x < y`, so one of R211's two tests succeeds. -/
theorem circleStep_advances : p.1 + p.2 < (circleStep r p).1 + (circleStep r p).2 := by
  unfold InQuadrant at hp
  unfold circleStep
  split <;> split <;> simp only <;> omega

/-- At `y = r` the error term is above `y`, where R211 takes no step in y, so the walk does not leave the radius. -/
theorem circleStep_inQuadrant (hx : (circleStep r p).1 < 0) : InQuadrant r (circleStep r p) := by
  obtain ⟨⟨hlo, -⟩, hy0, hyr⟩ := hp
  have inside : circleErr r p ≤ p.2 → p.2 < r := fun h => by
    unfold circleErr at h
    nlinarith [sq_nonneg (p.1 + 1)]
  refine ⟨⟨?left, hx⟩, ?height⟩
  case left => exact hlo.trans (le_add_of_nonneg_right (by split <;> decide))
  case height =>
    unfold circleStep
    dsimp only
    split <;> omega

end

/-- With room for as many points as the two axes have steps left, the walk goes by R211's step and ends by itself. -/
theorem circleWalk_isWalk {r : Int} {n : Nat} {p : Int × Int} (hp : InQuadrant r p) (hn : r - p.1 - p.2 ≤ n) :
    IsWalk (fun a b => b = circleStep r a) (fun a => 0 ≤ (circleStep r a).1) p
      (circleWalk n p.1 p.2 (circleErr r p)) := by
  induction n generalizing p with
  | zero =>
    unfold InQuadrant at hp
    omega
  | succ n ih =>
    have hadv := circleStep_advances hp
    rw [circleWalk_succ]
    split
    next hend => exact isWalk_single hend
    next hgo => exact (ih (circleStep_inQuadrant hp (by omega)) (by omega)).cons rfl

theorem inQuadrant_of_mem_circleWalk {r : Int} {n : Nat} {p q : Int × Int} (hp : InQuadrant r p)
    (hq : q ∈ circleWalk n p.1 p.2 (circleErr r p)) : InQuadrant r q := by
  induction n generalizing p with
  | zero => cases hq
  | succ n ih =>
    rw [circleWalk_succ] at hq
    rcases List.mem_cons.mp hq with rfl | hq
    · exact hp
    · split at hq
      next => cases hq
      next hgo => exact ih (circleStep_inQuadrant hp (by omega)) hq

theorem circleWalk_add {r : Int} {n : Nat} {p : Int × Int} (hp : InQuadrant r p) (hn : r - p.1 - p.2 ≤ n) (k : Nat) :
    circleWalk (n + k) p.1 p.2 (circleErr r p) = circleWalk n p.1 p.2 (circleErr r p) := by
  induction n generalizing p with
  | zero =>
    unfold InQuadrant at hp
    omega
  | succ n ih =>
    have hadv := circleStep_advances hp
    rw [Nat.add_right_comm, circleWalk_succ, circleWalk_succ]
    split
    next => rfl
    next hgo => rw [ih (circleStep_inQuadrant hp (by omega)) (by omega)]

theorem length_circleWalk_le (r : Int) (n : Nat) (p : Int × Int) :
    (circleWalk n p.1 p.2 (circleErr r p)).length ≤ n := by
  induction n generalizing p with
  | zero => exact le_refl 0
  | succ n ih =>
    rw [circleWalk_succ, List.length_cons]
    split
    next => exact Nat.succ_le_succ n.zero_le
    next => exact Nat.succ_le_succ (ih _)

/-- Settles O50: the walk's error term is that of R211's start, and the two axes have `2r` steps. -/
theorem circleWalkEndsInItsQuadrant : Obligations.CircleWalkEndsInItsQuadrant := by
  intro r hr
  have start : InQuadrant r (-r, 0) := ⟨⟨le_refl _, by omega⟩, le_refl _, by omega⟩
  have herr : 2 - 2 * r = circleErr r (-r, 0) := by
    unfold circleErr
    ring
  have room : r - -r - 0 ≤ (2 * r).toNat := by omega
  have hlen : (circleWalk (2 * r).toNat (-r) 0 (circleErr r (-r, 0))).length ≤ (2 * r).toNat :=
    length_circleWalk_le r _ (-r, 0)
  have walk := circleWalk_isWalk start room
  unfold circlePoints
  rw [herr]
  exact ⟨walk.head, fun k p q => walk.next, walk.last, fun p => inQuadrant_of_mem_circleWalk start, by omega,
    circleWalk_add start room⟩

/-! ### No drawing leaves the clip rectangle (R214, 42_blit.md R188 (a)) -/

/-- All a primitive can do: its packet is ignored while the latch is set, else it draws the dither selection inside the
clip rectangle, after the optional colour word. -/
theorem exec_primitive_draws {s : State} {i : Instr} (hg : s.g.clipOk) (hi : isPrimitive i = true) :
    ∃ (cw : Option Word) (t : State) (D : Int → Int → Prop),
      exec i s = s.unlessFaulted (t.complete 0) ∧
        Draws (s.colorWord cw) t (fun a b => (s.colorWord cw).g.inClip a b ∧ D a b) (s.colorWord cw).g.sel := by
  cases i with
  | pset _ _ cw => exact ⟨cw, _, _, rfl, draws_psetI (clipOk_colorWord hg cw) ..⟩
  | hline _ _ _ cw => exact ⟨cw, _, _, rfl, draws_hlineI (clipOk_colorWord hg cw) ..⟩
  | vline _ _ _ cw => exact ⟨cw, _, _, rfl, draws_vlineI (clipOk_colorWord hg cw) ..⟩
  | line _ _ _ _ cw => exact ⟨cw, _, _, rfl, draws_points (clipOk_colorWord hg cw) ..⟩
  | rect _ _ _ _ cw => exact ⟨cw, _, _, rfl, draws_rectI (clipOk_colorWord hg cw) ..⟩
  | rectfill _ _ _ _ cw => exact ⟨cw, _, _, rfl, draws_rectfillI (clipOk_colorWord hg cw) ..⟩
  | circ _ _ _ cw => exact ⟨cw, _, _, rfl, draws_circI (clipOk_colorWord hg cw) ..⟩
  | circfill _ _ _ cw => exact ⟨cw, _, _, rfl, draws_circfillI (clipOk_colorWord hg cw) ..⟩
  | _ => cases hi

/-- The dither selection is one of the two colours (R165). -/
theorem Gfx.sel_eq_or (g : Gfx) (x y : Int) : g.sel x y = g.fg ∨ g.sel x y = g.bg := by
  rw [g.sel_eq_patternBit]
  exact (ite_eq_or_eq _ _ _).symm

theorem State.colorWord_fbPix (s : State) (cw : Option Word) (x y : Int) :
    (s.colorWord cw).fbPix x y = s.fbPix x y := by
  simp only [State.fbPix, State.nib, State.colorWord_byte]

/-- A drawing leaves a pixel alone or gives it its value. -/
theorem Draws.fbPix_eq_or {s t : State} {D : Int → Int → Prop} {v : Int → Int → Nibble} (h : Draws s t D v)
    {x y : Int} (hxy : onScreen x y) : t.fbPix x y = s.fbPix x y ∨ t.fbPix x y = v x y := by
  by_cases hD : D x y
  · exact .inr (h.drawn x y hxy hD)
  · exact .inl (h.kept x y hxy hD)

/-- Settles O51: by what a primitive and what a blit draws, or by the ignored packet. -/
theorem drawingStaysInsideTheClipRectangle : Obligations.DrawingStaysInsideTheClipRectangle := by
  intro i s t hg hi h
  rcases hi with hi | hi
  case inl =>
    obtain ⟨cw, u, D, hexec, hd⟩ := exec_primitive_draws hg hi
    rcases State.unlessFaulted_cases (hexec.symm.trans h) with ⟨_, rfl⟩ | ⟨_, rfl⟩
    · exact ⟨fun _ _ _ _ => rfl, fun _ _ _ => rfl, fun _ _ _ => .inl rfl⟩
    have hgfx : (u.complete 0).g = (s.colorWord cw).g := hd.same.g
    refine ⟨fun x y hxy hout => ?clip, fun S k hS => ?stores, fun x y hxy => ?values⟩
    case clip =>
      refine (hd.keeps_outside_clip.1 x y hxy ?_).trans (s.colorWord_fbPix cw x y)
      rwa [colorWord_g, Gfx.inClip_colored]
    case stores => exact (hd.same.byte hS k).trans (s.colorWord_byte cw S k)
    case values =>
      rw [hgfx, ← s.colorWord_fbPix cw]
      refine (hd.fbPix_eq_or hxy).imp id fun hv => .inl ⟨hi, ?_⟩
      rw [State.complete_fbPix, hv]
      exact Gfx.sel_eq_or _ x y
  case inr =>
    obtain ⟨u, D, c, hexec, hd⟩ := exec_blit_draws hg hi
    rcases State.unlessFaulted_cases (hexec.symm.trans h) with ⟨_, rfl⟩ | ⟨_, rfl⟩
    · exact ⟨fun _ _ _ _ => rfl, fun _ _ _ => rfl, fun _ _ _ => .inl rfl⟩
    · exact ⟨hd.keeps_outside_clip.1, fun S k hS => hd.same.byte hS k, fun x y hxy =>
        (hd.fbPix_eq_or hxy).imp id fun hv => .inr ⟨hi, c x y, hv⟩⟩

end Sys2Proof.Machine

/-! The statements of 44_sprite_map_flags.md. Each cell command is led to its store by its operands, and then is one
read or one write of that store; MAP is what `draws_mapBlock` says, its cells read from the two halves of the map. -/

namespace Sys2Proof.Machine

/-! ### Where operands lead (R230, R232, 10_state.md R42 to R44) -/

/-- A signed coordinate and its operand word wrap to the same cell of the 128 by 128 grid. -/
theorem s16_mod_grid (w : Word) : s16 w % 128 = (w.toNat % 128 : Nat) := by
  rw [s16, BitVec.toInt_eq_toNat_cond]
  split <;> omega

theorem srcElem_operands (sel : Bool) (x y : Word) {e : Nat} (he : (y.toNat % 128) * 128 + x.toNat % 128 = e) :
    srcElem sel (s16 x) (s16 y) =
      if sel then (.font, e) else if e < 8192 then (.gfxLo, e) else (.shared, e - 8192) := by
  have hcell : ((s16 y % 128) * 128 + s16 x % 128).toNat = e := by
    rw [s16_mod_grid, s16_mod_grid]
    omega
  rw [srcElem, hcell]

theorem mapElem_inside {i : Nat} (hi : i ≤ 8191) :
    mapElem i = some (if i < 4096 then (.mapLo, i) else (.shared, i - 4096)) := by
  rw [mapElem, if_pos (by omega)]
  split
  next hlo => rw [if_pos (by omega), Int.toNat_natCast]
  next hhi =>
    have hbyte : ((i : Int) - 4096).toNat = i - 4096 := by omega
    rw [if_neg (by omega), hbyte]

theorem mapElem_outside {i : Int} (hi : i < 0 ∨ 8191 < i) : mapElem i = none := if_neg (by omega)

/-! ### Reads and writes outside the map (R232, decision D29; log entry 9) -/

theorem mapCell_outside (s : State) {i : Int} (hi : i < 0 ∨ 8191 < i) : s.mapCell i = 0 := by
  simp only [State.mapCell, mapElem_outside hi]

theorem setMapCell_outside (s : State) {i : Int} (hi : i < 0 ∨ 8191 < i) (v : Byte) : s.setMapCell i v = s := by
  simp only [State.setMapCell, mapElem_outside hi]

/-- A map cell by its index: a byte of either half of the map, 0 beside it (10_state.md R44). -/
theorem mapCell_eq (s : State) (i : Int) :
    s.mapCell i =
      if 0 ≤ i ∧ i ≤ 8191 then
        (if i < 4096 then s.byte .mapLo i.toNat else s.byte .shared (i - 4096).toNat)
      else 0 := by
  by_cases hi : 0 ≤ i ∧ i ≤ 8191
  · by_cases hlo : i < 4096 <;> simp only [State.mapCell, mapElem, if_pos hi, hlo, if_true, if_false]
  · rw [if_neg hi, mapCell_outside s (by omega)]

/-! ### What a write command leaves -/

/-- Completion with another graphics state: the colour word comes before the write (30_encoding.md R104). -/
theorem State.KeepsControl.completes_withGfx {s t : State} {g : Gfx} (h : s.KeepsControl t) (hg : t.g = g)
    (r : Word32) : s.Completes (t.complete r) g r :=
  ⟨hg, h.fault, h.input, h.epoch, rfl, congrArg (· + 1) h.ci⟩

/-- A command that writes one byte: it completes, and every other byte reads as before. -/
theorem exec_of_setByte {s : State} {i : Instr} {S : Store} {k : Nat} {b : Byte}
    (h : exec i s = .next ((s.setByte S k b).complete 0)) :
    ∃ t, exec i s = .next t ∧ s.Completes t s.g 0 ∧ t.byte S k = b ∧
      s.KeepsBytes t (fun T j => T = S ∧ j = k) :=
  ⟨_, h, (keepsControl_setByte s S k b).completes rfl 0, State.byte_setByte_same s S k b,
    fun T j hj => (State.byte_setByte s S T k j b).trans (if_neg hj)⟩

/-- A command whose operation leaves the state as it is completes, and does nothing else. -/
theorem exec_of_unchanged {s t : State} {i : Instr} (hs : s.fault = false)
    (h : exec i s = s.unlessFaulted (t.complete 0)) (ht : t = s) : exec i s = .next (s.complete 0) :=
  h.trans (ht ▸ State.unlessFaulted_of_running hs _)

theorem State.colorWord_nib (s : State) (cw : Option Word) (S : Store) (e : Nat) :
    (s.colorWord cw).nib S e = s.nib S e := by
  simp only [State.nib, State.colorWord_byte]

/-- SSET with its colour word: `fg` is the colour that the word leaves (R231). -/
theorem exec_sset_colored {s : State} (hs : s.fault = false) {x y : Word} {S : Store} {e : Nat}
    (ht : srcElem s.g.sheetSel (s16 x) (s16 y) = (S, e)) (cw : Option Word) :
    exec (.sset x y cw) s = .next (((s.colorWord cw).setNib S e (s.g.colored cw).fg).complete 0) := by
  have hsel : (s.colorWord cw).g.sheetSel = s.g.sheetSel := by cases cw <;> rfl
  have hwrite : (s.colorWord cw).setSrc (s16 x) (s16 y) (s.colorWord cw).g.fg =
      (s.colorWord cw).setNib S e (s.g.colored cw).fg := by rw [State.setSrc, hsel, ht, colorWord_g]
  exact hwrite ▸ State.unlessFaulted_of_running hs _

/-! ### The sprite sheet and the map (R230 to R234) -/

/-- Settles O56: the wrapped cell's element is read, or written with the colour that the word leaves; the element's pair
and the bytes beside it are kept. -/
theorem sgetAndSsetResult : Obligations.SgetAndSsetResult := by
  intro s x y cw hs e cell
  have hcell : srcElem s.g.sheetSel (s16 x) (s16 y) = cell := srcElem_operands s.g.sheetSel x y rfl
  refine ⟨rfl, packet_colored rfl rfl _ cw, ?sget, _, exec_sset_colored hs hcell cw, ?completes, ?written, ?paired,
    ?kept⟩
  case sget =>
    have hread : s.src (s16 x) (s16 y) = s.nib cell.1 cell.2 := by rw [State.src, hcell]
    exact hread ▸ State.unlessFaulted_of_running hs _
  case completes =>
    exact ((keepsControl_colorWord s cw).trans (keepsControl_setByte ..)).completes_withGfx (colorWord_g s cw) 0
  case written => exact State.nib_setNib_same ..
  case paired =>
    have hother : ¬ (cell.1 = cell.1 ∧ cell.2 ^^^ 1 = cell.2) := by simp
    exact (State.nib_setNib ..).trans ((if_neg hother).trans (s.colorWord_nib cw _ _))
  case kept => exact fun T k h => (State.byte_setNib _ _ T _ k _ h).trans (s.colorWord_byte cw T k)

/-- Settles O57: inside the map the index leads to one byte, which is read or written. -/
theorem mgetAndMsetResult : Obligations.MgetAndMsetResult := by
  intro s x y v i hs hidx hi cell
  have hcell : mapElem (mapIndex (s16 x) (s16 y)) = some cell := (congrArg mapElem hidx).trans (mapElem_inside hi)
  refine ⟨rfl, rfl, ?mget, exec_of_setByte (exec_mset hs hcell v)⟩
  case mget =>
    have hread : s.mapCell (mapIndex (s16 x) (s16 y)) = s.byte cell.1 cell.2 := by simp only [State.mapCell, hcell]
    exact hread ▸ State.unlessFaulted_of_running hs _

/-! ### The flag bytes (R235 to R238) -/

/-- Setting one flag bit changes that bit alone (R238). -/
theorem getLsbD_setFlagBit (f : Byte) {b k : Nat} (hk : k < 8) (t : Bool) :
    (setFlagBit f b t).getLsbD k = if k = b then t else f.getLsbD k := by
  have hmask : (1#8 <<< b).getLsbD k = decide (k = b) := by
    have hsame : (b < 8 ∧ b = k) ↔ k = b := by omega
    rw [← BitVec.twoPow_eq, BitVec.getLsbD_twoPow, ← Bool.decide_and, decide_eq_decide.mpr hsame]
  cases t
  case true =>
    rw [setFlagBit, if_pos rfl, BitVec.getLsbD_or, hmask]
    split <;> simp [*]
  case false =>
    rw [setFlagBit, if_neg Bool.false_ne_true, BitVec.getLsbD_and, BitVec.getLsbD_not, hmask]
    split <;> simp [*]

/-- Settles O59: the id is the low byte of its operand and the bit number the low three bits. -/
theorem flagCommandsResult : Obligations.FlagCommandsResult := by
  intro s n v b T hs id bit
  have hid : (lo8 n).toNat = id := lo8_toNat n
  have hbit : lo3 b = bit := lo3_eq b
  refine ⟨⟨rfl, rfl, rfl, by cases T <;> rfl⟩, ?fget, ?fgetb, ?fset, ?fsetb⟩
  case fget => exact hid ▸ State.unlessFaulted_of_running hs _
  case fgetb => exact hid ▸ hbit ▸ State.unlessFaulted_of_running hs _
  case fset => exact hid ▸ exec_of_setByte (State.unlessFaulted_of_running hs _)
  case fsetb =>
    obtain ⟨t, hexec, hdone, hbyte, hkept⟩ := exec_of_setByte (i := .fsetb T n b) (State.unlessFaulted_of_running hs _)
    rw [hid, hbit] at hbyte
    rw [hid] at hkept
    exact ⟨t, hexec, hdone, fun k hk => hbyte ▸ getLsbD_setFlagBit _ hk T, hkept⟩

/-! ### MAP (R240) -/

theorem cellDrawn_iff (cell flags layer : Byte) :
    cellDrawn cell flags layer = true ↔ cell ≠ 0 ∧ (layer = 0 ∨ flags &&& layer = layer) := by
  simp [cellDrawn]

/-- An offset falls in one of the first `n` cells, 8 pixels apart, exactly when it is inside their extent. -/
theorem cell_in_block (a p n : Int) : (0 ≤ (a - p) / 8 ∧ (a - p) / 8 < n) ↔ (p ≤ a ∧ a < p + 8 * n) := by omega

/-- MAP at a clear latch, by the cell that each pixel of its block falls in, however that cell is written. -/
theorem exec_map_paints {s : State} (hs : s.fault = false) (hg : s.g.clipOk) (celX celY sx sy celW celH layer : Word)
    {cell : Int → Int → Byte} {c : Int → Int → Nibble}
    (hcell : ∀ a b, cell a b =
      s.blockCell (s16 celX) (s16 celY) ((a - s.camX (s16 sx)) / 8) ((b - s.camY (s16 sy)) / 8))
    (hc : ∀ a b, c a b = s.src (spriteX (cell a b) + (a - s.camX (s16 sx)) % 8)
      (spriteY (cell a b) + (b - s.camY (s16 sy)) % 8)) :
    ∃ t, exec (.map celX celY sx sy celW celH layer) s = .next t ∧ s.Completes t s.g 0 ∧
      s.Paints t
        (fun a b => s.g.inClip a b ∧
          ((s.camX (s16 sx) ≤ a ∧ a < s.camX (s16 sx) + 8 * s16 celW) ∧
            (s.camY (s16 sy) ≤ b ∧ b < s.camY (s16 sy) + 8 * s16 celH)) ∧
          cell a b ≠ 0 ∧ (lo8 layer = 0 ∨ s.byte .flags (cell a b).toNat &&& lo8 layer = lo8 layer) ∧
          s.g.isTransparent (c a b) = false)
        (fun a b => s.g.palette (c a b)) := by
  have hcolour (a b : Int) :
      c a b = s.mapColour (s16 celX) (s16 celY) (s.camX (s16 sx)) (s.camY (s16 sy)) a b := by
    rw [hc, hcell, State.mapColour]
  refine exec_of_draws hs rfl ((draws_mapBlock hg (s16 celX) (s16 celY) (s.camX (s16 sx)) (s.camY (s16 sy)) (s16 celW)
    (s16 celH) (lo8 layer)).congr (fun a b _ => ?region) (fun a b _ _ => congrArg s.g.palette (hcolour a b)))
  case region =>
    rw [cell_in_block, cell_in_block, State.blockDrawn, cellDrawn_iff, ← hcell, ← hcolour,
      and_assoc (a := cell a b ≠ 0)]

theorem mapDrawCell_zero (s : State) (layer : Byte) (px py : Int) : s.mapDrawCell 0 layer px py = s :=
  if_neg fun h => ((cellDrawn_iff 0 _ layer).mp h).1 rfl

/-- A block wholly outside the map draws nothing (decision D29). -/
theorem mapBlock_outside (s : State) {celX celY celW celH : Int}
    (h : ∀ i j : Int, 0 ≤ i → i < celW → 0 ≤ j → j < celH →
      mapIndex (celX + i) (celY + j) < 0 ∨ 8191 < mapIndex (celX + i) (celY + j)) (px py : Int) (layer : Byte) :
    s.mapBlock celX celY px py celW celH layer = s := by
  refine (forRange_congr (fun j t hj0 hj => ?row) s).trans (forRange_id 0 (celH - 1) s)
  case row =>
    refine (forRange_congr (fun i u hi0 hi => ?cell) t).trans (forRange_id 0 (celW - 1) t)
    case cell => rw [mapCell_outside u (h i j hi0 (by omega) hj0 (by omega)), mapDrawCell_zero]

/-- Settles O58: outside the map a cell reads 0 and a write is discarded; MAP draws no cell that reads 0, so a block
wholly outside draws nothing, and one across the edge draws the cells inside. -/
theorem mapIndexOutsideTheMap : Obligations.MapIndexOutsideTheMap := by
  intro s x y v hs
  refine ⟨fun hout => ⟨?mget, ?mset⟩, fun sx sy cw ch hout => ?outside, fun hg sx sy cw ch => ?across⟩
  case mget =>
    have hread : s.mapCell (mapIndex (s16 x) (s16 y)) = 0 := mapCell_outside s hout
    exact (congrArg (fun b : Byte => s.unlessFaulted (s.complete (b.setWidth 32))) hread).trans
      (State.unlessFaulted_of_running hs _)
  case mset =>
    have hwrite : s.setMapCell (mapIndex (s16 x) (s16 y)) (lo8 v) = s := setMapCell_outside s hout _
    exact exec_of_unchanged hs rfl hwrite
  case outside =>
    have hblock : s.mapBlock (s16 x) (s16 y) (s.camX (s16 sx)) (s.camY (s16 sy)) (s16 cw) (s16 ch) (lo8 v) = s :=
      mapBlock_outside s hout _ _ _
    exact exec_of_unchanged hs rfl hblock
  case across =>
    exact exec_map_paints hs hg x y sx sy cw ch v (fun _ _ => (mapCell_eq s _).symm) (fun _ _ => rfl)

/-- Settles O60: what the block draws, each cell as MAP reads it. -/
theorem mapResult : Obligations.MapResult := fun _ celX celY sx sy celW celH layer hs hg _ =>
  ⟨rfl, exec_map_paints hs hg celX celY sx sy celW celH layer (fun _ _ => rfl) (fun _ _ => rfl)⟩

end Sys2Proof.Machine

/-! The statements of 45_integrity.md. Two facts carry them: CHECK and GETBUF end by whether the guards hold, and a
guard write keeps intact guards intact exactly when its value is the expected one. -/

namespace Sys2Proof.Machine

/-! ### The check (R250, R251, R253) -/

/-- The guards hold, said once for both arrays. -/
theorem State.guardsHold_iff (s : State) :
    s.GuardsHold ↔ ∀ S k, IsGuard S → k < 8192 → s.byte S k = BitVec.ofNat 8 k := by
  refine ⟨?each, fun h k hk => ⟨h .g1 k (.inl rfl) hk, h .g2 k (.inr rfl) hk⟩⟩
  case each =>
    rintro h S k (rfl | rfl) hk
    · exact (h k hk).1
    · exact (h k hk).2

section
variable {s : State} (hs : s.fault = false)
include hs

/-- A command that begins with the check answers when the guards hold (R253). -/
theorem exec_of_check_passes {i : Instr} {r : Word32}
    (h : exec i s = s.unlessFaulted (if s.guardsIntact then s.complete r else s.raiseIntegrityFault))
    (hg : s.GuardsHold) : exec i s = .next (s.complete r) := by
  rw [h, if_pos ((guardsIntact_iff s).mpr hg), State.unlessFaulted_of_running hs]

/-- A command that begins with the check raises when they do not (R253, 60_exceptions.md R260). -/
theorem exec_of_check_raises {i : Instr} {r : Word32}
    (h : exec i s = s.unlessFaulted (if s.guardsIntact then s.complete r else s.raiseIntegrityFault))
    (hg : ¬ s.GuardsHold) : exec i s = .next s.raiseIntegrityFault := by
  rw [h, if_neg (mt (guardsIntact_iff s).mp hg), State.unlessFaulted_of_running hs]

theorem exec_getbuf_raises (hg : ¬ s.GuardsHold) : exec .getbuf s = .next s.raiseIntegrityFault :=
  exec_of_check_raises hs rfl hg

theorem exec_check_raises (hg : ¬ s.GuardsHold) : exec .check s = .next s.raiseIntegrityFault :=
  exec_of_check_raises hs rfl hg

theorem exec_gpoke (idx v : Word) :
    exec (.gpoke idx v) s = .next ((s.pokeGuard (u16 idx) (lo8 v)).complete 0) := State.unlessFaulted_of_running hs _

end

/-- Settles O13: intact guards pass the check that both commands begin with. -/
theorem intactGuardsPassTheCheck : Obligations.IntactGuardsPassTheCheck := fun _ hs hg =>
  ⟨rfl, rfl, exec_of_check_passes hs rfl hg, exec_of_check_passes hs rfl hg⟩

/-- Settles O14: with one byte off the pattern the guards do not hold. -/
theorem aDifferingGuardByteRaises : Obligations.ADifferingGuardByteRaises := by
  intro s i hs hi hdiff
  have hbroken : ¬ s.GuardsHold := fun hg => hdiff.elim (· (hg i hi).1) (· (hg i hi).2)
  exact ⟨exec_getbuf_raises hs hbroken, exec_check_raises hs hbroken⟩

/-! ### The guard write (R252) -/

theorem guardElem_g1 {i : Nat} (h : i ≤ 8191) : guardElem i = some (.g1, i) := if_pos h

theorem guardElem_g2 {i : Nat} (hlo : 8192 ≤ i) (hhi : i ≤ 16383) : guardElem i = some (.g2, i - 8192) := by
  rw [guardElem, if_neg (by omega), if_pos hhi]

theorem guardElem_outside {i : Nat} (h : 16384 ≤ i) : guardElem i = none := by
  rw [guardElem, if_neg (by omega), if_neg (by omega)]

/-- A guard index leads to a guard byte whose expected value is the index modulo 256, in `G2` too since 8192 is a
multiple of 256 (10_state.md R46). -/
theorem guardElem_inside {i : Nat} (h : i ≤ 16383) :
    ∃ S k, guardElem i = some (S, k) ∧ IsGuard S ∧ k < 8192 ∧ BitVec.ofNat 8 k = BitVec.ofNat 8 i := by
  rcases Nat.lt_or_ge i 8192 with hlo | hhi
  · exact ⟨.g1, i, guardElem_g1 (by omega), .inl rfl, hlo, rfl⟩
  · exact ⟨.g2, i - 8192, guardElem_g2 hhi h, .inr rfl, by omega, by
      apply BitVec.eq_of_toNat_eq
      simp only [BitVec.toNat_ofNat]
      omega⟩

/-- A guard write changes the one byte that its index leads to. -/
theorem pokeGuard_writes (s : State) {i : Nat} {S : Store} {k : Nat} (h : guardElem i = some (S, k)) (v : Byte) :
    (s.pokeGuard i v).byte S k = v ∧ s.KeepsBytes (s.pokeGuard i v) (fun T j => T = S ∧ j = k) := by
  refine ⟨(byte_pokeGuard s i v S k).trans (if_pos h), fun T j hTj => ?kept⟩
  case kept =>
    have helsewhere : guardElem i ≠ some (T, j) := by
      rw [h]
      rintro ⟨⟩
      exact hTj ⟨rfl, rfl⟩
    exact (byte_pokeGuard s i v T j).trans (if_neg helsewhere)

theorem pokeGuard_outside (s : State) {i : Nat} (h : 16384 ≤ i) (v : Byte) : s.pokeGuard i v = s := by
  rw [State.pokeGuard, guardElem_outside h]

/-- Settles O15: range by range the index leads to the one byte that is written, or to none. -/
theorem gpokeResult : Obligations.GpokeResult := fun s idx v hs =>
  ⟨rfl, _, exec_gpoke hs idx v, (keepsControl_pokeGuard s _ _).completes (pokeGuard_g s _ _) 0,
    fun hg1 => pokeGuard_writes s (guardElem_g1 hg1) _,
    fun ⟨hlo, hhi⟩ => pokeGuard_writes s (guardElem_g2 hlo hhi) _,
    fun hout => (State.complete_stores _ 0).trans (congrArg State.stores (pokeGuard_outside s hout _))⟩

/-! ### Detection (R253) -/

/-- Intact guards stay intact under a guard write exactly when it writes the expected value. -/
theorem guardsHold_pokeGuard_iff {s : State} (hg : s.GuardsHold) {i : Nat} (hi : i ≤ 16383) (v : Byte) :
    (s.pokeGuard i v).GuardsHold ↔ v = BitVec.ofNat 8 i := by
  obtain ⟨S, k, helem, hS, hk, hexpected⟩ := guardElem_inside hi
  obtain ⟨hwritten, hkept⟩ := pokeGuard_writes s helem v
  rw [State.guardsHold_iff] at hg ⊢
  refine ⟨fun h => ?detected, fun hv T j hT hj => ?intact⟩
  case detected =>
    calc v = (s.pokeGuard i v).byte S k := hwritten.symm
      _ = BitVec.ofNat 8 k := h S k hS hk
      _ = BitVec.ofNat 8 i := hexpected
  case intact =>
    by_cases hsame : T = S ∧ j = k
    · obtain ⟨rfl, rfl⟩ := hsame
      exact hwritten.trans (hv.trans hexpected.symm)
    · exact (hkept T j hsame).trans (hg T j hT hj)

theorem lo8_eq_ofNat (w : Word) : lo8 w = BitVec.ofNat 8 w.toNat := rfl

/-- Settles O16: after the write the guards hold exactly when its value is the expected one, and the check sees it. -/
theorem oneCorruptedByteIsDetected : Obligations.OneCorruptedByteIsDetected := by
  intro s idx v hs hg hidx
  have hholds : ((s.pokeGuard (u16 idx) (lo8 v)).complete 0).GuardsHold ↔ lo8 v = lo8 idx :=
    lo8_eq_ofNat idx ▸ guardsHold_pokeGuard_iff hg hidx (lo8 v)
  have hrunning : ((s.pokeGuard (u16 idx) (lo8 v)).complete 0).fault = false := (pokeGuard_fault s _ _).trans hs
  exact ⟨_, exec_gpoke hs idx v,
    fun hv => ⟨exec_check_raises hrunning (mt hholds.mp hv), exec_getbuf_raises hrunning (mt hholds.mp hv)⟩,
    hholds.mpr⟩

end Sys2Proof.Machine

/-! The statements of 60_exceptions.md. Every command begins with the same test of the latch, so at a set latch one fact,
`exec_of_faulted`, says what all of them do; at a clear latch a command either is a failed check or completes. -/

namespace Sys2Proof.Machine

/-! ### The faulted block (R264, R265) -/

/-- Every command begins with the test of the latch (R264). -/
theorem exec_tests_latch (i : Instr) (s : State) : ∃ t, exec i s = s.unlessFaulted t := by
  cases i <;> exact ⟨_, rfl⟩

theorem exec_of_faulted {s : State} (hs : s.fault = true) (i : Instr) : exec i s = .next s.ignored := by
  obtain ⟨t, ht⟩ := exec_tests_latch i s
  rw [ht, State.unlessFaulted_of_faulted hs]

/-- The words presented in front are consumed, and what follows the packet stays presented (30_encoding.md R100). -/
theorem step_of_encode {s : State} {i : Instr} {es : List HostEvent} (h : s.input = presentWords (encode i) ++ es) :
    step s = exec i { s with input := es } := by
  have hfetch : fetchWords s.input = (encode i ++ (fetchWords es).1, (fetchWords es).2) := by
    rw [h, fetchWords_presentWords]
  rw [step_of_decode_ok hfetch (decode_encode i _), presentWords_fetchWords]

/-- Settles O21: by the cases of a step, where a command at a set latch is ignored. -/
theorem faultedUntilReset : Obligations.FaultedUntilReset := by
  intro s t hs h
  rcases step_cases h with ⟨hidle, rfl⟩ | hreset | ⟨i, ws, _, hexec⟩
  · exact .inl ⟨hs, rfl, rfl, rfl, rfl, fun hpresented => absurd hidle hpresented⟩
  · exact .inr hreset
  · rw [exec_of_faulted (by exact hs)] at hexec
    cases hexec
    exact .inl ⟨hs, rfl, rfl, rfl, rfl, fun _ => rfl⟩

/-- Settles O20: the packet decodes to its command, which the set latch ignores. -/
theorem faultedBlockIgnoresEveryCommand : Obligations.FaultedBlockIgnoresEveryCommand := fun i _ _ hs hin =>
  ⟨exec_of_faulted hs i, (step_of_encode hin).trans (exec_of_faulted (by exact hs) i)⟩

/-! ### What sets the latch (R260) -/

/-- A check of guards that do not hold (45_integrity.md R253). -/
def FailsCheck (i : Instr) (s : State) : Prop := (i = .check ∨ i = .getbuf) ∧ ¬ s.GuardsHold

theorem exec_of_failsCheck {s : State} (hs : s.fault = false) {i : Instr} (h : FailsCheck i s) :
    exec i s = .next s.raiseIntegrityFault := by
  obtain ⟨rfl | rfl, hg⟩ := h
  · exact exec_check_raises hs hg
  · exact exec_getbuf_raises hs hg

/-- A command that is no failed check completes, so the latch stays clear. -/
theorem fault_of_not_failsCheck {s t : State} (hs : s.fault = false) {i : Instr} (h : ¬ FailsCheck i s)
    (hexec : exec i s = .next t) : t.fault = false := by
  have hguards : (i = .check ∨ i = .getbuf) → s.GuardsHold := fun hi => not_not.mp fun hg => h ⟨hi, hg⟩
  obtain ⟨u, r, hu, hk, -⟩ := exec_finishes hs i hguards
  rw [hu] at hexec
  cases hexec
  exact hk.fault.trans hs

/-- Settles O18: a failed check raises, every other command completes. -/
theorem latchSetOnlyByAFailedCheck : Obligations.LatchSetOnlyByAFailedCheck := by
  intro i s t hs hexec
  by_cases h : FailsCheck i s
  · rw [exec_of_failsCheck hs h] at hexec
    cases hexec
    exact ⟨⟨fun _ => h, fun _ => rfl⟩, fun _ => rfl⟩
  · have hclear : ¬ t.fault = true := Bool.eq_false_iff.mp (fault_of_not_failsCheck hs h hexec)
    exact ⟨⟨fun hset => absurd hset hclear, fun hi => absurd hi h⟩, fun hset => absurd hset hclear⟩

/-! ### Nothing presented (R272) -/

theorem step_of_input_nil {s : State} (h : s.input = []) : step s = .next s := by
  simp only [step, h]

/-- Settles O11: the step's first case. -/
theorem idleStepHoldsTheState : Obligations.IdleStepHoldsTheState := fun _ => step_of_input_nil

end Sys2Proof.Machine

/-! The statement of 70_reset_and_hazards.md. Whatever part of a packet stands before it, the reset that comes next is
applied; the latch is not looked at. -/

namespace Sys2Proof.Machine

/-- Between packets the reset comes first in the stream (R280). -/
theorem step_of_reset {s : State} {es : List HostEvent} (h : s.input = .reset :: es) :
    step s = .next (s.applyReset es) := by
  simp only [step, h]

/-- A short packet with the reset behind it has the reset as its step (R280; log entry 8). -/
theorem step_of_cut_packet {s : State} {i : Instr} {k : Nat} {es : List HostEvent} (hpos : 0 < k)
    (hk : k < (encode i).length) (h : s.input = presentWords ((encode i).take k) ++ .reset :: es) :
    step s = .next (s.applyReset es) := by
  obtain ⟨ws, hcut, hshort⟩ := decode_take_encode hpos hk
  have hfetch : fetchWords s.input = ((encode i).headD 0 :: ws, .reset :: es) := by
    rw [h, hcut, fetchWords_until (.inr ⟨es, rfl⟩)]
  calc step s = s.rejected (.shortPacket ((encode i).headD 0)) (.reset :: es) := step_of_decode_error hfetch hshort
    _ = .next (s.applyReset es) := rfl

/-- Settles O10: between packets or after a part of one the step is the reset, which empties the stores. -/
theorem resetEvent : Obligations.ResetEvent := by
  intro s i k es hk hin
  have hstep : step s = .next (s.applyReset es) := by
    rcases Nat.eq_zero_or_pos k with rfl | hpos
    · exact step_of_reset hin
    · exact step_of_cut_packet hpos hk hin
  exact ⟨s.applyReset es, hstep, rfl, rfl, State.guardsHold_of_empty rfl, wf_empty, rfl, rfl⟩

end Sys2Proof.Machine
